-- ==== Sys2Proof/Word.lean ====
section
/-!
DEFINITION. The words the GF2D engine moves: 64-bit limbs and port words, 10-bit port addresses.

Register contents are bit vectors; the limb-vector functions work on their values, non-negative
integers, as the spec writes them (00_scope.md R10, R11).
-/

namespace Sys2Proof

/-- One limb, one word of the register port, one command word: 64 bits (R6 `W = 64`, R51, R81). -/
abbrev Word := BitVec 64

/-- A word address of the register port: 0x000..0x3FF (R50). -/
abbrev Addr := BitVec 10

/-- Limb width in bits (R6: `W`, fixed at 64). -/
abbrev limbBits : Nat := 64

/-- Bits of the multiplier and of the squarer's operand consumed per table lookup
(R6: `WINDOW`, fixed at 4). -/
abbrev window : Nat := 4

end Sys2Proof
end

