-- ==== Sys2Proof/Config.lean ====
section
/-!
DEFINITION. The implementation parameter `FIELD` and everything derived from it (00_scope.md R6,
R7, R8). An instance of the engine has one `FIELD`, fixed and never changed at run time.
-/

namespace Sys2Proof

/-- The parameter `FIELD`: one of the nine rows of the field table (R6, R7). No other value can be
built (R269: "a model takes FIELD from the nine-element enumeration"). -/
inductive FieldId where
  | d113 | d131 | d163 | d193 | d233 | d239 | d283 | d409 | d571
deriving DecidableEq, Repr

/-- `D`, the field degree (R7, first column). -/
def FieldId.degree : FieldId → Nat
  | .d113 => 113
  | .d131 => 131
  | .d163 => 163
  | .d193 => 193
  | .d233 => 233
  | .d239 => 239
  | .d283 => 283
  | .d409 => 409
  | .d571 => 571

/-- `R`, the integer whose binary expansion is r(x) (R7, column `R (hex)`). -/
def FieldId.r : FieldId → Nat
  | .d113 => 0x201
  | .d131 => 0x10D
  | .d163 => 0xC9
  | .d193 => 0x8001
  | .d233 => 0x4000000000000000001
  | .d239 => 0x1000000001
  | .d283 => 0x10A1
  | .d409 => 0x8000000000000000000001
  | .d571 => 0x425

/-- `F`, the integer of the full reduction polynomial f(x) = x^D + r(x): `F = 2^D + R` (R6). -/
def FieldId.poly (F : FieldId) : Nat := 2 ^ F.degree + F.r

/-- `L`, limbs per element: `⌈D / W⌉` (R6). -/
def FieldId.limbs (F : FieldId) : Nat := (F.degree + (limbBits - 1)) / limbBits

/-- Length of an element register in bits: `L` limbs (R21). -/
abbrev FieldId.elemBits (F : FieldId) : Nat := limbBits * F.limbs

/-- Length of a wide register in bits: `2L` limbs (R22). -/
abbrev FieldId.wideBits (F : FieldId) : Nat := limbBits * (2 * F.limbs)

/-- Characters of an element's hex string: `2·⌈D/8⌉` (R7, R133). -/
def FieldId.hexLen (F : FieldId) : Nat := 2 * ((F.degree + 7) / 8)

/-- The nine rows in the order of R7. -/
def allFields : List FieldId :=
  [.d113, .d131, .d163, .d193, .d233, .d239, .d283, .d409, .d571]

end Sys2Proof
end

