-- ==== Sys2Proof/Machine/LimbVec.lean ====
section
/-!
DEFINITION. The limb-vector functions as pure functions on values (40_limbvec_primitives.md R100 to
R109), the carryless product (00_scope.md R12), and the limb-level procedures the spec prescribes
for some of them.

A limb vector of `n` limbs is its value, an integer below `2^(64n)` (00_scope.md R11).
-/

namespace Sys2Proof.Machine

/-- `limb(x, i)`: limb `i` of the integer `x` (R11). -/
def limb (x i : Nat) : Nat := (x >>> (limbBits * i)) % 2 ^ limbBits

/-- `x` with limb `i` replaced by `v`: `x − limb(x, i)·2^(64i) + v·2^(64i)` (R53). -/
def setLimb (x i v : Nat) : Nat :=
  x - limb x i * 2 ^ (limbBits * i) + v * 2 ^ (limbBits * i)

/-- `Σ_{i<n} l_i·2^(64i)`: the value of a list of limbs, least significant first (R11). -/
def ofLimbs : List Nat → Nat
  | [] => 0
  | l :: ls => l + 2 ^ limbBits * ofLimbs ls

/-- The `n` limbs of `x`, least significant first (R11, R59). -/
def toLimbs (n x : Nat) : List Nat := (List.range n).map (limb x)

/-- `get_bit(v, i)`: bit `i`, 0 or 1 (R101). -/
def getBit (v i : Nat) : Nat := (v >>> i) % 2

/-- `flip_bit(v, i)`: `v ⊕ 2^i` (R102). -/
def flipBit (v i : Nat) : Nat := v ^^^ 2 ^ i

/-- `bit_length(v)`: 1 + the position of the highest set bit, or 0 if `v` is zero (R103). -/
def bitLength (v : Nat) : Nat := if v = 0 then 0 else Nat.log2 v + 1

/-- `left_shift(v, k)` in a vector of `len` limbs: bits shifted past the top are discarded (R104). -/
def leftShift (len v k : Nat) : Nat := (v <<< k) % 2 ^ (limbBits * len)

/-- `xor(a, b)` (R105). -/
def xorVec (a b : Nat) : Nat := a ^^^ b

/-- `shifted_xor(a, b, k)`: `a ⊕ (b << k)` (R106). -/
def shiftedXor (a b k : Nat) : Nat := a ^^^ (b <<< k)

/-- `get_bits(v, i, n)`: the `n`-bit field at bit `i` (R107). -/
def getBits (v i n : Nat) : Nat := (v >>> i) % 2 ^ n

/-- `change_length(v, L')`: copies the low limbs, zero-extends or truncates (R108). -/
def changeLength (v len : Nat) : Nat := v % 2 ^ (limbBits * len)

/-- `⊕ over the bits p < n of a that are set, of (b << p)`: the carryless product of the low `n`
bits of `a` with `b` (R12). -/
def clmulLow (a b : Nat) : Nat → Nat
  | 0 => 0
  | n + 1 => if getBit a n = 1 then clmulLow a b n ^^^ (b <<< n) else clmulLow a b n

/-- `clmul(a, b)`: the carryless product, the integer of A(x)·B(x) over GF(2) (R12). -/
def clmul (a b : Nat) : Nat := clmulLow a b (bitLength a)

/-! ## Limb-level procedures

"at limb level where BECC prescribes the limb handling" (R100). The commands use the functions on
values; these are the procedures the spec prescribes for them, stated equal in the obligations. -/

/-- R101 at limb level: `(v[i/W] >> (i mod W)) & 1`. -/
def getBitLimbs (v i : Nat) : Nat := (limb v (i / limbBits) >>> (i % limbBits)) &&& 1

/-- R102 at limb level: "Only limb `i div 64` changes". -/
def flipBitLimbs (v i : Nat) : Nat :=
  setLimb v (i / limbBits) (limb v (i / limbBits) ^^^ 2 ^ (i % limbBits))

/-- R103's procedure: scan the `n` limbs from the top limb downward for the first non-zero one. -/
def bitLengthScan (v : Nat) : Nat → Nat
  | 0 => 0
  | n + 1 =>
    if limb v n = 0 then bitLengthScan v n else limbBits * n + (Nat.log2 (limb v n) + 1)

/-- R105 at limb level, `n` limbs: `result[i] = a[i] ⊕ b[i]`. -/
def xorLimbs (n a b : Nat) : Nat :=
  ofLimbs ((List.range n).map fun i => limb a i ^^^ limb b i)

/-- `r` with `x` XORed into limb `i`. -/
def xorIntoLimb (r i x : Nat) : Nat := setLimb r i (limb r i ^^^ x)

/-- One round of R106's loop: the low `64 − s` bit piece of `b[i]` goes into limb `q + i`; the high
`s`-bit piece into limb `q + i + 1`, skipped when `s = 0`. -/
def shiftedXorRound (b q s r i : Nat) : Nat :=
  let low := xorIntoLimb r (q + i) ((limb b i <<< s) % 2 ^ limbBits)
  if s = 0 then low else xorIntoLimb low (q + i + 1) (limb b i >>> (limbBits - s))

/-- R106's limb-level procedure for a `b` of `lb` limbs. -/
def shiftedXorLimbs (lb a b k : Nat) : Nat :=
  (List.range lb).foldl (shiftedXorRound b (k / limbBits) (k % limbBits)) a

end Sys2Proof.Machine
end

