-- ==== Sys2Proof/Syntax.lean ====
section
/-!
DEFINITION. The 23 commands of the engine as a datatype: one constructor per row of
spec/opcode_table.json, operands already typed by register class (30_encoding.md R83, R86).
-/

namespace Sys2Proof

/-- An element register E0..E7: class E of R83, specifiers 0..7 (R21, R23). -/
abbrev EReg := Fin 8

/-- A wide register C0, C1: class C of R83, specifiers 8 and 9 (R22, R23). -/
abbrev CReg := Fin 2

/-- A vector register: class V of R83, specifiers 0..9 (R19, R23). -/
inductive VReg where
  | e (r : EReg)
  | c (q : CReg)
deriving DecidableEq, Repr

/-- A command (R83). Operands stand in the order of the table's "operands" column; `k` and `n` are
the immediate fields of the command word, 16 and 7 bits (R81, R82). Operands of the wrong class and
non-zero unused fields cannot be written here: the decoder rejects them (R85, R86, R88). The length
conditions of R87 are `Instr.wellFormed`. -/
inductive Instr where
  /-- NOP (R220) -/
  | nop
  /-- CLRERR (R221) -/
  | clrerr
  /-- GETBIT ra, #k (R110) -/
  | getbit (ra : VReg) (k : BitVec 16)
  /-- FLIPBIT rd, #k (R111) -/
  | flipbit (rd : VReg) (k : BitVec 16)
  /-- BITLEN ra (R112) -/
  | bitlen (ra : VReg)
  /-- LSH rd, #k (R113) -/
  | lsh (rd : VReg) (k : BitVec 16)
  /-- XOR rd, ra, rb (R114) -/
  | xor (rd ra rb : VReg)
  /-- SXOR rd, ra, rb, #k (R115) -/
  | sxor (rd ra rb : VReg) (k : BitVec 16)
  /-- GETBITS ra, #k, #n (R116) -/
  | getbits (ra : VReg) (k : BitVec 16) (n : BitVec 7)
  /-- CHLEN rd, ra (R117) -/
  | chlen (rd ra : VReg)
  /-- EQ ra, rb (R118) -/
  | eq (ra rb : VReg)
  /-- ADD rd, ra, rb (R152) -/
  | add (rd ra rb : EReg)
  /-- RED rd, ra (R161) -/
  | red (rd : EReg) (ra : CReg)
  /-- MULW rd, ra, rb (R172) -/
  | mulw (rd : CReg) (ra rb : EReg)
  /-- MUL rd, ra, rb (R173) -/
  | mul (rd ra rb : EReg)
  /-- MULSA rd, ra, rb (R174) -/
  | mulsa (rd ra rb : EReg)
  /-- MULRL rd, ra, rb (R175) -/
  | mulrl (rd ra rb : EReg)
  /-- MULLR rd, ra, rb (R176) -/
  | mullr (rd ra rb : EReg)
  /-- MULNR rd, ra, rb (R177) -/
  | mulnr (rd ra rb : EReg)
  /-- SQRW rd, ra (R191) -/
  | sqrw (rd : CReg) (ra : EReg)
  /-- SQR rd, ra (R192) -/
  | sqr (rd ra : EReg)
  /-- SQRB rd, ra (R193) -/
  | sqrb (rd ra : EReg)
  /-- INV rd, ra (R201) -/
  | inv (rd ra : EReg)
deriving DecidableEq, Repr

end Sys2Proof
end

