-- ==== Sys2Proof/WellFormed.lean ====
section
/-!
DEFINITION. Which terms of `Instr` are commands: the length conditions of the class-V commands
(30_encoding.md R87). Every other legality condition of R90 is in the types of `Instr`.
-/

namespace Sys2Proof

/-- Length of a vector register in units of `L` limbs: 1 for class E, 2 for class C (R23). Lengths
compare the same way for every `FIELD` (R90: they depend only on the classes). -/
def VReg.units : VReg → Nat
  | .e _ => 1
  | .c _ => 2

/-- The length conditions of R87: XOR needs three equal lengths, EQ two; SXOR needs
`len(rd) = len(ra) ≥ len(rb)`; CHLEN takes any pair. -/
def Instr.wellFormed : Instr → Bool
  | .xor rd ra rb => rd.units == ra.units && ra.units == rb.units
  | .sxor rd ra rb _ => rd.units == ra.units && decide (rb.units ≤ ra.units)
  | .eq ra rb => ra.units == rb.units
  | .nop => true
  | .clrerr => true
  | .getbit _ _ => true
  | .flipbit _ _ => true
  | .bitlen _ => true
  | .lsh _ _ => true
  | .getbits _ _ _ => true
  | .chlen _ _ => true
  | .add _ _ _ => true
  | .red _ _ => true
  | .mulw _ _ _ => true
  | .mul _ _ _ => true
  | .mulsa _ _ _ => true
  | .mulrl _ _ _ => true
  | .mullr _ _ _ => true
  | .mulnr _ _ _ => true
  | .sqrw _ _ => true
  | .sqr _ _ => true
  | .sqrb _ _ => true
  | .inv _ _ => true

end Sys2Proof
end

