-- ==== Sys2Proof/Decode.lean ====
section
/-!
DEFINITION. The command word: its fields, the opcode map, legality, the decoder (total on all 2^64
words, rejecting by name) and the encoder (30_encoding.md R81 to R90).
-/

namespace Sys2Proof

/-- The fields of a command word (R81). -/
structure Fields where
  opcode : BitVec 8
  rd : BitVec 4
  ra : BitVec 4
  rb : BitVec 4
  z1 : BitVec 5
  n : BitVec 7
  z2 : BitVec 16
  k : BitVec 16
deriving DecidableEq, Repr

/-- Field extraction (R82): opcode 63:56, rd 55:52, ra 51:48, rb 47:44, z1 43:39, n 38:32,
z2 31:16, k 15:0. -/
def Fields.ofWord (w : Word) : Fields where
  opcode := w.extractLsb' 56 8
  rd := w.extractLsb' 52 4
  ra := w.extractLsb' 48 4
  rb := w.extractLsb' 44 4
  z1 := w.extractLsb' 39 5
  n := w.extractLsb' 32 7
  z2 := w.extractLsb' 16 16
  k := w.extractLsb' 0 16

/-- The word with these fields (R81: the format, most significant field first). -/
def Fields.toWord (f : Fields) : Word :=
  f.opcode ++ f.rd ++ f.ra ++ f.rb ++ f.z1 ++ f.n ++ f.z2 ++ f.k

/-! ## The opcode map and legality, as the spec tabulates them -/

/-- A class letter of R83: `.` (unused, must be zero), `E`, `C` or `V`. -/
inductive OperandClass where
  | unused | classE | classC | classV
deriving DecidableEq, Repr

/-- Which specifier values a class admits (R86, R88; R85 for an unused field). -/
def OperandClass.admits : OperandClass → BitVec 4 → Bool
  | .unused, x => x == 0
  | .classE, x => decide (x.toNat ≤ 7)
  | .classC, x => x == 8 || x == 9
  | .classV, x => decide (x.toNat ≤ 9)

/-- One row of the opcode map (R83): the columns mnemonic, opcode, class (rd, ra, rb), imm (n, k),
match, mask. -/
structure OpcodeRow where
  mnemonic : String
  opcode : BitVec 8
  rd : OperandClass
  ra : OperandClass
  rb : OperandClass
  usesN : Bool
  usesK : Bool
  matchBits : Word
  mask : Word
deriving DecidableEq, Repr

/-- The system rows of R83 (group 0x0_). -/
def systemRows : List OpcodeRow :=
  [⟨"NOP", 0x00, .unused, .unused, .unused, false, false, 0x0000000000000000, 0xFFFFFFFFFFFFFFFF⟩,
   ⟨"CLRERR", 0x01, .unused, .unused, .unused, false, false, 0x0100000000000000, 0xFFFFFFFFFFFFFFFF⟩]

/-- The limb-vector primitive rows of R83 (group 0x1_). -/
def primitiveRows : List OpcodeRow :=
  [⟨"GETBIT", 0x10, .unused, .classV, .unused, false, true, 0x1000000000000000, 0xFFF0FFFFFFFF0000⟩,
   ⟨"FLIPBIT", 0x11, .classV, .unused, .unused, false, true, 0x1100000000000000, 0xFF0FFFFFFFFF0000⟩,
   ⟨"BITLEN", 0x12, .unused, .classV, .unused, false, false, 0x1200000000000000, 0xFFF0FFFFFFFFFFFF⟩,
   ⟨"LSH", 0x13, .classV, .unused, .unused, false, true, 0x1300000000000000, 0xFF0FFFFFFFFF0000⟩,
   ⟨"XOR", 0x14, .classV, .classV, .classV, false, false, 0x1400000000000000, 0xFF000FFFFFFFFFFF⟩,
   ⟨"SXOR", 0x15, .classV, .classV, .classV, false, true, 0x1500000000000000, 0xFF000FFFFFFF0000⟩,
   ⟨"GETBITS", 0x16, .unused, .classV, .unused, true, true, 0x1600000000000000, 0xFFF0FF80FFFF0000⟩,
   ⟨"CHLEN", 0x17, .classV, .classV, .unused, false, false, 0x1700000000000000, 0xFF00FFFFFFFFFFFF⟩,
   ⟨"EQ", 0x18, .unused, .classV, .classV, false, false, 0x1800000000000000, 0xFFF00FFFFFFFFFFF⟩]

/-- The field-command rows of R83 (group 0x2_). -/
def fieldRows : List OpcodeRow :=
  [⟨"ADD", 0x20, .classE, .classE, .classE, false, false, 0x2000000000000000, 0xFF888FFFFFFFFFFF⟩,
   ⟨"RED", 0x21, .classE, .classC, .unused, false, false, 0x2108000000000000, 0xFF8EFFFFFFFFFFFF⟩,
   ⟨"MULW", 0x22, .classC, .classE, .classE, false, false, 0x2280000000000000, 0xFFE88FFFFFFFFFFF⟩,
   ⟨"MUL", 0x23, .classE, .classE, .classE, false, false, 0x2300000000000000, 0xFF888FFFFFFFFFFF⟩,
   ⟨"MULSA", 0x24, .classE, .classE, .classE, false, false, 0x2400000000000000, 0xFF888FFFFFFFFFFF⟩,
   ⟨"MULRL", 0x25, .classE, .classE, .classE, false, false, 0x2500000000000000, 0xFF888FFFFFFFFFFF⟩,
   ⟨"MULLR", 0x26, .classE, .classE, .classE, false, false, 0x2600000000000000, 0xFF888FFFFFFFFFFF⟩,
   ⟨"MULNR", 0x27, .classE, .classE, .classE, false, false, 0x2700000000000000, 0xFF888FFFFFFFFFFF⟩,
   ⟨"SQRW", 0x28, .classC, .classE, .unused, false, false, 0x2880000000000000, 0xFFE8FFFFFFFFFFFF⟩,
   ⟨"SQR", 0x29, .classE, .classE, .unused, false, false, 0x2900000000000000, 0xFF88FFFFFFFFFFFF⟩,
   ⟨"SQRB", 0x2A, .classE, .classE, .unused, false, false, 0x2A00000000000000, 0xFF88FFFFFFFFFFFF⟩,
   ⟨"INV", 0x2B, .classE, .classE, .unused, false, false, 0x2B00000000000000, 0xFF88FFFFFFFFFFFF⟩]

/-- The whole opcode map of R83. Every other opcode value is reserved (R89). -/
def opcodeRows : List OpcodeRow := systemRows ++ primitiveRows ++ fieldRows

/-- The row with this opcode, if the opcode is not reserved (R83, R89). -/
def rowOf (opcode : BitVec 8) : Option OpcodeRow :=
  opcodeRows.find? fun row => row.opcode == opcode

/-- Length of the register with an admitted class-V specifier, in units of `L` limbs (R23). -/
def specUnits (x : BitVec 4) : Nat := if x.toNat ≤ 7 then 1 else 2

/-- The length conditions of R87 on the specifiers of a word: XOR (0x14), SXOR (0x15), EQ (0x18). -/
def lengthsAdmitted (f : Fields) : Bool :=
  if f.opcode == 0x14 then
    specUnits f.rd == specUnits f.ra && specUnits f.ra == specUnits f.rb
  else if f.opcode == 0x15 then
    specUnits f.rd == specUnits f.ra && decide (specUnits f.rb ≤ specUnits f.ra)
  else if f.opcode == 0x18 then specUnits f.ra == specUnits f.rb
  else true

/-- `Legal(w)` in full (R90): whether a word is one of the 23 commands. It depends on the word
alone. -/
def legal (w : Word) : Bool :=
  let f := Fields.ofWord w
  match rowOf f.opcode with
  | none => false
  | some row =>
    f.z1 == 0 && f.z2 == 0
      && row.rd.admits f.rd && row.ra.admits f.ra && row.rb.admits f.rb
      && (row.usesN || f.n == 0) && (row.usesK || f.k == 0)
      && lengthsAdmitted f

/-! ## The decoder -/

/-- Why a word is not a command. Each of these is the one engine fault IllegalCommand (R231). -/
inductive DecodeError where
  /-- the opcode is not listed in R83 (R89) -/
  | reservedOpcode
  /-- a bit of z1 or z2 is set (R85) -/
  | reservedBits
  /-- a field the command does not use is not zero (R85) -/
  | unusedField
  /-- a used specifier is reserved or of the wrong class (R86, R88) -/
  | badSpecifier
  /-- the operand lengths do not meet R87 -/
  | lengthMismatch
deriving DecidableEq, Repr

/-- The element register with this specifier: class E, 0..7 (R23, R86). -/
def elemSpec (x : BitVec 4) : Except DecodeError EReg :=
  if h : x.toNat < 8 then .ok ⟨x.toNat, h⟩ else .error .badSpecifier

/-- The wide register with this specifier: class C, 8 or 9 (R23, R86). -/
def wideSpec (x : BitVec 4) : Except DecodeError CReg :=
  if x = 8 then .ok 0 else if x = 9 then .ok 1 else .error .badSpecifier

/-- The vector register with this specifier: class V, 0..9; 10..15 are reserved (R23, R88). -/
def vecSpec (x : BitVec 4) : Except DecodeError VReg :=
  if h : x.toNat < 8 then .ok (.e ⟨x.toNat, h⟩)
  else if x = 8 then .ok (.c 0)
  else if x = 9 then .ok (.c 1)
  else .error .badSpecifier

/-- Goes on with `x` if every field the command does not use is zero (R85); the flags say which of
rd, ra, rb, n, k it uses. -/
def Fields.only (f : Fields) (rd ra rb n k : Bool) (x : Except DecodeError Instr) :
    Except DecodeError Instr :=
  if (rd || f.rd == 0) && (ra || f.ra == 0) && (rb || f.rb == 0) && (n || f.n == 0)
      && (k || f.k == 0) then x
  else .error .unusedField

/-- Goes on with `i` if its operand lengths meet R87. -/
def checkLengths (i : Instr) : Except DecodeError Instr :=
  if i.wellFormed then .ok i else .error .lengthMismatch

/-- rd, ra, rb all of class E: the shape of ADD and the five field multiplications (R83). -/
def Fields.threeElems (f : Fields) (mk : EReg → EReg → EReg → Instr) : Except DecodeError Instr :=
  f.only true true true false false do
    return mk (← elemSpec f.rd) (← elemSpec f.ra) (← elemSpec f.rb)

/-- rd, ra both of class E: the shape of SQR, SQRB, INV (R83). -/
def Fields.twoElems (f : Fields) (mk : EReg → EReg → Instr) : Except DecodeError Instr :=
  f.only true true false false false do
    return mk (← elemSpec f.rd) (← elemSpec f.ra)

/-- The command with these fields (R83, R85 to R89). -/
def decodeFields (f : Fields) : Except DecodeError Instr :=
  if f.z1 ≠ 0 ∨ f.z2 ≠ 0 then .error .reservedBits
  else
    match f.opcode.toNat with
    | 0x00 => f.only false false false false false (.ok .nop)
    | 0x01 => f.only false false false false false (.ok .clrerr)
    | 0x10 => f.only false true false false true do return .getbit (← vecSpec f.ra) f.k
    | 0x11 => f.only true false false false true do return .flipbit (← vecSpec f.rd) f.k
    | 0x12 => f.only false true false false false do return .bitlen (← vecSpec f.ra)
    | 0x13 => f.only true false false false true do return .lsh (← vecSpec f.rd) f.k
    | 0x14 => f.only true true true false false do
        checkLengths (.xor (← vecSpec f.rd) (← vecSpec f.ra) (← vecSpec f.rb))
    | 0x15 => f.only true true true false true do
        checkLengths (.sxor (← vecSpec f.rd) (← vecSpec f.ra) (← vecSpec f.rb) f.k)
    | 0x16 => f.only false true false true true do return .getbits (← vecSpec f.ra) f.k f.n
    | 0x17 => f.only true true false false false do
        return .chlen (← vecSpec f.rd) (← vecSpec f.ra)
    | 0x18 => f.only false true true false false do
        checkLengths (.eq (← vecSpec f.ra) (← vecSpec f.rb))
    | 0x20 => f.threeElems .add
    | 0x21 => f.only true true false false false do
        return .red (← elemSpec f.rd) (← wideSpec f.ra)
    | 0x22 => f.only true true true false false do
        return .mulw (← wideSpec f.rd) (← elemSpec f.ra) (← elemSpec f.rb)
    | 0x23 => f.threeElems .mul
    | 0x24 => f.threeElems .mulsa
    | 0x25 => f.threeElems .mulrl
    | 0x26 => f.threeElems .mullr
    | 0x27 => f.threeElems .mulnr
    | 0x28 => f.only true true false false false do
        return .sqrw (← wideSpec f.rd) (← elemSpec f.ra)
    | 0x29 => f.twoElems .sqr
    | 0x2A => f.twoElems .sqrb
    | 0x2B => f.twoElems .inv
    | _ => .error .reservedOpcode

/-- The decoder: every one of the 2^64 words is one of the 23 commands or is rejected by name
(R89). -/
def decode (w : Word) : Except DecodeError Instr := decodeFields (Fields.ofWord w)

/-- What the decoder reads from an instruction of the opcode table whose bits are `w`: the table's
rows are one 64-bit word (R81: one length, one format), so the bits above `nbits` are taken as zero
and a value of more than 64 bits is no command word. -/
def decodeTableWord (nbits w : Nat) : Option Instr :=
  let v := w % 2 ^ nbits
  if v < 2 ^ 64 then
    match decode (BitVec.ofNat 64 v) with
    | .ok i => some i
    | .error _ => none
  else none

/-! ## The encoder -/

/-- The specifier of an element register (R23). -/
def elemCode (r : EReg) : BitVec 4 := BitVec.ofNat 4 r.val

/-- The specifier of a wide register (R23). -/
def wideCode (q : CReg) : BitVec 4 := BitVec.ofNat 4 (8 + q.val)

/-- The specifier of a vector register (R23). -/
def vecCode : VReg → BitVec 4
  | .e r => elemCode r
  | .c q => wideCode q

/-- The fields of a command with opcode `op`: unused fields are zero (R85). -/
def commandFields (op : BitVec 8) (rd ra rb : BitVec 4 := 0) (n : BitVec 7 := 0)
    (k : BitVec 16 := 0) : Fields where
  opcode := op
  rd := rd
  ra := ra
  rb := rb
  z1 := 0
  n := n
  z2 := 0
  k := k

/-- The fields of a command's word (R83). -/
def Instr.fields : Instr → Fields
  | .nop => commandFields 0x00
  | .clrerr => commandFields 0x01
  | .getbit ra k => commandFields 0x10 (ra := vecCode ra) (k := k)
  | .flipbit rd k => commandFields 0x11 (rd := vecCode rd) (k := k)
  | .bitlen ra => commandFields 0x12 (ra := vecCode ra)
  | .lsh rd k => commandFields 0x13 (rd := vecCode rd) (k := k)
  | .xor rd ra rb => commandFields 0x14 (vecCode rd) (vecCode ra) (vecCode rb)
  | .sxor rd ra rb k => commandFields 0x15 (vecCode rd) (vecCode ra) (vecCode rb) (k := k)
  | .getbits ra k n => commandFields 0x16 (ra := vecCode ra) (n := n) (k := k)
  | .chlen rd ra => commandFields 0x17 (vecCode rd) (vecCode ra)
  | .eq ra rb => commandFields 0x18 (ra := vecCode ra) (rb := vecCode rb)
  | .add rd ra rb => commandFields 0x20 (elemCode rd) (elemCode ra) (elemCode rb)
  | .red rd ra => commandFields 0x21 (elemCode rd) (wideCode ra)
  | .mulw rd ra rb => commandFields 0x22 (wideCode rd) (elemCode ra) (elemCode rb)
  | .mul rd ra rb => commandFields 0x23 (elemCode rd) (elemCode ra) (elemCode rb)
  | .mulsa rd ra rb => commandFields 0x24 (elemCode rd) (elemCode ra) (elemCode rb)
  | .mulrl rd ra rb => commandFields 0x25 (elemCode rd) (elemCode ra) (elemCode rb)
  | .mullr rd ra rb => commandFields 0x26 (elemCode rd) (elemCode ra) (elemCode rb)
  | .mulnr rd ra rb => commandFields 0x27 (elemCode rd) (elemCode ra) (elemCode rb)
  | .sqrw rd ra => commandFields 0x28 (wideCode rd) (elemCode ra)
  | .sqr rd ra => commandFields 0x29 (elemCode rd) (elemCode ra)
  | .sqrb rd ra => commandFields 0x2A (elemCode rd) (elemCode ra)
  | .inv rd ra => commandFields 0x2B (elemCode rd) (elemCode ra)

/-- The word of a command (R81, R83). -/
def encode (i : Instr) : Word := i.fields.toWord

/-- The only CLRERR word (R221). -/
def clrerrWord : Word := 0x0100000000000000

end Sys2Proof
end

