-- ==== Sys2Proof/Machine/State.lean ====
section
/-!
DEFINITION. The state of the machine: one engine instance of a given `FIELD` (10_state.md R20), the
host's pending port transactions and reset events in issue order, and the port's answers so far
(20_memory.md R51, R60; 00_scope.md R15).
-/

namespace Sys2Proof.Machine

/-- What E0..E7 and C0, C1 of one instance hold. A reset draws one of these: "each bit holds an
arbitrary but definite value" (R37, R261). -/
structure Contents (F : FieldId) where
  e : Vector (BitVec F.elemBits) 8
  c : Vector (BitVec F.wideBits) 2
deriving DecidableEq, Repr

/-- The complete architectural state of one engine instance (R20). The type is indexed by `FIELD`,
so values of two instances cannot be combined (R36). PARAM_D, PARAM_L, PARAM_R0 and PARAM_R1 are
constants of the index (R30). -/
structure Engine (F : FieldId) where
  /-- element registers E0..E7, `L` limbs each (R21) -/
  e : Vector (BitVec F.elemBits) 8
  /-- wide registers C0, C1, `2L` limbs each (R22) -/
  c : Vector (BitVec F.wideBits) 2
  /-- STATUS: bit 0 ERR, bits 7:4 ECODE (R27) -/
  status : Word
  /-- RES, the scalar result register (R28) -/
  res : Word
  /-- ECMD, the command word of the latched fault (R29) -/
  ecmd : Word
deriving DecidableEq, Repr

/-- What reaches the block from outside, one at a time (R15, R51, R260). -/
inductive Input (F : FieldId) where
  /-- `HostRead(addr)` (R52) -/
  | hostRead (a : Addr)
  /-- `HostWrite(addr, v)` (R53) -/
  | hostWrite (a : Addr) (v : Word)
  /-- `Reset(oracle)`: the event carries the content it draws for E and C (R260, R261) -/
  | reset (draw : Contents F)
deriving DecidableEq, Repr

/-- The port's answer to one transaction (R52, R53, R54). -/
inductive Answer where
  /-- `Ok(v)`, the answer of a permitted read -/
  | data (v : Word)
  /-- `Ok`, the answer of a permitted write, whether its command succeeded, faulted or was ignored -/
  | ok
  /-- `Error`, the port's error response: the transaction is refused and changes nothing -/
  | error
deriving DecidableEq, Repr

/-- The machine: the instance's `FIELD`, its engine, the host's inputs still to come in issue order
(R26: "the sequence of host transactions is a parameter (an input list)"), and the answers given so
far, the latest first. No step changes `field`. -/
structure State where
  field : FieldId
  engine : Engine field
  inputs : List (Input field)
  answers : List Answer
deriving DecidableEq, Repr

/-- Reasons a step stops the machine: none. The engine's faults are latched in STATUS and ECMD and
the machine goes on (R236), and a port `Error` is an answer (R54), so every step gives a next state:
the type has no constructor. Safe: the spec gives every transaction exactly one outcome. -/
inductive Fault where
deriving DecidableEq, Repr

/-- Reasons a step has no meaning. -/
inductive Refusal where
  /-- Raised by an arm of `exec` whose command has no meaning yet; no arm raises it, all 23 commands
  are modelled. Safe: the model stops where the hardware goes on. -/
  | notModelled (mnemonic : String)
deriving DecidableEq, Repr

/-- The engine right after `Reset` with this draw (R260): STATUS, RES and ECMD are 0, E and C hold
the draw. -/
def Engine.afterReset {F : FieldId} (draw : Contents F) : Engine F where
  e := draw.e
  c := draw.c
  status := 0
  res := 0
  ecmd := 0

/-- The machine right after reset, for any `FIELD` and any draw, no input pending (R37, R260). -/
def State.initial (F : FieldId) (draw : Contents F) : State where
  field := F
  engine := Engine.afterReset draw
  inputs := []
  answers := []

/-- Every limb zero: one of the draws R261 allows. -/
def Contents.zero (F : FieldId) : Contents F where
  e := Vector.replicate 8 0
  c := Vector.replicate 2 0

/-- The machine right after reset. STATUS, RES, ECMD are 0 as R37 says. DESIGN CHOICE (log 1): the
instance is `FIELD` = 163. DESIGN CHOICE (log 2): the unspecified content of E and C is drawn as
zero. Statements about reset hold for every `State.initial`. -/
def State.reset : State := State.initial .d163 (Contents.zero .d163)

end Sys2Proof.Machine
end

