-- ==== Sys2Proof/Machine/Flags.lean ====
section
/-!
DEFINITION. The fields of STATUS, the engine's fault codes and the one flag, STATUS.ERR
(10_state.md R27, R32; 60_exceptions.md R230). No command sets a flag on success: there are no
condition codes.
-/

namespace Sys2Proof.Machine

/-- The engine's faults (R230): latched in STATUS and ECMD, the machine goes on. -/
inductive EngineFault where
  /-- the word is not a command (R231) -/
  | illegalCommand
  /-- an immediate names bits outside the operand (R232) -/
  | operandRange
  /-- an element-register source of a field command is not below 2^D (R233) -/
  | nonCanonical
  /-- INV of zero (R234) -/
  | divideByZero
deriving DecidableEq, Repr

/-- ECODE of a fault (R230). -/
def EngineFault.ecode : EngineFault → BitVec 4
  | .illegalCommand => 1
  | .operandRange => 2
  | .nonCanonical => 3
  | .divideByZero => 4

/-- STATUS with this fault latched: `(e << 4) | 1`, that is 0x11, 0x21, 0x31, 0x41 (R236). -/
def EngineFault.statusWord (x : EngineFault) : Word := (x.ecode.setWidth 64 <<< 4) ||| 1

variable {F : FieldId}

/-- STATUS.ERR, bit 0: a fault is latched (R27). -/
def Engine.err (m : Engine F) : Bool := m.status.getLsbD 0

/-- STATUS.ECODE, bits 7:4: the code of the latched fault, 0 when there is none (R27). -/
def Engine.ecode (m : Engine F) : BitVec 4 := m.status.extractLsb' 4 4

end Sys2Proof.Machine
end

