-- ==== Sys2Proof/Machine/Ops.lean ====
section
/-!
DEFINITION. The named operations on the machine: reading and writing registers, fault entry and the
return from a fault, the gate every command passes (30_encoding.md R80), and the port's bookkeeping.
-/

namespace Sys2Proof.Machine

variable {F : FieldId}

/-! ## Registers -/

/-- `E[r]`, an integer below `2^(64L)` (R13, R21). -/
def Engine.readE (m : Engine F) (r : EReg) : Nat := (m.e.get r).toNat

/-- `C[q]`, an integer below `2^(128L)` (R13, R22). -/
def Engine.readC (m : Engine F) (q : CReg) : Nat := (m.c.get q).toNat

/-- `V[r]`: the vector register with specifier `r` (R13, R23). -/
def Engine.readV (m : Engine F) : VReg → Nat
  | .e r => m.readE r
  | .c q => m.readC q

/-- `E[r] <- v`: the register's `64L` bits of `v` (R13; every rule's `v` fits). -/
def Engine.writeE (m : Engine F) (r : EReg) (v : Nat) : Engine F :=
  { m with e := m.e.set r.val (BitVec.ofNat F.elemBits v) }

/-- `C[q] <- v`: the register's `128L` bits of `v` (R13; every rule's `v` fits). -/
def Engine.writeC (m : Engine F) (q : CReg) (v : Nat) : Engine F :=
  { m with c := m.c.set q.val (BitVec.ofNat F.wideBits v) }

/-- `V[r] <- v` (R13). -/
def Engine.writeV (m : Engine F) (r : VReg) (v : Nat) : Engine F :=
  match r with
  | .e r => m.writeE r v
  | .c q => m.writeC q v

/-- `RES <- v`, zero-extended to 64 bits (R13, R28). -/
def Engine.writeRes (m : Engine F) (v : Nat) : Engine F := { m with res := BitVec.ofNat 64 v }

/-! ## Faults -/

/-- Fault entry, `raise X(w)` (R236): STATUS.ERR and STATUS.ECODE are set, ECMD records the word,
and nothing else changes. There is no pc, vector, mode or saved state. -/
def Engine.raise (m : Engine F) (x : EngineFault) (w : Word) : Engine F :=
  { m with status := x.statusWord, ecmd := w }

/-- The return from a fault, CLRERR's effect (R221, R239): STATUS and ECMD become 0; nothing is
restored and nothing is executed again. -/
def Engine.clearFault (m : Engine F) : Engine F := { m with status := 0, ecmd := 0 }

/-! ## Commands -/

/-- The state with this engine; the pending inputs and the answers stay. -/
def State.withEngine (s : State) (m : Engine s.field) : State :=
  { s with engine := m }

/-- The latch test of R80 and R237: while STATUS.ERR = 1 a command is ignored and no state changes;
otherwise `body` says what it does to the engine. -/
def Engine.unlessLatched (m : Engine F) (body : Engine F → Engine F) : Engine F :=
  if m.err then m else body m

/-- Executes a command (R80): the latch test, then `body`, in one atomic step (R60). -/
def State.command (s : State) (body : Engine s.field → Engine s.field) :
    Host.Outcome State Fault Refusal :=
  .next (s.withEngine (s.engine.unlessLatched body))

/-- `raise` unless the test holds: the form of every check in the commands' rules. -/
def Engine.check (m : Engine F) (passes : Bool) (x : EngineFault) (i : Instr)
    (body : Engine F → Engine F) : Engine F :=
  if passes then body m else m.raise x (encode i)

/-! ## The port's bookkeeping -/

/-- The transaction at the head of the inputs is done: `rest` is still to come, and the answer is
recorded (R51, R60). -/
def State.answered (s : State) (rest : List (Input s.field)) (a : Answer) : State :=
  { s with inputs := rest, answers := a :: s.answers }

end Sys2Proof.Machine
end

