-- ==== Sys2Proof/Machine/Operands.lean ====
section
/-!
DEFINITION. The operand tests of the commands: register lengths, the range conditions
(60_exceptions.md R232), the canonical test (R233) and INV's zero test (R234). A command's operands
are registers and immediates only: there is no memory operand and no effective address
(48_system.md R224).
-/

namespace Sys2Proof.Machine

variable {F : FieldId}

/-- `len(r)`: length in limbs, `L` for an element register and `2L` for a wide one (R13, R23). -/
def lenOf (F : FieldId) : VReg → Nat
  | .e _ => F.limbs
  | .c _ => 2 * F.limbs

/-- `64·len(r)`: length in bits. -/
def bitsOf (F : FieldId) (r : VReg) : Nat := limbBits * lenOf F r

/-- A bit index inside a register: the range condition of GETBIT and FLIPBIT (R232). -/
def bitInRange (F : FieldId) (r : VReg) (k : BitVec 16) : Bool := decide (k.toNat < bitsOf F r)

/-- The range condition of GETBITS: `1 ≤ n ≤ 64` and `k + n ≤ 64·len(ra)` (R116, R232). -/
def fieldInRange (F : FieldId) (r : VReg) (k : BitVec 16) (n : BitVec 7) : Bool :=
  decide (1 ≤ n.toNat) && decide (n.toNat ≤ 64) && decide (k.toNat + n.toNat ≤ bitsOf F r)

/-- The range condition of SXOR: `k ≤ 64·(len(ra) − len(rb))` (R115, R232). -/
def shiftInRange (F : FieldId) (ra rb : VReg) (k : BitVec 16) : Bool :=
  decide (k.toNat ≤ limbBits * (lenOf F ra - lenOf F rb))

/-- `canonical(x) ⇔ x < 2^D` (R24). -/
def canonical (F : FieldId) (x : Nat) : Bool := decide (x < 2 ^ F.degree)

/-- The element register holds a canonical value: the test every field command makes of each
element-register source (R151, R233). -/
def Engine.canonicalE (m : Engine F) (r : EReg) : Bool := canonical F (m.readE r)

end Sys2Proof.Machine
end

