-- ==== Sys2Proof/Machine/Addition.lean ====
section
/-!
DEFINITION. The field addition command (42_addition.md). Subtraction is the same command and
negation a copy (R153): pseudo-instructions, in HostProcedures.lean.
-/

namespace Sys2Proof.Machine

/-- ADD rd, ra, rb (R152): E[rd] <- E[ra] XOR E[rb], both sources canonical. -/
def execAdd (rd ra rb : EReg) (s : State) : Host.Outcome State Fault Refusal :=
  s.command fun m =>
    m.check (m.canonicalE ra && m.canonicalE rb) .nonCanonical (.add rd ra rb) fun m =>
      m.writeE rd (xorVec (m.readE ra) (m.readE rb))

end Sys2Proof.Machine
end

