-- ==== Sys2Proof/Machine/Reduction.lean ====
section
/-!
DEFINITION. The reduction engine (43_reduction.md).
-/

namespace Sys2Proof.Machine

/-- One round of R160's loop: if bit `i` of `t` is set, clear it and XOR `R << (i − D)` into `t`. -/
def reduceRound (F : FieldId) (t i : Nat) : Nat :=
  if getBit t i = 1 then (t ^^^ 2 ^ i) ^^^ (F.r <<< (i - F.degree)) else t

/-- The bit positions of R160's loop in its order: from `128·L − 1` down to `D`. -/
def reducePositions (F : FieldId) : List Nat :=
  ((List.range (F.wideBits - F.degree)).map (· + F.degree)).reverse

/-- `reduce(c)` (R160): the remainder of a `2L`-limb value modulo f(x). -/
def reduce (F : FieldId) (c : Nat) : Nat := (reducePositions F).foldl (reduceRound F) c

/-- RED rd, ra (R161): every wide value is accepted; the source is not modified. -/
def execRed (rd : EReg) (ra : CReg) (s : State) : Host.Outcome State Fault Refusal :=
  s.command fun m => m.writeE rd (reduce s.field (m.readC ra))

end Sys2Proof.Machine
end

