-- ==== Sys2Proof/Machine/Inversion.lean ====
section
/-!
DEFINITION. The inversion engine (46_inversion.md): the polynomial extended Euclidean algorithm.
-/

namespace Sys2Proof.Machine

/-- The working values of INV (R200): locals of one command, not state (R34). `u` and `v` hold up to
`D + 1` bits, `g1` and `g2` stay below `2^D` (R202, D28); here they are integers without a width. -/
structure InvVars where
  u : Nat
  v : Nat
  g1 : Nat
  g2 : Nat
deriving DecidableEq, Repr

/-- `u ← a, v ← F, g1 ← 1, g2 ← 0` (R200). -/
def invStart (F : FieldId) (a : Nat) : InvVars := ⟨a, F.poly, 1, 0⟩

/-- One iteration of R200's loop: with `j = bit_length(u) − bit_length(v)`, a signed integer; if
`j < 0`, (u, v) and (g1, g2) are swapped and j becomes −j; then `u ⊕= v << j`, `g1 ⊕= g2 << j`. -/
def invRound (x : InvVars) : InvVars :=
  let j : Int := (bitLength x.u : Int) - (bitLength x.v : Int)
  let y : InvVars := if j < 0 then ⟨x.v, x.u, x.g2, x.g1⟩ else x
  { y with
    u := y.u ^^^ (y.v <<< j.natAbs)
    g1 := y.g1 ^^^ (y.g2 <<< j.natAbs) }

/-- "While u ≠ 1", for at most `n` iterations (R200). -/
def invWhile : Nat → InvVars → InvVars
  | 0, x => x
  | n + 1, x => if x.u = 1 then x else invWhile n (invRound x)

/-- The bound of R203: INV performs fewer than `2D + 1` iterations. -/
def invBound (F : FieldId) : Nat := 2 * F.degree + 1

/-- `inv(a)` for `0 < a < 2^D` (R200): the g1 with which the loop ends. DEDUCED (log 4): the loop has
ended with u = 1 within the bound of R203, which an obligation states. -/
def inv (F : FieldId) (a : Nat) : Nat := (invWhile (invBound F) (invStart F a)).g1

/-- INV rd, ra (R201): the canonical test first, then the zero test. -/
def execInv (rd ra : EReg) (s : State) : Host.Outcome State Fault Refusal :=
  s.command fun m =>
    m.check (m.canonicalE ra) .nonCanonical (.inv rd ra) fun m =>
      m.check (m.readE ra != 0) .divideByZero (.inv rd ra) fun m =>
        m.writeE rd (inv s.field (m.readE ra))

end Sys2Proof.Machine
end

