-- ==== Sys2Proof/Machine/Squaring.lean ====
section
/-!
DEFINITION. The bit-spreading squarer (45_squaring.md).
-/

namespace Sys2Proof.Machine

/-- `spread[0..15]`: bit 2i is set iff bit i of the index is set (R190, the table as written). -/
def spreadTable : List Nat :=
  [0x00, 0x01, 0x04, 0x05, 0x10, 0x11, 0x14, 0x15,
   0x40, 0x41, 0x44, 0x45, 0x50, 0x51, 0x54, 0x55]

/-- `spread[u]` for a 4-bit `u` (R190). -/
def spread (u : Nat) : Nat := spreadTable.getD u 0

/-- One round of R190's loop, for the chunk of `a` at bit offset `4·j`. -/
def sqrwRound (a c j : Nat) : Nat :=
  c ^^^ (spread (getBits a (window * j) window) <<< (2 * (window * j)))

/-- `sqrw(a)` (R190): the unreduced square, 16 chunks to a limb. -/
def sqrw (F : FieldId) (a : Nat) : Nat :=
  (List.range (F.elemBits / window)).foldl (sqrwRound a) 0

/-- One round of R193's loop: for a set bit i of `a`, flip bit 2i of `c`. -/
def sqrbRound (a c i : Nat) : Nat := if getBit a i = 1 then flipBit c (2 * i) else c

/-- The bitwise spreading of R193 (no table). -/
def sqrbSpread (F : FieldId) (a : Nat) : Nat :=
  (List.range F.elemBits).foldl (sqrbRound a) 0

/-- SQRW rd, ra (R191). -/
def execSqrw (rd : CReg) (ra : EReg) (s : State) : Host.Outcome State Fault Refusal :=
  s.command fun m =>
    m.check (m.canonicalE ra) .nonCanonical (.sqrw rd ra) fun m =>
      m.writeC rd (sqrw s.field (m.readE ra))

/-- SQR rd, ra (R192). -/
def execSqr (rd ra : EReg) (s : State) : Host.Outcome State Fault Refusal :=
  s.command fun m =>
    m.check (m.canonicalE ra) .nonCanonical (.sqr rd ra) fun m =>
      m.writeE rd (reduce s.field (sqrw s.field (m.readE ra)))

/-- SQRB rd, ra (R193): the fallback reduces too (D27). -/
def execSqrb (rd ra : EReg) (s : State) : Host.Outcome State Fault Refusal :=
  s.command fun m =>
    m.check (m.canonicalE ra) .nonCanonical (.sqrb rd ra) fun m =>
      m.writeE rd (reduce s.field (sqrbSpread s.field (m.readE ra)))

end Sys2Proof.Machine
end

