-- ==== Sys2Proof/Machine/Multiplication.lean ====
section
/-!
DEFINITION. The carryless multiplier and the named variants (44_multiplication.md). Each command runs
the procedure its own rule gives; that they agree (R178) is an obligation, not built in.
-/

namespace Sys2Proof.Machine

/-! ## The windowed left-to-right comb (R171) -/

/-- `Bu[u] = clmul(u, b)`, for a window value `u` (R171). -/
def combTable (b u : Nat) : Nat := clmul u b

/-- The inner loop of R171 for window `k`: over the limbs j of `a`, XOR `Bu[u]` into `c` at bit
offset `64·j`, `u` the 4-bit field of `a` at bit `64·j + 4·k`. -/
def combPass (F : FieldId) (a b k c : Nat) : Nat :=
  (List.range F.limbs).foldl
    (fun c j =>
      shiftedXor c (combTable b (getBits a (limbBits * j + window * k) window)) (limbBits * j))
    c

/-- One round of R171's outer loop: the pass for window `k`, then a left shift of the `2L`-limb
accumulator by 4 unless `k = 0`. -/
def combRound (F : FieldId) (a b c k : Nat) : Nat :=
  if k > 0 then leftShift (2 * F.limbs) (combPass F a b k c) window else combPass F a b k c

/-- `mulw(a, b)` (R171): windows `k` from 15 down to 0. -/
def mulw (F : FieldId) (a b : Nat) : Nat :=
  (List.range (limbBits / window)).reverse.foldl (combRound F a b) 0

/-! ## The variants -/

/-- MULSA's accumulator (R174): for each set bit i of `a`, from bit 0 up, `c ⊕= b·x^i`. -/
def shiftAndAdd (F : FieldId) (a b : Nat) : Nat :=
  (List.range F.elemBits).foldl (fun c i => if getBit a i = 1 then shiftedXor c b i else c) 0

/-- The inner loop shared by R175 and R176: over the limbs j of `a`, `c ⊕= b·x^(64j)` where bit `k`
of limb j is set. -/
def bitPass (F : FieldId) (a b k c : Nat) : Nat :=
  (List.range F.limbs).foldl
    (fun c j => if getBit a (limbBits * j + k) = 1 then shiftedXor c b (limbBits * j) else c) c

/-- One round of R175's loop on (B, c): the pass with the current copy `B` of b, then `B` shifted
left by one in `L + 1` limbs unless `k = 63`. -/
def rightCombRound (F : FieldId) (a : Nat) (st : Nat × Nat) (k : Nat) : Nat × Nat :=
  (if k ≠ limbBits - 1 then leftShift (F.limbs + 1) st.1 1 else st.1, bitPass F a st.1 k st.2)

/-- MULRL's accumulator, the right-to-left comb (R175): `k` from 0 up to 63. -/
def rightComb (F : FieldId) (a b : Nat) : Nat :=
  ((List.range limbBits).foldl (rightCombRound F a) (b, 0)).2

/-- One round of R176's loop: the pass for bit `k`, then a left shift of the `2L`-limb accumulator
by one unless `k = 0`. -/
def leftCombRound (F : FieldId) (a b c k : Nat) : Nat :=
  if k > 0 then leftShift (2 * F.limbs) (bitPass F a b k c) 1 else bitPass F a b k c

/-- MULLR's accumulator, the left-to-right comb (R176): `k` from 63 down to 0. -/
def leftComb (F : FieldId) (a b : Nat) : Nat :=
  (List.range limbBits).reverse.foldl (leftCombRound F a b) 0

/-- One round of R177's loop on (s, c): add `s` if bit i of `a` is set, then multiply `s` by x
modulo f. -/
def noReduceRound (F : FieldId) (a : Nat) (st : Nat × Nat) (i : Nat) : Nat × Nat :=
  let s := st.1 <<< 1
  (if getBit s F.degree = 1 then s ^^^ F.poly else s,
    if getBit a i = 1 then st.2 ^^^ st.1 else st.2)

/-- MULNR's product (R177): `i` from 0 up to `D − 1`, no separate reduction. -/
def noReduceMul (F : FieldId) (a b : Nat) : Nat :=
  ((List.range F.degree).foldl (noReduceRound F a) (b, 0)).2

/-- `fmul(a, b) = reduce(clmul(a, b))`, the contract of field multiplication (R170). -/
def fmul (F : FieldId) (a b : Nat) : Nat := reduce F (clmul a b)

/-! ## The commands -/

/-- MULW rd, ra, rb (R172): the unreduced product. -/
def execMulw (rd : CReg) (ra rb : EReg) (s : State) : Host.Outcome State Fault Refusal :=
  s.command fun m =>
    m.check (m.canonicalE ra && m.canonicalE rb) .nonCanonical (.mulw rd ra rb) fun m =>
      m.writeC rd (mulw s.field (m.readE ra) (m.readE rb))

/-- MUL rd, ra, rb (R173): "If a = b, delegate to squaring", the test on the values (D26). -/
def execMul (rd ra rb : EReg) (s : State) : Host.Outcome State Fault Refusal :=
  s.command fun m =>
    m.check (m.canonicalE ra && m.canonicalE rb) .nonCanonical (.mul rd ra rb) fun m =>
      m.writeE rd
        (if m.readE ra = m.readE rb then reduce s.field (sqrw s.field (m.readE ra))
         else reduce s.field (mulw s.field (m.readE ra) (m.readE rb)))

/-- MULSA rd, ra, rb (R174). -/
def execMulsa (rd ra rb : EReg) (s : State) : Host.Outcome State Fault Refusal :=
  s.command fun m =>
    m.check (m.canonicalE ra && m.canonicalE rb) .nonCanonical (.mulsa rd ra rb) fun m =>
      m.writeE rd (reduce s.field (shiftAndAdd s.field (m.readE ra) (m.readE rb)))

/-- MULRL rd, ra, rb (R175). -/
def execMulrl (rd ra rb : EReg) (s : State) : Host.Outcome State Fault Refusal :=
  s.command fun m =>
    m.check (m.canonicalE ra && m.canonicalE rb) .nonCanonical (.mulrl rd ra rb) fun m =>
      m.writeE rd (reduce s.field (rightComb s.field (m.readE ra) (m.readE rb)))

/-- MULLR rd, ra, rb (R176). -/
def execMullr (rd ra rb : EReg) (s : State) : Host.Outcome State Fault Refusal :=
  s.command fun m =>
    m.check (m.canonicalE ra && m.canonicalE rb) .nonCanonical (.mullr rd ra rb) fun m =>
      m.writeE rd (reduce s.field (leftComb s.field (m.readE ra) (m.readE rb)))

/-- MULNR rd, ra, rb (R177). -/
def execMulnr (rd ra rb : EReg) (s : State) : Host.Outcome State Fault Refusal :=
  s.command fun m =>
    m.check (m.canonicalE ra && m.canonicalE rb) .nonCanonical (.mulnr rd ra rb) fun m =>
      m.writeE rd (noReduceMul s.field (m.readE ra) (m.readE rb))

end Sys2Proof.Machine
end

