-- ==== Sys2Proof/Machine/Primitives.lean ====
section
/-!
DEFINITION. The nine limb-vector primitive commands (40_limbvec_primitives.md R110 to R119). They
treat every register as a raw limb vector: no canonical check (R119). All sources are read before
the destination is written (R119, R265): each meaning reads from `m`, the engine before the command.
-/

namespace Sys2Proof.Machine

/-- GETBIT ra, #k (R110). -/
def execGetbit (ra : VReg) (k : BitVec 16) (s : State) : Host.Outcome State Fault Refusal :=
  s.command fun m =>
    m.check (bitInRange s.field ra k) .operandRange (.getbit ra k) fun m =>
      m.writeRes (getBit (m.readV ra) k.toNat)

/-- FLIPBIT rd, #k (R111). -/
def execFlipbit (rd : VReg) (k : BitVec 16) (s : State) : Host.Outcome State Fault Refusal :=
  s.command fun m =>
    m.check (bitInRange s.field rd k) .operandRange (.flipbit rd k) fun m =>
      m.writeV rd (flipBit (m.readV rd) k.toNat)

/-- BITLEN ra (R112). -/
def execBitlen (ra : VReg) (s : State) : Host.Outcome State Fault Refusal :=
  s.command fun m => m.writeRes (bitLength (m.readV ra))

/-- LSH rd, #k (R113): every k is accepted. -/
def execLsh (rd : VReg) (k : BitVec 16) (s : State) : Host.Outcome State Fault Refusal :=
  s.command fun m => m.writeV rd (leftShift (lenOf s.field rd) (m.readV rd) k.toNat)

/-- XOR rd, ra, rb (R114). Unequal lengths are no command: IllegalCommand (R87, R231). -/
def execXor (rd ra rb : VReg) (s : State) : Host.Outcome State Fault Refusal :=
  s.command fun m =>
    m.check (Instr.xor rd ra rb).wellFormed .illegalCommand (.xor rd ra rb) fun m =>
      m.writeV rd (xorVec (m.readV ra) (m.readV rb))

/-- SXOR rd, ra, rb, #k (R115). Lengths outside R87 are no command: IllegalCommand, tested before
the range (R241). -/
def execSxor (rd ra rb : VReg) (k : BitVec 16) (s : State) : Host.Outcome State Fault Refusal :=
  s.command fun m =>
    m.check (Instr.sxor rd ra rb k).wellFormed .illegalCommand (.sxor rd ra rb k) fun m =>
      m.check (shiftInRange s.field ra rb k) .operandRange (.sxor rd ra rb k) fun m =>
        m.writeV rd (shiftedXor (m.readV ra) (m.readV rb) k.toNat)

/-- GETBITS ra, #k, #n (R116). -/
def execGetbits (ra : VReg) (k : BitVec 16) (n : BitVec 7) (s : State) :
    Host.Outcome State Fault Refusal :=
  s.command fun m =>
    m.check (fieldInRange s.field ra k n) .operandRange (.getbits ra k n) fun m =>
      m.writeRes (getBits (m.readV ra) k.toNat n.toNat)

/-- CHLEN rd, ra (R117): copy, zero-extend or truncate. -/
def execChlen (rd ra : VReg) (s : State) : Host.Outcome State Fault Refusal :=
  s.command fun m => m.writeV rd (changeLength (m.readV ra) (lenOf s.field rd))

/-- EQ ra, rb (R118): RES is 1 if the registers are bit-equal, else 0. Unequal lengths are no
command: IllegalCommand (R87, R231). -/
def execEq (ra rb : VReg) (s : State) : Host.Outcome State Fault Refusal :=
  s.command fun m =>
    m.check (Instr.eq ra rb).wellFormed .illegalCommand (.eq ra rb) fun m =>
      m.writeRes (if m.readV ra = m.readV rb then 1 else 0)

end Sys2Proof.Machine
end

