-- ==== Sys2Proof/Machine/System.lean ====
section
/-!
DEFINITION. The system commands NOP and CLRERR (48_system.md).
-/

namespace Sys2Proof.Machine

/-- NOP: nothing (R220). -/
def execNop (s : State) : Host.Outcome State Fault Refusal := s.command fun m => m

/-- CLRERR: STATUS and ECMD become 0 (R221). The only command executed while STATUS.ERR = 1 (R237),
so it does not pass the latch test. -/
def execClrerr (s : State) : Host.Outcome State Fault Refusal :=
  .next (s.withEngine s.engine.clearFault)

end Sys2Proof.Machine
end

