-- ==== Sys2Proof/Machine/Dispatch.lean ====
section
/-!
DEFINITION. One arm per command (30_encoding.md R83, in its order).
-/

namespace Sys2Proof.Machine

def exec (i : Instr) (s : State) : Host.Outcome State Fault Refusal :=
  match i with
  | .nop => Sys2Proof.Machine.execNop s
  | .clrerr => Sys2Proof.Machine.execClrerr s
  | .getbit ra k => Sys2Proof.Machine.execGetbit ra k s
  | .flipbit rd k => Sys2Proof.Machine.execFlipbit rd k s
  | .bitlen ra => Sys2Proof.Machine.execBitlen ra s
  | .lsh rd k => Sys2Proof.Machine.execLsh rd k s
  | .xor rd ra rb => Sys2Proof.Machine.execXor rd ra rb s
  | .sxor rd ra rb k => Sys2Proof.Machine.execSxor rd ra rb k s
  | .getbits ra k n => Sys2Proof.Machine.execGetbits ra k n s
  | .chlen rd ra => Sys2Proof.Machine.execChlen rd ra s
  | .eq ra rb => Sys2Proof.Machine.execEq ra rb s
  | .add rd ra rb => Sys2Proof.Machine.execAdd rd ra rb s
  | .red rd ra => Sys2Proof.Machine.execRed rd ra s
  | .mulw rd ra rb => Sys2Proof.Machine.execMulw rd ra rb s
  | .mul rd ra rb => Sys2Proof.Machine.execMul rd ra rb s
  | .mulsa rd ra rb => Sys2Proof.Machine.execMulsa rd ra rb s
  | .mulrl rd ra rb => Sys2Proof.Machine.execMulrl rd ra rb s
  | .mullr rd ra rb => Sys2Proof.Machine.execMullr rd ra rb s
  | .mulnr rd ra rb => Sys2Proof.Machine.execMulnr rd ra rb s
  | .sqrw rd ra => Sys2Proof.Machine.execSqrw rd ra s
  | .sqr rd ra => Sys2Proof.Machine.execSqr rd ra s
  | .sqrb rd ra => Sys2Proof.Machine.execSqrb rd ra s
  | .inv rd ra => Sys2Proof.Machine.execInv rd ra s

end Sys2Proof.Machine
end

