-- ==== Sys2Proof/Machine/Port.lean ====
section
/-!
DEFINITION. The register port: the address map and the two transactions (20_memory.md R50 to R63).
The only address space the engine has; it makes no access of its own (R50).
-/

namespace Sys2Proof.Machine

/-- What a permitted port address names (R56). -/
inductive PortReg where
  | cmd | status | res | ecmd | paramD | paramL | paramR0 | paramR1
  /-- limb `i` of E[r] -/
  | elemLimb (r : EReg) (i : Nat)
  /-- limb `i` of C[q] -/
  | wideLimb (q : CReg) (i : Nat)
deriving DecidableEq, Repr

/-- Base of the element windows, stride 16 (R56). -/
def elemBase : Nat := 0x100

/-- Base of the wide windows, stride 32 (R56). -/
def wideBase : Nat := 0x200

/-- The address of limb `i` of E[r]: `0x100 + 16·r + i` (R56). -/
def elemAddr (r : EReg) (i : Nat) : Addr := BitVec.ofNat 10 (elemBase + 16 * r.val + i)

/-- The address of limb `i` of C[q]: `0x200 + 32·q + i` (R56). -/
def wideAddr (q : CReg) (i : Nat) : Addr := BitVec.ofNat 10 (wideBase + 32 * q.val + i)

/-- The control block, 0x000..0x007 (R56). -/
def controlMap (n : Nat) : Option PortReg :=
  match n with
  | 0 => some .cmd
  | 1 => some .status
  | 2 => some .res
  | 3 => some .ecmd
  | 4 => some .paramD
  | 5 => some .paramL
  | 6 => some .paramR0
  | 7 => some .paramR1
  | _ => none

/-- The complete address map (R56); `none` is a reserved address, the unused limb slots `i ≥ L` and
`i ≥ 2L` among them (R55). -/
def portMap (F : FieldId) (a : Addr) : Option PortReg :=
  let n := a.toNat
  if n < elemBase then controlMap n
  else if h : (n - elemBase) / 16 < 8 then
    if (n - elemBase) % 16 < F.limbs then
      some (.elemLimb ⟨(n - elemBase) / 16, h⟩ ((n - elemBase) % 16))
    else none
  else if n < wideBase then none
  else if h : (n - wideBase) / 32 < 2 then
    if (n - wideBase) % 32 < 2 * F.limbs then
      some (.wideLimb ⟨(n - wideBase) / 32, h⟩ ((n - wideBase) % 32))
    else none
  else none

variable {F : FieldId}

/-- `HostRead(addr)` (R52): the answer; the state does not change. CMD cannot be read (R55). -/
def Engine.hostRead (m : Engine F) (a : Addr) : Answer :=
  match portMap F a with
  | some .status => .data m.status
  | some .res => .data m.res
  | some .ecmd => .data m.ecmd
  | some .paramD => .data (BitVec.ofNat 64 F.degree)
  | some .paramL => .data (BitVec.ofNat 64 F.limbs)
  | some .paramR0 => .data (BitVec.ofNat 64 (F.r % 2 ^ limbBits))
  | some .paramR1 => .data (BitVec.ofNat 64 (F.r >>> limbBits))
  | some (.elemLimb r i) => .data (BitVec.ofNat 64 (limb (m.readE r) i))
  | some (.wideLimb q i) => .data (BitVec.ofNat 64 (limb (m.readC q) i))
  | some .cmd => .error
  | none => .error

/-- `E[r] <- E[r] with limb i replaced by v` (R53); no masking. -/
def Engine.writeElemLimb (m : Engine F) (r : EReg) (i : Nat) (v : Word) : Engine F :=
  m.writeE r (setLimb (m.readE r) i v.toNat)

/-- `C[q] <- C[q] with limb i replaced by v` (R53). -/
def Engine.writeWideLimb (m : Engine F) (q : CReg) (i : Nat) (v : Word) : Engine F :=
  m.writeC q (setLimb (m.readC q) i v.toNat)

end Sys2Proof.Machine
end

