-- ==== Sys2Proof/Machine/Execute.lean ====
section
/-!
DEFINITION. What a write to CMD does, `Execute(w)` (30_encoding.md R80), and one whole transaction of
the port or reset event (20_memory.md R52, R53, R58, R60; 70_reset_and_hazards.md R260).
-/

namespace Sys2Proof.Machine

/-- `Execute(w)` (R80): a word that is a command is executed; any other word raises IllegalCommand
(R231), unless a fault is latched, when it is ignored (R237). -/
def executeWord (w : Word) (s : State) : Host.Outcome State Fault Refusal :=
  match decode w with
  | .ok i => exec i s
  | .error _ => s.command fun m => m.raise .illegalCommand w

/-- `HostWrite(addr, v)` (R53), `rest` being what the host issues next. A write of CMD answers `Ok`
whatever its command does (R58); reserved addresses and read-only registers answer `Error` and
change nothing (R54, R55). -/
def hostWrite (s : State) (a : Addr) (v : Word) (rest : List (Input s.field)) :
    Host.Outcome State Fault Refusal :=
  match portMap s.field a with
  | some .cmd => executeWord v (s.answered rest .ok)
  | some (.elemLimb r i) =>
    .next ((s.answered rest .ok).withEngine (s.engine.writeElemLimb r i v))
  | some (.wideLimb q i) =>
    .next ((s.answered rest .ok).withEngine (s.engine.writeWideLimb q i v))
  | some .status => .next (s.answered rest .error)
  | some .res => .next (s.answered rest .error)
  | some .ecmd => .next (s.answered rest .error)
  | some .paramD => .next (s.answered rest .error)
  | some .paramL => .next (s.answered rest .error)
  | some .paramR0 => .next (s.answered rest .error)
  | some .paramR1 => .next (s.answered rest .error)
  | none => .next (s.answered rest .error)

/-- The `Reset` event (R260): STATUS, RES and ECMD become 0, E and C take the drawn content. It is
no transaction of the port and has no answer. -/
def resetEvent (s : State) (draw : Contents s.field) (rest : List (Input s.field)) : State :=
  { s with engine := Engine.afterReset draw, inputs := rest }

/-- One input, taken whole before the next (R60): a transaction with its answer, or a reset. -/
def takeInput (s : State) (x : Input s.field) (rest : List (Input s.field)) :
    Host.Outcome State Fault Refusal :=
  match x with
  | .hostRead a => .next (s.answered rest (s.engine.hostRead a))
  | .hostWrite a v => hostWrite s a v rest
  | .reset draw => .next (resetEvent s draw rest)

end Sys2Proof.Machine
end

