-- ==== Sys2Proof/Machine/Step.lean ====
section
/-!
DEFINITION. One step of the machine: the next transaction or reset event of the host, taken whole.
-/

namespace Sys2Proof.Machine

/-- One step: the first pending input is taken (R60). The engine is a passive slave (R50): with no
input pending, nothing happens. -/
def step (s : State) : Host.Outcome State Fault Refusal :=
  match s.inputs with
  | [] => .next s
  | x :: rest => takeInput s x rest

/-- `s` with a write of the command word to CMD as the next transaction: where this machine's next
command comes from (R26, R58). A command is one 64-bit word (R81). -/
def State.withFetchWord (s : State) (nbits w : Nat) : State :=
  { s with inputs := .hostWrite 0 (BitVec.ofNat 64 (w % 2 ^ nbits)) :: s.inputs }

end Sys2Proof.Machine
end

