-- ==== Sys2Proof/Machine/HostProcedures.lean ====
section
/-!
DEFINITION. The host-side procedures the spec gives as rules: conversions (41_host_conversions.md),
pseudo-instructions (30_encoding.md R93) and the macros DIV, POW, SQRT (47_macros.md). None is
hardware (R4, R130): each is a pure function, or yields the transactions the host issues.
-/

namespace Sys2Proof.Machine

/-- Failures of host software: they never reach the engine and have no ECODE (R130, R235). -/
inductive HostFailure where
  /-- a hex string of the wrong length or with a character that is not hexadecimal; "Carries the
  expected length" (R135) -/
  | malformedInput (expectedLength : Nat)
  /-- exponentiation with a negative exponent (R211); it can arise because the model's host has signed
  integers: DESIGN CHOICE, log 17 -/
  | unsupportedExponent
  /-- an integer that is not below 2^D: `from_int` and `from_hex` are defined only below it (R139) -/
  | outOfRange
  /-- operands that the pseudo-instruction's own conditions exclude (R93, R210, R211) -/
  | badOperands
deriving DecidableEq, Repr

variable {F : FieldId}

/-! ## Conversions -/

/-- `from_int(n)`: the `L` limbs of an integer below 2^D, least significant first (R131, R139). -/
def fromInt (F : FieldId) (n : Nat) : Except HostFailure (List Nat) :=
  if n < 2 ^ F.degree then .ok (toLimbs F.limbs n) else .error .outOfRange

/-- `to_int(a)`: "re-assemble limbs in little-endian order" (R132). -/
def toInt (ls : List Word) : Nat := ofLimbs (ls.map BitVec.toNat)

/-- The value of one hexadecimal digit, upper or lower case (R133). -/
def hexDigit (ch : Char) : Option Nat :=
  if '0' ≤ ch ∧ ch ≤ '9' then some (ch.toNat - '0'.toNat)
  else if 'a' ≤ ch ∧ ch ≤ 'f' then some (ch.toNat - 'a'.toNat + 10)
  else if 'A' ≤ ch ∧ ch ≤ 'F' then some (ch.toNat - 'A'.toNat + 10)
  else none

/-- Whitespace, stripped before a hex string is parsed (R133). -/
def isSpace (ch : Char) : Bool := ch = ' ' || ch = '\t' || ch = '\n' || ch = '\r'

/-- A big-endian hexadecimal numeral, `acc` being the value of the digits already read (R133). -/
def parseHex : List Char → Nat → Option Nat
  | [], acc => some acc
  | ch :: rest, acc =>
    match hexDigit ch with
    | some d => parseHex rest (16 * acc + d)
    | none => none

/-- `from_hex(s)` (R133, R135): whitespace removed, the exact length `2·⌈D/8⌉` required, then the
big-endian numeral. The value must be below 2^D (R139). -/
def fromHex (F : FieldId) (s : List Char) : Except HostFailure Nat :=
  let t := s.filter fun ch => !isSpace ch
  if t.length = F.hexLen then
    match parseHex t 0 with
    | some n => if n < 2 ^ F.degree then .ok n else .error .outOfRange
    | none => .error (.malformedInput F.hexLen)
  else .error (.malformedInput F.hexLen)

/-- A value 0..15 as a lower-case hexadecimal character (R134). -/
def hexChar (d : Nat) : Char :=
  ['0', '1', '2', '3', '4', '5', '6', '7', '8', '9', 'a', 'b', 'c', 'd', 'e', 'f'].getD d '0'

/-- `n` hexadecimal characters of `v`, most significant first (R134). -/
def hexChars : Nat → Nat → List Char
  | 0, _ => []
  | n + 1, v => hexChars n (v / 16) ++ [hexChar (v % 16)]

/-- `to_hex(a)`: big-endian lower case, zero-padded on the left to `2·⌈D/8⌉` characters (R134). DESIGN
CHOICE (log 18): of a value that does not fit, which R134 leaves open, the low `2·⌈D/8⌉` digits are
written; a canonical value always fits. -/
def toHex (F : FieldId) (a : Nat) : List Char := hexChars F.hexLen a

/-- The constant constructor zero (R136). -/
def hostZero : Nat := 0

/-- The constant constructor one: the polynomial 1 (R136). -/
def hostOne : Nat := 1

/-- The masking rule of `random` (R138) on the `L` limbs the host drew: bits at positions `≥ D` of
the top limb are zeroed. The draw itself is the host's entropy source. -/
def randomElement (F : FieldId) (draw : List Nat) : List Nat :=
  draw.take (F.limbs - 1)
    ++ [draw.getD (F.limbs - 1) 0 % 2 ^ (F.degree % limbBits)]

/-! ## Transactions -/

/-- `WR 0x000, w` for each command of a program, in order (R92: a command line stands for its CMD
write). -/
def commandWrites (F : FieldId) (is : List Instr) : List (Input F) :=
  is.map fun i => .hostWrite 0 (encode i)

/-- The address of limb `i` of a vector register (R131). -/
def limbAddr : VReg → Nat → Addr
  | .e r, i => elemAddr r i
  | .c q, i => wideAddr q i

/-- `LOAD reg, n`: the limb writes, `i` from 0 up (R131). -/
def loadReg (F : FieldId) (r : VReg) (n : Nat) : List (Input F) :=
  (List.range (lenOf F r)).map fun i => .hostWrite (limbAddr r i) (BitVec.ofNat 64 (limb n i))

/-- `STORE reg`: the limb reads, `i` from 0 up (R132). -/
def storeReg (F : FieldId) (r : VReg) : List (Input F) :=
  (List.range (lenOf F r)).map fun i => .hostRead (limbAddr r i)

/-- The word of an `Ok(v)` answer. -/
def Answer.word : Answer → Option Word
  | .data v => some v
  | .ok => none
  | .error => none

/-- The integer a `STORE` delivers, from its answers in the order given (R132). -/
def storedInt (as : List Answer) : Option Nat := (as.mapM Answer.word).map toInt

/-! ## Pseudo-instructions and macros -/

/-- The pseudo-instructions of R93. DESIGN CHOICE (log 17): POW's exponent is a signed integer; whether
the host's integers are signed is a parameter of the host model (93_implementation_defined.md U12,
R211 "if integers are signed"). -/
inductive Pseudo where
  | mov (rd ra : VReg)
  | ext (cd : CReg) (ea : EReg)
  | trunc (ed : EReg) (ca : CReg)
  | zero (rd : VReg)
  | one (rd : VReg)
  | sub (rd ra rb : EReg)
  | neg (rd ra : EReg)
  | tstz (ra : VReg)
  | div (rd ra rb rt : EReg)
  | sqrt (rd ra : EReg)
  | pow (rd ra : EReg) (n : Int) (rs : EReg)
deriving DecidableEq, Repr

/-- `XOR rd, rd, rd`: rd becomes 0 whatever it held (R93). -/
def zeroMacro (rd : VReg) : List Instr := [.xor rd rd rd]

/-- `ZERO rd`, then bit 0 set (R93). -/
def oneMacro (rd : VReg) : List Instr := zeroMacro rd ++ [.flipbit rd 0]

/-- `INV rt, rb` ; `MUL rd, ra, rt` (R210). -/
def divMacro (rd ra rb rt : EReg) : List Instr := [.inv rt rb, .mul rd ra rt]

/-- `CHLEN rd, ra`, then `D − 1` times `SQR rd, rd` (R212). -/
def sqrtMacro (F : FieldId) (rd ra : EReg) : List Instr :=
  .chlen (.e rd) (.e ra) :: List.replicate (F.degree - 1) (.sqr rd rd)

/-- The loop of R211 for an exponent of `bits` bits: if the low bit of `n` is set, c ← c·s; then
s ← s·s and n ← n div 2, while n > 0. -/
def powLoop (rd rs : EReg) : Nat → Nat → List Instr
  | 0, _ => []
  | bits + 1, n =>
    (if n % 2 = 1 then [.mul rd rd rs] else []) ++ [.mul rs rs rs] ++ powLoop rd rs bits (n / 2)

/-- The commands of `POW rd, ra, n, rs` (R211). -/
def powMacro (rd ra : EReg) (n : Nat) (rs : EReg) : List Instr :=
  oneMacro (.e rd) ++ [.chlen (.e rs) (.e ra)] ++ powLoop rd rs (bitLength n) n

/-- The expansion of a pseudo-instruction (R93), or the failure of the host that issues it: MOV needs
one class, DIV `rt ≠ ra`, POW `n ≥ 0`, `rd ≠ rs` and `rd ≠ ra`. A negative exponent fails, since the
model's host has signed integers (DESIGN CHOICE, log 17). -/
def Pseudo.expand (F : FieldId) : Pseudo → Except HostFailure (List Instr)
  | .mov rd ra =>
    if rd.units = ra.units then .ok [.chlen rd ra] else .error .badOperands
  | .ext cd ea => .ok [.chlen (.c cd) (.e ea)]
  | .trunc ed ca => .ok [.chlen (.e ed) (.c ca)]
  | .zero rd => .ok (zeroMacro rd)
  | .one rd => .ok (oneMacro rd)
  | .sub rd ra rb => .ok [.add rd ra rb]
  | .neg rd ra => .ok [.chlen (.e rd) (.e ra)]
  | .tstz ra => .ok [.bitlen ra]
  | .div rd ra rb rt => if rt = ra then .error .badOperands else .ok (divMacro rd ra rb rt)
  | .sqrt rd ra => .ok (sqrtMacro F rd ra)
  | .pow rd ra n rs =>
    if n < 0 then .error .unsupportedExponent
    else if rd = rs ∨ rd = ra then .error .badOperands
    else .ok (powMacro rd ra n.toNat rs)

end Sys2Proof.Machine
end

