-- ==== Sys2Proof/Machine/Assembler.lean ====
section
/-!
DEFINITION. The assembler syntax of commands, pseudo-instructions and transactions in program
listings (30_encoding.md R92, R93; 00_scope.md R14): printing a command, and reading one line into
the transactions it stands for. Text only; no machine behaviour depends on it.
-/

namespace Sys2Proof.Machine

/-- The mnemonic of a command (R83). -/
def mnemonicOf : Instr → String
  | .nop => "NOP"
  | .clrerr => "CLRERR"
  | .getbit _ _ => "GETBIT"
  | .flipbit _ _ => "FLIPBIT"
  | .bitlen _ => "BITLEN"
  | .lsh _ _ => "LSH"
  | .xor _ _ _ => "XOR"
  | .sxor _ _ _ _ => "SXOR"
  | .getbits _ _ _ => "GETBITS"
  | .chlen _ _ => "CHLEN"
  | .eq _ _ => "EQ"
  | .add _ _ _ => "ADD"
  | .red _ _ => "RED"
  | .mulw _ _ _ => "MULW"
  | .mul _ _ _ => "MUL"
  | .mulsa _ _ _ => "MULSA"
  | .mulrl _ _ _ => "MULRL"
  | .mullr _ _ _ => "MULLR"
  | .mulnr _ _ _ => "MULNR"
  | .sqrw _ _ => "SQRW"
  | .sqr _ _ => "SQR"
  | .sqrb _ _ => "SQRB"
  | .inv _ _ => "INV"

/-- An operand as written: a register, an immediate `#n`, or a bare number (R92). -/
inductive Operand where
  | reg (r : VReg)
  | imm (n : Nat)
  | num (n : Int)
deriving DecidableEq, Repr

/-- The operands of a command in the order of R83's "operands" column. -/
def operandsOf : Instr → List Operand
  | .nop => []
  | .clrerr => []
  | .getbit ra k => [.reg ra, .imm k.toNat]
  | .flipbit rd k => [.reg rd, .imm k.toNat]
  | .bitlen ra => [.reg ra]
  | .lsh rd k => [.reg rd, .imm k.toNat]
  | .xor rd ra rb => [.reg rd, .reg ra, .reg rb]
  | .sxor rd ra rb k => [.reg rd, .reg ra, .reg rb, .imm k.toNat]
  | .getbits ra k n => [.reg ra, .imm k.toNat, .imm n.toNat]
  | .chlen rd ra => [.reg rd, .reg ra]
  | .eq ra rb => [.reg ra, .reg rb]
  | .add rd ra rb => [.reg (.e rd), .reg (.e ra), .reg (.e rb)]
  | .red rd ra => [.reg (.e rd), .reg (.c ra)]
  | .mulw rd ra rb => [.reg (.c rd), .reg (.e ra), .reg (.e rb)]
  | .mul rd ra rb => [.reg (.e rd), .reg (.e ra), .reg (.e rb)]
  | .mulsa rd ra rb => [.reg (.e rd), .reg (.e ra), .reg (.e rb)]
  | .mulrl rd ra rb => [.reg (.e rd), .reg (.e ra), .reg (.e rb)]
  | .mullr rd ra rb => [.reg (.e rd), .reg (.e ra), .reg (.e rb)]
  | .mulnr rd ra rb => [.reg (.e rd), .reg (.e ra), .reg (.e rb)]
  | .sqrw rd ra => [.reg (.c rd), .reg (.e ra)]
  | .sqr rd ra => [.reg (.e rd), .reg (.e ra)]
  | .sqrb rd ra => [.reg (.e rd), .reg (.e ra)]
  | .inv rd ra => [.reg (.e rd), .reg (.e ra)]

/-! ## Printing -/

/-- The decimal numeral of `n`, for `n` below `10^digits` (leading digits of zero left out). -/
def decChars : Nat → Nat → List Char
  | 0, _ => []
  | digits + 1, n => (if n < 10 then [] else decChars digits (n / 10)) ++ [hexChar (n % 10)]

/-- A register's name: E0..E7, C0, C1 (R92). -/
def regText : VReg → List Char
  | .e r => ['E', hexChar r.val]
  | .c q => ['C', hexChar q.val]

/-- An operand of a command as text (R92). -/
def operandText : Operand → List Char
  | .reg r => regText r
  | .imm n => '#' :: decChars 5 n
  | .num n => decChars 5 n.toNat

/-- Operands separated by a comma and a blank (R92). -/
def operandsText : List Operand → List Char
  | [] => []
  | [x] => operandText x
  | x :: y :: rest => operandText x ++ [',', ' '] ++ operandsText (y :: rest)

/-- A command as a line of assembly (R92). -/
def asmText (i : Instr) : List Char :=
  match operandsOf i with
  | [] => (mnemonicOf i).toList
  | x :: xs => (mnemonicOf i).toList ++ [' '] ++ operandsText (x :: xs)

/-! ## Reading -/

/-- The pieces of a line between the separators. -/
def splitChars (sep : Char → Bool) (s : List Char) : List (List Char) :=
  s.foldr
    (fun ch acc =>
      if sep ch then [] :: acc
      else
        match acc with
        | [] => [[ch]]
        | x :: xs => (ch :: x) :: xs)
    [[]]

/-- A line without leading and trailing blanks. -/
def trimChars (s : List Char) : List Char :=
  ((s.dropWhile isSpace).reverse.dropWhile isSpace).reverse

/-- A decimal numeral. -/
def parseDec : List Char → Nat → Option Nat
  | [], acc => some acc
  | ch :: rest, acc =>
    if '0' ≤ ch ∧ ch ≤ '9' then parseDec rest (10 * acc + (ch.toNat - '0'.toNat)) else none

/-- A number: decimal, or hexadecimal after `0x` (R92). -/
def parseNat : List Char → Option Nat
  | [] => none
  | '0' :: 'x' :: [] => none
  | '0' :: 'x' :: ch :: rest => parseHex (ch :: rest) 0
  | ch :: rest => parseDec (ch :: rest) 0

/-- A register name (R92). -/
def parseReg : List Char → Option VReg
  | ['E', ch] =>
    match parseDec [ch] 0 with
    | some r => if h : r < 8 then some (.e ⟨r, h⟩) else none
    | none => none
  | ['C', ch] =>
    match parseDec [ch] 0 with
    | some q => if h : q < 2 then some (.c ⟨q, h⟩) else none
    | none => none
  | _ => none

/-- One operand (R92). -/
def parseOperand (s : List Char) : Option Operand :=
  match parseReg s with
  | some r => some (.reg r)
  | none =>
    match s with
    | '#' :: rest => (parseNat rest).map .imm
    | '-' :: rest => (parseNat rest).map fun n => .num (-(n : Int))
    | rest => (parseNat rest).map fun n => .num n

/-- A 16-bit immediate `k`, if the number fits the field (R81). -/
def immK (k : Nat) : Option (BitVec 16) := if k < 2 ^ 16 then some (BitVec.ofNat 16 k) else none

/-- A 7-bit immediate `n`, if the number fits the field (R81). -/
def immN (n : Nat) : Option (BitVec 7) := if n < 2 ^ 7 then some (BitVec.ofNat 7 n) else none

/-- The command term with this mnemonic and these operands (R83, R92). -/
def commandTerm (mnemonic : String) (ops : List Operand) : Option Instr :=
  match mnemonic, ops with
  | "NOP", [] => some .nop
  | "CLRERR", [] => some .clrerr
  | "GETBIT", [.reg ra, .imm k] => (immK k).map (.getbit ra)
  | "FLIPBIT", [.reg rd, .imm k] => (immK k).map (.flipbit rd)
  | "BITLEN", [.reg ra] => some (.bitlen ra)
  | "LSH", [.reg rd, .imm k] => (immK k).map (.lsh rd)
  | "XOR", [.reg rd, .reg ra, .reg rb] => some (.xor rd ra rb)
  | "SXOR", [.reg rd, .reg ra, .reg rb, .imm k] => (immK k).map (.sxor rd ra rb)
  | "GETBITS", [.reg ra, .imm k, .imm n] =>
    match immK k, immN n with
    | some k, some n => some (.getbits ra k n)
    | _, _ => none
  | "CHLEN", [.reg rd, .reg ra] => some (.chlen rd ra)
  | "EQ", [.reg ra, .reg rb] => some (.eq ra rb)
  | "ADD", [.reg (.e rd), .reg (.e ra), .reg (.e rb)] => some (.add rd ra rb)
  | "RED", [.reg (.e rd), .reg (.c ra)] => some (.red rd ra)
  | "MULW", [.reg (.c rd), .reg (.e ra), .reg (.e rb)] => some (.mulw rd ra rb)
  | "MUL", [.reg (.e rd), .reg (.e ra), .reg (.e rb)] => some (.mul rd ra rb)
  | "MULSA", [.reg (.e rd), .reg (.e ra), .reg (.e rb)] => some (.mulsa rd ra rb)
  | "MULRL", [.reg (.e rd), .reg (.e ra), .reg (.e rb)] => some (.mulrl rd ra rb)
  | "MULLR", [.reg (.e rd), .reg (.e ra), .reg (.e rb)] => some (.mullr rd ra rb)
  | "MULNR", [.reg (.e rd), .reg (.e ra), .reg (.e rb)] => some (.mulnr rd ra rb)
  | "SQRW", [.reg (.c rd), .reg (.e ra)] => some (.sqrw rd ra)
  | "SQR", [.reg (.e rd), .reg (.e ra)] => some (.sqr rd ra)
  | "SQRB", [.reg (.e rd), .reg (.e ra)] => some (.sqrb rd ra)
  | "INV", [.reg (.e rd), .reg (.e ra)] => some (.inv rd ra)
  | _, _ => none

/-- The command with this mnemonic and these operands; a term that breaks a length condition of R87
has no word and is not assembled. -/
def assemble (mnemonic : String) (ops : List Operand) : Option Instr :=
  match commandTerm mnemonic ops with
  | some i => if i.wellFormed then some i else none
  | none => none

/-- The pseudo-instruction with this mnemonic and these operands (R93). -/
def pseudoTerm (mnemonic : String) (ops : List Operand) : Option Pseudo :=
  match mnemonic, ops with
  | "MOV", [.reg rd, .reg ra] => some (.mov rd ra)
  | "EXT", [.reg (.c cd), .reg (.e ea)] => some (.ext cd ea)
  | "TRUNC", [.reg (.e ed), .reg (.c ca)] => some (.trunc ed ca)
  | "ZERO", [.reg rd] => some (.zero rd)
  | "ONE", [.reg rd] => some (.one rd)
  | "SUB", [.reg (.e rd), .reg (.e ra), .reg (.e rb)] => some (.sub rd ra rb)
  | "NEG", [.reg (.e rd), .reg (.e ra)] => some (.neg rd ra)
  | "TSTZ", [.reg ra] => some (.tstz ra)
  | "DIV", [.reg (.e rd), .reg (.e ra), .reg (.e rb), .reg (.e rt)] => some (.div rd ra rb rt)
  | "SQRT", [.reg (.e rd), .reg (.e ra)] => some (.sqrt rd ra)
  | "POW", [.reg (.e rd), .reg (.e ra), .num n, .reg (.e rs)] => some (.pow rd ra n rs)
  | _, _ => none

/-- One line of a program listing (R92). -/
inductive Line where
  /-- an empty line or a comment -/
  | blank
  | command (i : Instr)
  | pseudo (p : Pseudo)
  /-- `WR addr, value` -/
  | write (a : Addr) (v : Word)
  /-- `RD addr -> value` -/
  | read (a : Addr)
  /-- `LOAD reg, integer` -/
  | load (r : VReg) (n : Nat)
  /-- `STORE reg -> integer` -/
  | store (r : VReg)
deriving DecidableEq, Repr

/-- The line with this mnemonic and these operands (R92, R93). -/
def lineTerm (mnemonic : String) (ops : List Operand) : Option Line :=
  match mnemonic, ops with
  | "WR", [.num a, .num v] =>
    if 0 ≤ a ∧ a < 2 ^ 10 ∧ 0 ≤ v ∧ v < 2 ^ 64 then
      some (.write (BitVec.ofInt 10 a) (BitVec.ofInt 64 v))
    else none
  | "RD", [.num a] => if 0 ≤ a ∧ a < 2 ^ 10 then some (.read (BitVec.ofInt 10 a)) else none
  | "LOAD", [.reg r, .num n] => if 0 ≤ n then some (.load r n.toNat) else none
  | "STORE", [.reg r] => some (.store r)
  | mn, ops =>
    match assemble mn ops with
    | some i => some (.command i)
    | none => (pseudoTerm mn ops).map .pseudo

/-- What stands before the comment, which runs from `;` to the end of the line (R92). -/
def withoutComment (s : List Char) : List Char := s.takeWhile fun ch => ch != ';'

/-- What stands before `->`: the value a listing shows for a read is no operand (R92). DESIGN CHOICE
(log 15): whatever follows `->` is left unread, and `->` may be missing. -/
def withoutResult : List Char → List Char
  | '-' :: '>' :: _ => []
  | ch :: rest => ch :: withoutResult rest
  | [] => []

/-- The operand text of a line with this mnemonic: R92 writes `->` for RD and STORE, and on every other
line it is no operand and makes the line unreadable. -/
def operandPart (mnemonic : String) (s : List Char) : List Char :=
  if mnemonic = "RD" ∨ mnemonic = "STORE" then trimChars (withoutResult s) else trimChars s

/-- Reads one line of a listing (R92); `none` where it is no line of the syntax. -/
def parseLine (s : List Char) : Option Line :=
  let t := trimChars (withoutComment s)
  if t = [] then some .blank
  else
    let mn := String.ofList (t.takeWhile fun ch => !isSpace ch)
    let rest := operandPart mn (t.dropWhile fun ch => !isSpace ch)
    if rest = [] then lineTerm mn []
    else
      match ((splitChars (· = ',') rest).map trimChars).mapM parseOperand with
      | some ops => lineTerm mn ops
      | none => none

/-- The transactions a line stands for (R92, R93). -/
def Line.inputs (F : FieldId) : Line → Except HostFailure (List (Input F))
  | .blank => .ok []
  | .command i => .ok (commandWrites F [i])
  | .pseudo p => (p.expand F).map (commandWrites F)
  | .write a v => .ok [.hostWrite a v]
  | .read a => .ok [.hostRead a]
  | .load r n => .ok (loadReg F r n)
  | .store r => .ok (storeReg F r)

end Sys2Proof.Machine
end

