-- ==== Sys2Proof/Safety.lean ====
section
/-!
DEFINITION. The terms claims use: what a run that stays safe is, the invariant of the error latch, the
spec's fault table and write table, and the mathematics the field commands are measured against.
-/

namespace Sys2Proof.Machine

variable {F : FieldId}

/-! ## Runs -/

/-- `n` steps of the machine from `s` end in `t`: `Host.Core.run`. -/
def Runs (n : Nat) (s t : State) : Prop := Host.Core.run Sys2Proof.core n s = .next t

/-- No fault is latched: every command so far has executed (R238). A run is safe while this holds. -/
def State.quiet (s : State) : Prop := s.engine.err = false

/-- An input that can end a latched fault: the CLRERR word written to CMD, or a reset (R239). -/
def Input.clearsLatch : Input F → Bool
  | .hostRead _ => false
  | .hostWrite a v => a == 0 && v == clrerrWord
  | .reset _ => true

/-! ## The fault tables -/

/-- The range conditions of R232, by command. -/
def rangeBad (F : FieldId) : Instr → Bool
  | .getbit ra k => !bitInRange F ra k
  | .flipbit rd k => !bitInRange F rd k
  | .getbits ra k n => !fieldInRange F ra k n
  | .sxor _ ra rb k => !shiftInRange F ra rb k
  | .nop | .clrerr | .bitlen _ | .lsh _ _ | .xor _ _ _ | .chlen _ _ | .eq _ _ => false
  | .add _ _ _ | .red _ _ | .mulw _ _ _ | .mul _ _ _ | .mulsa _ _ _ | .mulrl _ _ _ => false
  | .mullr _ _ _ | .mulnr _ _ _ | .sqrw _ _ | .sqr _ _ | .sqrb _ _ | .inv _ _ => false

/-- The element-register sources of the field commands, ra first (R233). RED's source is wide and no
operand of a primitive is tested. -/
def canonicalSources : Instr → List EReg
  | .add _ ra rb | .mulw _ ra rb | .mul _ ra rb | .mulsa _ ra rb => [ra, rb]
  | .mulrl _ ra rb | .mullr _ ra rb | .mulnr _ ra rb => [ra, rb]
  | .sqrw _ ra => [ra]
  | .sqr _ ra | .sqrb _ ra | .inv _ ra => [ra]
  | .red _ _ | .nop | .clrerr | .getbit _ _ | .flipbit _ _ | .bitlen _ | .lsh _ _ => []
  | .xor _ _ _ | .sxor _ _ _ _ | .getbits _ _ _ | .chlen _ _ | .eq _ _ => []

/-- INV with a source that holds 0 (R234). -/
def zeroDivisor (m : Engine F) : Instr → Bool
  | .inv _ ra => m.readE ra == 0
  | .nop | .clrerr | .getbit _ _ | .flipbit _ _ | .bitlen _ | .lsh _ _ | .xor _ _ _ => false
  | .sxor _ _ _ _ | .getbits _ _ _ | .chlen _ _ | .eq _ _ | .add _ _ _ | .red _ _ => false
  | .mulw _ _ _ | .mul _ _ _ | .mulsa _ _ _ | .mulrl _ _ _ | .mullr _ _ _ => false
  | .mulnr _ _ _ | .sqrw _ _ | .sqr _ _ | .sqrb _ _ => false

/-- The fault of a command term by the priority of R241: not a command, then the range, then the
canonical test, then zero. -/
def commandFault (m : Engine F) (i : Instr) : Option EngineFault :=
  if !i.wellFormed then some .illegalCommand
  else if rangeBad F i then some .operandRange
  else if (canonicalSources i).any fun r => !m.canonicalE r then some .nonCanonical
  else if zeroDivisor m i then some .divideByZero
  else none

/-! ## The write table -/

/-- What a command writes when it completes (R25). -/
inductive Destination where
  /-- NOP: nothing -/
  | nothing
  /-- CLRERR: STATUS and ECMD -/
  | latch
  /-- RES -/
  | res
  /-- one vector register -/
  | vec (r : VReg)
deriving DecidableEq, Repr

/-- The "writes" column of R25. -/
def destination : Instr → Destination
  | .nop => .nothing
  | .clrerr => .latch
  | .getbit _ _ | .bitlen _ | .getbits _ _ _ | .eq _ _ => .res
  | .flipbit rd _ | .lsh rd _ | .xor rd _ _ | .sxor rd _ _ _ | .chlen rd _ => .vec rd
  | .add rd _ _ | .red rd _ | .mul rd _ _ | .mulsa rd _ _ | .mulrl rd _ _ => .vec (.e rd)
  | .mullr rd _ _ | .mulnr rd _ _ | .sqr rd _ | .sqrb rd _ | .inv rd _ => .vec (.e rd)
  | .mulw rd _ _ | .sqrw rd _ => .vec (.c rd)

/-- The "reads" column of R25: the vector registers a command's result depends on. -/
def sources : Instr → List VReg
  | .nop | .clrerr => []
  | .getbit ra _ | .bitlen ra | .getbits ra _ _ | .chlen _ ra => [ra]
  | .flipbit rd _ | .lsh rd _ => [rd]
  | .xor _ ra rb | .sxor _ ra rb _ | .eq ra rb => [ra, rb]
  | .add _ ra rb | .mulw _ ra rb | .mul _ ra rb | .mulsa _ ra rb => [.e ra, .e rb]
  | .mulrl _ ra rb | .mullr _ ra rb | .mulnr _ ra rb => [.e ra, .e rb]
  | .red _ ra => [.c ra]
  | .sqrw _ ra => [.e ra]
  | .sqr _ ra | .sqrb _ ra | .inv _ ra => [.e ra]

/-- `m'` differs from `m` in the vector register `r` alone. -/
def OnlyVecChanges (r : VReg) (m m' : Engine F) : Prop :=
  (∀ r', r' ≠ r → m'.readV r' = m.readV r') ∧
    m'.status = m.status ∧ m'.res = m.res ∧ m'.ecmd = m.ecmd

/-- `m'` differs from `m` in RES alone. -/
def OnlyResChanges (m m' : Engine F) : Prop :=
  m'.e = m.e ∧ m'.c = m.c ∧ m'.status = m.status ∧ m'.ecmd = m.ecmd

/-- `m'` differs from `m` in STATUS and ECMD alone. -/
def OnlyLatchChanges (m m' : Engine F) : Prop :=
  m'.e = m.e ∧ m'.c = m.c ∧ m'.res = m.res

/-! ## The invariant of the error latch -/

/-- What STATUS and ECMD can hold (R27, R230 to R237): both 0; or one of the four fault words, and
ECMD a word that can raise that fault. -/
def LatchConsistent (F : FieldId) (status ecmd : Word) : Prop :=
  (status = 0 ∧ ecmd = 0) ∨
  (status = 0x11 ∧ legal ecmd = false) ∨
  (status = 0x21 ∧ ∃ i, decode ecmd = .ok i ∧ rangeBad F i = true) ∨
  (status = 0x31 ∧ ∃ i, decode ecmd = .ok i ∧ canonicalSources i ≠ []) ∨
  (status = 0x41 ∧ ∃ rd ra, decode ecmd = .ok (.inv rd ra))

/-- The invariant every step keeps: STATUS and ECMD are consistent. -/
def State.Inv (s : State) : Prop := LatchConsistent s.field s.engine.status s.engine.ecmd

/-! ## Polynomials -/

/-- `t` is the remainder of the polynomial `c` modulo f(x): `t < 2^D` and `c` differs from `t` by a
multiple of f (R12: `polymod`). -/
def IsRemainder (F : FieldId) (c t : Nat) : Prop :=
  t < 2 ^ F.degree ∧ ∃ q, c = clmul q F.poly ^^^ t

/-- `a^n` in the field: `n`-fold field multiplication, `a^0 = 1` (R211). -/
def fpow (F : FieldId) (a : Nat) : Nat → Nat
  | 0 => 1
  | n + 1 => fmul F (fpow F a n) a

/-- `E[r]` holds a canonical value (R24). -/
def Engine.Canonical (m : Engine F) (r : EReg) : Prop := m.readE r < 2 ^ F.degree

end Sys2Proof.Machine
end

