-- ==== Sys2Proof/Certificates/Slice0/Obligations.lean ====
section
/-!
DEFINITION. The statements for the provers: what the numbered rules of spec/ say the engine does.

In every statement about a command the next state is `s.withEngine m`: the pending inputs, the answers
and `FIELD` are those of `s`, and `m` says what the engine holds. A statement over all states holds for
all nine values of `FIELD`.
-/

open Sys2Proof Sys2Proof.Machine

/-! ## The command word -/

/-- R81 to R87: every command survives encoding and decoding, with every operand at every value. -/
def Obligations.DecodeOfEncodeIsTheCommand : Prop :=
  ∀ i : Instr, i.wellFormed = true → decode (encode i) = .ok i

/-- R85: a word that decodes is the encoding of what it decodes to, so no bit of a command word is
dropped and there are no don't-care bits; and what it decodes to meets R87. -/
def Obligations.EncodeOfDecodeIsTheWord : Prop :=
  ∀ (w : Word) (i : Instr), decode w = .ok i → encode i = w ∧ i.wellFormed = true

/-- R89, R90: a word is decoded exactly if `Legal(w)` of R90 holds. -/
def Obligations.DecodeAcceptsExactlyLegalWords : Prop :=
  ∀ w : Word, (∃ i, decode w = .ok i) ↔ legal w = true

/-- R83: `w & mask = match` is necessary for w to be the command of that row. -/
def Obligations.MatchUnderMaskIsNecessary : Prop :=
  ∀ (w : Word) (i : Instr), decode w = .ok i →
    ∃ row ∈ opcodeRows, row.mnemonic = mnemonicOf i ∧ w &&& row.mask = row.matchBits

/-- R84: for the rows with no class-V operand the mask holds every condition, so `w & mask = match`
suffices as well. -/
def Obligations.MatchUnderMaskSufficesWithoutClassV : Prop :=
  ∀ row ∈ systemRows ++ fieldRows, ∀ w : Word, w &&& row.mask = row.matchBits →
    ∃ i, decode w = .ok i ∧ mnemonicOf i = row.mnemonic

/-- R94: worked encodings, one or more of each group, and words R94 lists as illegal. -/
def Obligations.WorkedEncodingsDecode : Prop :=
  decode 0x0100000000000000 = .ok .clrerr ∧
  decode 0x10080000000000A3 = .ok (.getbit (.c 0) 163) ∧
  decode 0x15881000000000A2 = .ok (.sxor (.c 0) (.c 0) (.e 1) 162) ∧
  decode 0x16000004000000A0 = .ok (.getbits (.e 0) 160 4) ∧
  decode 0x2148000000000000 = .ok (.red 4 0) ∧
  decode 0x2280100000000000 = .ok (.mulw 0 0 1) ∧
  decode 0x2B31000000000000 = .ok (.inv 3 1) ∧
  decode 0x0200000000000000 = .error .reservedOpcode ∧
  decode 0x1480100000000000 = .error .lengthMismatch ∧
  decode 0x14A0000000000000 = .error .badSpecifier ∧
  decode 0x2320100000000001 = .error .unusedField ∧
  decode 0x0000000000010000 = .error .reservedBits

/-! ## Executing a word -/

/-- R58, R80: a write of a command's word to CMD is that command's `exec`, on the state in which the
transaction is answered `Ok` and the host's next transaction is pending. That inputs and answers stand
in the state is the model's form (log 3, log 5). -/
def Obligations.StepRunsTheDecodedCommand : Prop :=
  ∀ (s : State) (w : Word) (rest : List (Input s.field)) (i : Instr),
    s.inputs = .hostWrite 0 w :: rest → decode w = .ok i →
    step s = exec i (s.answered rest .ok)

/-- R231, R236: a word that is not one of the 23 commands latches IllegalCommand: STATUS reads 0x11,
ECMD is the word, nothing else changes, and the write is answered `Ok`. -/
def Obligations.IllegalWordLatchesIllegalCommand : Prop :=
  ∀ (s : State) (w : Word) (rest : List (Input s.field)),
    s.inputs = .hostWrite 0 w :: rest → legal w = false → s.engine.err = false →
    step s = .next ((s.answered rest .ok).withEngine
      { s.engine with status := 0x11, ecmd := w })

/-- R241, R248: the tests of a command are made in the order illegal, range, canonical, zero; the
first that fails latches its code and the command's word, and nothing else changes. For a term whose
lengths break R87, `exec` latches the word the encoder gives it: the model's reading (log 12). -/
def Obligations.FirstFailingTestIsLatched : Prop :=
  ∀ (i : Instr) (s : State) (x : EngineFault),
    s.engine.err = false → commandFault s.engine i = some x →
    exec i s = .next (s.withEngine
      { s.engine with status := (x.ecode.setWidth 64 <<< 4) ||| 1, ecmd := encode i })

/-- R237: while STATUS.ERR = 1 every word but CLRERR's is ignored, an illegal one too: the write is
answered `Ok` and no register changes. Reads of every address and writes of limbs work as they do
with no fault latched: the port's statements do not ask for ERR = 0. -/
def Obligations.LatchedFaultIgnoresEveryOtherWord : Prop :=
  ∀ (s : State) (w : Word) (rest : List (Input s.field)),
    s.inputs = .hostWrite 0 w :: rest → s.engine.err = true → w ≠ clrerrWord →
    step s = .next (s.answered rest .ok)

/-- R25, R80, R248 (last row): with no fault latched and every test passed, a command completes and
writes exactly the one destination the table gives it. -/
def Obligations.CompletingCommandWritesOnlyItsDestination : Prop :=
  ∀ (i : Instr) (s : State), s.engine.err = false → commandFault s.engine i = none →
    ∃ m : Engine s.field, exec i s = .next (s.withEngine m) ∧
      match destination i with
      | .nothing => m = s.engine
      | .latch => OnlyLatchChanges s.engine m ∧ m.status = 0 ∧ m.ecmd = 0
      | .res => OnlyResChanges s.engine m
      | .vec r => OnlyVecChanges r s.engine m

/-- R25 (reads), R155(g), R266: with no fault latched, what a command writes, and whether it faults,
depends on the registers it reads alone; nothing an earlier command computed internally leaks. -/
def Obligations.CommandDependsOnItsSourcesAlone : Prop :=
  ∀ (i : Instr) (s : State) (m : Engine s.field),
    s.engine.err = false → m.err = false → (∀ r ∈ sources i, m.readV r = s.engine.readV r) →
    ∃ n n' : Engine s.field,
      exec i s = .next (s.withEngine n) ∧ exec i (s.withEngine m) = .next (s.withEngine n') ∧
      commandFault m i = commandFault s.engine i ∧
      (commandFault s.engine i = none →
        (destination i = .res → n'.res = n.res) ∧
        ∀ r, destination i = .vec r → n'.readV r = n.readV r)

/-- R220: NOP changes nothing, whether a fault is latched or not. -/
def Obligations.NopChangesNothing : Prop :=
  ∀ s : State, exec .nop s = .next s

/-- R221, R239: CLRERR sets STATUS and ECMD to 0, latched fault or not, and touches no other
register. -/
def Obligations.ClrerrClearsStatusAndEcmd : Prop :=
  ∀ s : State, exec .clrerr s = .next (s.withEngine { s.engine with status := 0, ecmd := 0 })

/-! ## The error latch over runs -/

/-- R27, R230 to R237: STATUS and ECMD stay consistent over every step: 0 and 0, or a fault word and
a command word that can raise that fault. -/
def Obligations.EveryStepKeepsLatchConsistent : Prop :=
  ∀ s t : State, s.Inv → step s = .next t → t.Inv

/-- R37, R260: right after reset the latch is consistent, for every `FIELD` and every content of E
and C, and for `State.reset`, whose `FIELD` and drawn content are the model's choice (log 1, log 2). -/
def Obligations.ResetStatesAreConsistent : Prop :=
  (∀ (F : FieldId) (draw : Contents F), (State.initial F draw).Inv) ∧ State.reset.Inv

/-- 93_implementation_defined.md: every transaction and every reset has exactly one outcome. Every
step of every state gives a next state; it takes one input and never changes `FIELD`. That a machine
with no input left stays as it is, is the model's choice (log 3). -/
def Obligations.EveryStepGivesANextState : Prop :=
  ∀ s : State, ∃ t : State, step s = .next t ∧ t.field = s.field ∧
    t.inputs.length = s.inputs.length - 1 ∧ t.answers.length ≤ s.answers.length + 1

/-- R237, R239: a latched fault stays, with its code and the first faulting word, and RES stays, over
any number of steps, until a CLRERR word is written to CMD or the block is reset. -/
def Obligations.LatchedFaultStaysUntilCleared : Prop :=
  ∀ (n : Nat) (s t : State), s.engine.err = true →
    (∀ x ∈ s.inputs.take n, x.clearsLatch = false) → Runs n s t →
    t.engine.status = s.engine.status ∧ t.engine.ecmd = s.engine.ecmd ∧
      t.engine.res = s.engine.res

/-- R238: a host that issues a whole program and reads STATUS once at the end: if no fault is latched
then, none was latched at any point, so every command was accepted; otherwise there is a first step
that latched a fault, after steps with none latched: its input writes a word w to CMD, it ends with
ERR = 1 and ECMD = w, ECMD is still w at the end, and RES is what the commands before it left. -/
def Obligations.StatusAtTheEndTellsTheWholeRun : Prop :=
  ∀ (n : Nat) (s t : State), s.engine.err = false →
    (∀ x ∈ s.inputs.take n, x.clearsLatch = false) → Runs n s t →
    (t.engine.err = false → ∀ k u, k ≤ n → Runs k s u → u.engine.err = false) ∧
    (t.engine.err = true → ∃ k u v w rest, k < n ∧
      (∀ j x, j ≤ k → Runs j s x → x.engine.err = false) ∧
      Runs k s u ∧ u.inputs = .hostWrite 0 w :: rest ∧
      Runs (k + 1) s v ∧ v.engine.err = true ∧ v.engine.ecmd = w ∧
      t.engine.ecmd = w ∧ t.engine.res = u.engine.res)

/-! ## The register port -/

/-- R52: what each readable address answers, and `Error` from every other; a read changes nothing. -/
def Obligations.HostReadFollowsTheMap : Prop :=
  ∀ (s : State) (a : Addr) (rest : List (Input s.field)), s.inputs = .hostRead a :: rest →
    ∃ ans, step s = .next (s.answered rest ans) ∧
      (a = 1 → ans = .data s.engine.status) ∧
      (a = 2 → ans = .data s.engine.res) ∧
      (a = 3 → ans = .data s.engine.ecmd) ∧
      (a = 4 → ans = .data (BitVec.ofNat 64 s.field.degree)) ∧
      (a = 5 → ans = .data (BitVec.ofNat 64 s.field.limbs)) ∧
      (a = 6 → ans = .data (BitVec.ofNat 64 s.field.r)) ∧
      (a = 7 → ans = .data (BitVec.ofNat 64 (s.field.r / 2 ^ 64))) ∧
      (∀ (r : EReg) (i : Nat), i < s.field.limbs → a.toNat = 0x100 + 16 * r.val + i →
        ans = .data (BitVec.ofNat 64 (s.engine.readE r / 2 ^ (64 * i)))) ∧
      (∀ (q : CReg) (i : Nat), i < 2 * s.field.limbs → a.toNat = 0x200 + 32 * q.val + i →
        ans = .data (BitVec.ofNat 64 (s.engine.readC q / 2 ^ (64 * i)))) ∧
      (¬ (1 ≤ a.toNat ∧ a.toNat ≤ 7) →
        (∀ (r : EReg) (i : Nat), i < s.field.limbs → a.toNat ≠ 0x100 + 16 * r.val + i) →
        (∀ (q : CReg) (i : Nat), i < 2 * s.field.limbs → a.toNat ≠ 0x200 + 32 * q.val + i) →
        ans = .error)

/-- R53: a write to an element window replaces that limb with the value as given, unmasked, and
changes nothing else; the answer is `Ok`, whether a fault is latched or not (R69). -/
def Obligations.HostWriteReplacesOneElementLimb : Prop :=
  ∀ (s : State) (a : Addr) (v : Word) (rest : List (Input s.field)) (r : EReg) (i : Nat),
    s.inputs = .hostWrite a v :: rest → i < s.field.limbs → a.toNat = 0x100 + 16 * r.val + i →
    ∃ m : Engine s.field, step s = .next ((s.answered rest .ok).withEngine m) ∧
      OnlyVecChanges (.e r) s.engine m ∧
      ∀ j, limb (m.readE r) j = if j = i then v.toNat else limb (s.engine.readE r) j

/-- R53: the same for a wide window. -/
def Obligations.HostWriteReplacesOneWideLimb : Prop :=
  ∀ (s : State) (a : Addr) (v : Word) (rest : List (Input s.field)) (q : CReg) (i : Nat),
    s.inputs = .hostWrite a v :: rest → i < 2 * s.field.limbs →
    a.toNat = 0x200 + 32 * q.val + i →
    ∃ m : Engine s.field, step s = .next ((s.answered rest .ok).withEngine m) ∧
      OnlyVecChanges (.c q) s.engine m ∧
      ∀ j, limb (m.readC q) j = if j = i then v.toNat else limb (s.engine.readC q) j

/-- R53, R54, R55: a write to an address that is neither CMD nor a limb of a register is refused with
`Error`: nothing else changes, no fault is latched (R243). -/
def Obligations.OtherWritesAreRefused : Prop :=
  ∀ (s : State) (a : Addr) (v : Word) (rest : List (Input s.field)),
    s.inputs = .hostWrite a v :: rest → a ≠ 0 →
    (∀ (r : EReg) (i : Nat), i < s.field.limbs → a.toNat ≠ 0x100 + 16 * r.val + i) →
    (∀ (q : CReg) (i : Nat), i < 2 * s.field.limbs → a.toNat ≠ 0x200 + 32 * q.val + i) →
    step s = .next (s.answered rest .error)

/-- R131: after `LOAD reg, n` with `n` below `2^(64·len)` the register holds `n`; every write is
answered `Ok` and no other register changes. The limbs are written from limb 0 up, an order R131
leaves open (log 10). -/
def Obligations.LoadFillsTheRegister : Prop :=
  ∀ (s : State) (r : VReg) (n : Nat) (rest : List (Input s.field)),
    s.inputs = loadReg s.field r n ++ rest → n < 2 ^ (64 * lenOf s.field r) →
    Runs (lenOf s.field r) s
      { s with
        engine := s.engine.writeV r n
        inputs := rest
        answers := List.replicate (lenOf s.field r) .ok ++ s.answers }

/-- R132: `STORE reg` delivers the register's value and changes no register. -/
def Obligations.StoreDeliversTheRegister : Prop :=
  ∀ (s : State) (r : VReg) (rest : List (Input s.field)),
    s.inputs = storeReg s.field r ++ rest →
    ∃ as : List Answer,
      Runs (lenOf s.field r) s { s with inputs := rest, answers := as ++ s.answers } ∧
      storedInt as.reverse = some (s.engine.readV r)

/-- R260: a reset sets STATUS, RES and ECMD to 0; E and C take whatever content the event draws; the
PARAM registers (`FIELD`) and the transactions still to come are unaffected. That a reset has no
answer is the model's choice (log 5). -/
def Obligations.ResetClearsControlState : Prop :=
  ∀ (s : State) (draw : Contents s.field) (rest : List (Input s.field)),
    s.inputs = .reset draw :: rest →
    step s = .next { s with
      engine := { e := draw.e, c := draw.c, status := 0, res := 0, ecmd := 0 }
      inputs := rest }

/-! ## The limb-vector primitives -/

/-- R110: GETBIT with `k` inside the register writes the bit to RES, zero-extended. -/
def Obligations.GetbitWritesTheBit : Prop :=
  ∀ (s : State) (ra : VReg) (k : BitVec 16),
    s.engine.err = false → k.toNat < 64 * lenOf s.field ra →
    exec (.getbit ra k) s = .next (s.withEngine
      { s.engine with res := if (s.engine.readV ra).testBit k.toNat then 1 else 0 })

/-- R111: FLIPBIT with `k` inside the register inverts bit `k` and nothing else. -/
def Obligations.FlipbitInvertsOneBit : Prop :=
  ∀ (s : State) (rd : VReg) (k : BitVec 16),
    s.engine.err = false → k.toNat < 64 * lenOf s.field rd →
    ∃ m : Engine s.field, exec (.flipbit rd k) s = .next (s.withEngine m) ∧
      OnlyVecChanges rd s.engine m ∧
      ∀ p, (m.readV rd).testBit p
        = ((s.engine.readV rd).testBit p ^^ decide (p = k.toNat))

/-- R103, R112: BITLEN writes 0 for a zero register, else the unique b with
`2^(b−1) ≤ V[ra] < 2^b`. -/
def Obligations.BitlenWritesTheBitLength : Prop :=
  ∀ (s : State) (ra : VReg), s.engine.err = false →
    ∃ b : Nat, exec (.bitlen ra) s
        = .next (s.withEngine { s.engine with res := BitVec.ofNat 64 b }) ∧
      b ≤ 64 * lenOf s.field ra ∧ s.engine.readV ra < 2 ^ b ∧
      (s.engine.readV ra = 0 → b = 0) ∧ (s.engine.readV ra ≠ 0 → 2 ^ (b - 1) ≤ s.engine.readV ra)

/-- R104, R113: LSH shifts left by any `k`; bits past the register's top are discarded, so `k` at or
above the length gives 0. -/
def Obligations.LshShiftsWithinTheRegister : Prop :=
  ∀ (s : State) (rd : VReg) (k : BitVec 16), s.engine.err = false →
    ∃ m : Engine s.field, exec (.lsh rd k) s = .next (s.withEngine m) ∧
      OnlyVecChanges rd s.engine m ∧
      (∀ p, (m.readV rd).testBit p
        = (decide (p < 64 * lenOf s.field rd) && decide (k.toNat ≤ p)
            && (s.engine.readV rd).testBit (p - k.toNat))) ∧
      (64 * lenOf s.field rd ≤ k.toNat → m.readV rd = 0)

/-- R114: XOR on registers of one length. With rd = ra = rb it writes 0 whatever the register held
(the ZERO idiom of R93, R262). -/
def Obligations.XorWritesTheXor : Prop :=
  ∀ (s : State) (rd ra rb : VReg), s.engine.err = false →
    lenOf s.field rd = lenOf s.field ra → lenOf s.field ra = lenOf s.field rb →
    ∃ m : Engine s.field, exec (.xor rd ra rb) s = .next (s.withEngine m) ∧
      OnlyVecChanges rd s.engine m ∧
      (∀ p, (m.readV rd).testBit p
        = ((s.engine.readV ra).testBit p ^^ (s.engine.readV rb).testBit p)) ∧
      (ra = rb → m.readV rd = 0)

/-- R106, R115: SXOR with `k` in its range writes `V[ra] ⊕ (V[rb] << k)`; no bit of V[rb] is lost. -/
def Obligations.SxorWritesTheShiftedXor : Prop :=
  ∀ (s : State) (rd ra rb : VReg) (k : BitVec 16), s.engine.err = false →
    lenOf s.field rd = lenOf s.field ra → lenOf s.field rb ≤ lenOf s.field ra →
    k.toNat ≤ 64 * (lenOf s.field ra - lenOf s.field rb) →
    ∃ m : Engine s.field, exec (.sxor rd ra rb k) s = .next (s.withEngine m) ∧
      OnlyVecChanges rd s.engine m ∧
      m.readV rd = s.engine.readV ra ^^^ (s.engine.readV rb * 2 ^ k.toNat)

/-- R107, R116: GETBITS with its field inside the register writes the field to RES, zero-extended. -/
def Obligations.GetbitsWritesTheField : Prop :=
  ∀ (s : State) (ra : VReg) (k : BitVec 16) (n : BitVec 7), s.engine.err = false →
    1 ≤ n.toNat → n.toNat ≤ 64 → k.toNat + n.toNat ≤ 64 * lenOf s.field ra →
    ∃ m : Engine s.field, exec (.getbits ra k n) s = .next (s.withEngine m) ∧
      OnlyResChanges s.engine m ∧
      m.res.toNat = s.engine.readV ra / 2 ^ k.toNat % 2 ^ n.toNat

/-- R108, R117: CHLEN copies the low limbs and zero-extends: `V[ra] mod 2^(64·len(rd))`, for every
pair of registers. -/
def Obligations.ChlenCopiesTheLowLimbs : Prop :=
  ∀ (s : State) (rd ra : VReg), s.engine.err = false →
    ∃ m : Engine s.field, exec (.chlen rd ra) s = .next (s.withEngine m) ∧
      OnlyVecChanges rd s.engine m ∧
      m.readV rd = s.engine.readV ra % 2 ^ (64 * lenOf s.field rd)

/-- R109, R118: EQ on registers of one length writes 1 if they are bit-equal, else 0. -/
def Obligations.EqWritesBitEquality : Prop :=
  ∀ (s : State) (ra rb : VReg), s.engine.err = false →
    lenOf s.field ra = lenOf s.field rb →
    ∃ m : Engine s.field, exec (.eq ra rb) s = .next (s.withEngine m) ∧
      OnlyResChanges s.engine m ∧
      ((∀ p, (s.engine.readV ra).testBit p = (s.engine.readV rb).testBit p) → m.res = 1) ∧
      (∀ p, (s.engine.readV ra).testBit p ≠ (s.engine.readV rb).testBit p → m.res = 0)

/-- R101 to R105: the limb-level procedures give the functions on values: get_bit, flip_bit,
bit_length by scanning from the top limb down, and limbwise XOR. -/
def Obligations.LimbLevelPrimitivesAgree : Prop :=
  ∀ (len v w i : Nat), v < 2 ^ (64 * len) → w < 2 ^ (64 * len) → i < 64 * len →
    getBitLimbs v i = getBit v i ∧
    flipBitLimbs v i = flipBit v i ∧
    bitLengthScan v len = bitLength v ∧
    xorLimbs len v w = xorVec v w

/-- R106: splitting each limb of b into a low and a high piece gives `a ⊕ (b << k)`, the high piece
skipped when `k` is a multiple of 64; the result fits the `la` limbs of a, so nothing is discarded. -/
def Obligations.ShiftedXorByLimbsAgrees : Prop :=
  ∀ (la lb a b k : Nat), a < 2 ^ (64 * la) → b < 2 ^ (64 * lb) → lb ≤ la →
    k ≤ 64 * (la - lb) →
    shiftedXorLimbs lb a b k = shiftedXor a b k ∧ shiftedXor a b k < 2 ^ (64 * la)

/-! ## The field commands -/

/-- R150, R152: ADD on canonical sources writes their XOR, which is canonical. -/
def Obligations.AddWritesTheCanonicalSum : Prop :=
  ∀ (s : State) (rd ra rb : EReg), s.engine.err = false →
    s.engine.Canonical ra → s.engine.Canonical rb →
    ∃ m : Engine s.field, exec (.add rd ra rb) s = .next (s.withEngine m) ∧
      OnlyVecChanges (.e rd) s.engine m ∧ m.Canonical rd ∧
      ∀ p, (m.readE rd).testBit p
        = ((s.engine.readE ra).testBit p ^^ (s.engine.readE rb).testBit p)

/-- R160, R161, R273: RED writes the remainder modulo f of any content of the wide register, which it
does not modify. -/
def Obligations.RedWritesTheRemainder : Prop :=
  ∀ (s : State) (rd : EReg) (ra : CReg), s.engine.err = false →
    ∃ m : Engine s.field, exec (.red rd ra) s = .next (s.withEngine m) ∧
      OnlyVecChanges (.e rd) s.engine m ∧
      IsRemainder s.field (s.engine.readC ra) (m.readE rd)

/-- R12, R160: the remainder modulo f is unique. -/
def Obligations.RemainderIsUnique : Prop :=
  ∀ (F : FieldId) (c t t' : Nat), IsRemainder F c t → IsRemainder F c t' → t = t'

/-- R171, R172: on canonical sources MULW writes the carryless product, below `2^(2D−1)`. -/
def Obligations.MulwWritesTheCarrylessProduct : Prop :=
  ∀ (s : State) (rd : CReg) (ra rb : EReg), s.engine.err = false →
    s.engine.Canonical ra → s.engine.Canonical rb →
    ∃ m : Engine s.field, exec (.mulw rd ra rb) s = .next (s.withEngine m) ∧
      OnlyVecChanges (.c rd) s.engine m ∧
      m.readC rd = clmul (s.engine.readE ra) (s.engine.readE rb) ∧
      m.readC rd < 2 ^ (2 * s.field.degree - 1)

/-- R171: the windowed comb is the carryless product for all operands of `L` limbs, canonical or
not. -/
def Obligations.WindowedCombIsTheCarrylessProduct : Prop :=
  ∀ (F : FieldId) (a b : Nat), a < 2 ^ (64 * F.limbs) → b < 2 ^ (64 * F.limbs) →
    mulw F a b = clmul a b

/-- R170, R173 to R178: on canonical sources MUL and its four variants all complete and write the same
value, the remainder of the carryless product modulo f; RED applied to the result of MULW gives it
too. -/
def Obligations.AllMultiplicationsWriteTheFieldProduct : Prop :=
  ∀ (s : State) (rd ra rb : EReg), s.engine.err = false →
    s.engine.Canonical ra → s.engine.Canonical rb →
    ∃ p : Nat, IsRemainder s.field (clmul (s.engine.readE ra) (s.engine.readE rb)) p ∧
      (∀ i ∈ [Instr.mul rd ra rb, .mulsa rd ra rb, .mulrl rd ra rb, .mullr rd ra rb,
          .mulnr rd ra rb],
        ∃ m : Engine s.field, exec i s = .next (s.withEngine m) ∧
          OnlyVecChanges (.e rd) s.engine m ∧ m.readE rd = p) ∧
      ∀ q : CReg, ∃ m n : Engine s.field,
        exec (.mulw q ra rb) s = .next (s.withEngine m) ∧
        exec (.red rd q) (s.withEngine m) = .next (s.withEngine n) ∧ n.readE rd = p

/-- R190, R191: on a canonical source SQRW writes the unreduced square: bit 2p is bit p of the source,
every odd bit is 0; it is the carryless product of the source with itself. -/
def Obligations.SqrwSpreadsTheBits : Prop :=
  ∀ (s : State) (rd : CReg) (ra : EReg), s.engine.err = false → s.engine.Canonical ra →
    ∃ m : Engine s.field, exec (.sqrw rd ra) s = .next (s.withEngine m) ∧
      OnlyVecChanges (.c rd) s.engine m ∧
      (∀ p, (m.readC rd).testBit (2 * p) = (s.engine.readE ra).testBit p) ∧
      (∀ p, (m.readC rd).testBit (2 * p + 1) = false) ∧
      m.readC rd = clmul (s.engine.readE ra) (s.engine.readE ra)

/-- R192, R193, R194: on a canonical source SQR and SQRB complete and write the field square: the
value MUL and its variants write when both sources hold that value. -/
def Obligations.SquaringsWriteTheFieldSquare : Prop :=
  ∀ (s : State) (rd ra rb : EReg), s.engine.err = false → s.engine.Canonical ra →
    s.engine.readE rb = s.engine.readE ra →
    ∃ p : Nat, IsRemainder s.field (clmul (s.engine.readE ra) (s.engine.readE ra)) p ∧
      ∀ i ∈ [Instr.sqr rd ra, .sqrb rd ra, .mul rd ra rb, .mulsa rd ra rb, .mulrl rd ra rb,
          .mullr rd ra rb, .mulnr rd ra rb],
        ∃ m : Engine s.field, exec i s = .next (s.withEngine m) ∧
          OnlyVecChanges (.e rd) s.engine m ∧ m.readE rd = p

/-- R200, R201: on a canonical non-zero source INV completes and writes the canonical b with
`a·b ≡ 1 (mod f)`. -/
def Obligations.InvWritesTheInverse : Prop :=
  ∀ (s : State) (rd ra : EReg), s.engine.err = false →
    s.engine.Canonical ra → s.engine.readE ra ≠ 0 →
    ∃ m : Engine s.field, exec (.inv rd ra) s = .next (s.withEngine m) ∧
      OnlyVecChanges (.e rd) s.engine m ∧ m.Canonical rd ∧
      IsRemainder s.field (clmul (s.engine.readE ra) (m.readE rd)) 1

/-- R203, R270: INV's loop has ended with u = 1 within fewer than `2D + 1` iterations, for every
canonical non-zero operand of every `FIELD`: the bound the model's loop runs with (log 4). -/
def Obligations.InversionLoopEnds : Prop :=
  ∀ (F : FieldId) (a : Nat), 0 < a → a < 2 ^ F.degree →
    (invWhile (2 * F.degree) (invStart F a)).u = 1

/-- R234: INV of zero latches DivideByZero: STATUS reads 0x41, ECMD is the word, and no register
changes, the destination among them. -/
def Obligations.InvOfZeroLatchesDivideByZero : Prop :=
  ∀ (s : State) (rd ra : EReg), s.engine.err = false → s.engine.readE ra = 0 →
    exec (.inv rd ra) s = .next (s.withEngine
      { s.engine with status := 0x41, ecmd := encode (.inv rd ra) })

/-- R151(a), R233: a field command with an element-register source at or above 2^D latches
NonCanonical: STATUS reads 0x31, ECMD is the word, and no register changes. -/
def Obligations.NonCanonicalSourceIsLatched : Prop :=
  ∀ (s : State) (i : Instr) (r : EReg), s.engine.err = false →
    r ∈ canonicalSources i → 2 ^ s.field.degree ≤ s.engine.readE r →
    exec i s = .next (s.withEngine { s.engine with status := 0x31, ecmd := encode i })

/-- R179: the multiplicative laws of the field product on canonical values. -/
def Obligations.FieldProductLaws : Prop :=
  ∀ (F : FieldId) (a b c : Nat), a < 2 ^ F.degree → b < 2 ^ F.degree → c < 2 ^ F.degree →
    fmul F a 1 = a ∧ fmul F a 0 = 0 ∧ fmul F a b = fmul F b a ∧
    fmul F (fmul F a b) c = fmul F a (fmul F b c) ∧
    fmul F a (b ^^^ c) = fmul F a b ^^^ fmul F a c

/-- R205: a · inv(a) = 1, inv(inv(a)) = a, and (b · a) / a = b. -/
def Obligations.InversionLaws : Prop :=
  ∀ (F : FieldId) (a b : Nat), 0 < a → a < 2 ^ F.degree → b < 2 ^ F.degree →
    fmul F a (inv F a) = 1 ∧ inv F (inv F a) = a ∧ fmul F (fmul F b a) (inv F a) = b

/-- R192, R211 (Frobenius fixpoint): D successive `SQR r, r` restore a canonical register. -/
def Obligations.FrobeniusRestoresTheRegister : Prop :=
  ∀ (s : State) (r : EReg) (rest : List (Input s.field)), s.engine.err = false →
    s.engine.Canonical r →
    s.inputs = commandWrites s.field (List.replicate s.field.degree (.sqr r r)) ++ rest →
    ∃ t, Runs s.field.degree s t ∧ t.engine.err = false ∧
      t.engine.readE r = s.engine.readE r

/-! ## The host's macros -/

/-- R210: DIV with a canonical non-zero divisor leaves the quotient: its product with the divisor is
the dividend. -/
def Obligations.DivMacroDivides : Prop :=
  ∀ (s : State) (rd ra rb rt : EReg) (rest : List (Input s.field)), s.engine.err = false →
    rt ≠ ra → s.engine.Canonical ra → s.engine.Canonical rb → s.engine.readE rb ≠ 0 →
    s.inputs = commandWrites s.field (divMacro rd ra rb rt) ++ rest →
    ∃ t, Runs 2 s t ∧ t.engine.err = false ∧ t.engine.readE rd < 2 ^ s.field.degree ∧
      fmul s.field (t.engine.readE rd) (s.engine.readE rb) = s.engine.readE ra

/-- R210: DIV by zero: the INV latches DivideByZero, the MUL is ignored, and no register changes; the
host finds STATUS = 0x41 and ECMD = the INV word. -/
def Obligations.DivMacroByZeroLatches : Prop :=
  ∀ (s : State) (rd ra rb rt : EReg) (rest : List (Input s.field)), s.engine.err = false →
    s.engine.readE rb = 0 →
    s.inputs = commandWrites s.field (divMacro rd ra rb rt) ++ rest →
    Runs 2 s
      { s with
        engine := { s.engine with status := 0x41, ecmd := encode (.inv rt rb) }
        inputs := rest
        answers := .ok :: .ok :: s.answers }

/-- R211: POW leaves the n-th power, `a^0 = 1` among them. -/
def Obligations.PowMacroRaisesToThePower : Prop :=
  ∀ (s : State) (rd ra rs : EReg) (n : Nat) (rest : List (Input s.field)),
    s.engine.err = false → rd ≠ rs → rd ≠ ra → s.engine.Canonical ra →
    s.inputs = commandWrites s.field (powMacro rd ra n rs) ++ rest →
    ∃ t, Runs (powMacro rd ra n rs).length s t ∧ t.engine.err = false ∧
      t.engine.readE rd = fpow s.field (s.engine.readE ra) n

/-- R212: SQRT leaves the square root: its field square is the operand. -/
def Obligations.SqrtMacroTakesTheRoot : Prop :=
  ∀ (s : State) (rd ra : EReg) (rest : List (Input s.field)), s.engine.err = false →
    s.engine.Canonical ra →
    s.inputs = commandWrites s.field (sqrtMacro s.field rd ra) ++ rest →
    ∃ t, Runs s.field.degree s t ∧ t.engine.err = false ∧
      t.engine.readE rd < 2 ^ s.field.degree ∧
      fmul s.field (t.engine.readE rd) (t.engine.readE rd) = s.engine.readE ra

/-! ## The host's conversions -/

/-- R137: `from_hex(to_hex(a)) = a` and `from_int(to_int(a)) = a` for a canonical a, and `to_hex` has
exactly `2·⌈D/8⌉` characters. -/
def Obligations.ConversionsRoundTrip : Prop :=
  (∀ (F : FieldId) (a : Nat), a < 2 ^ F.degree →
    fromHex F (toHex F a) = .ok a ∧ (toHex F a).length = F.hexLen) ∧
  (∀ (F : FieldId) (ls : List Word), ls.length = F.limbs → toInt ls < 2 ^ F.degree →
    fromInt F (toInt ls) = .ok (ls.map BitVec.toNat))

/-- R137, at the port: a `STORE` of E[r] and a `LOAD` of E[q] with the integer the STORE delivered make
E[q] = E[r], for every content of E[r], canonical or not. -/
def Obligations.StoreThenLoadCopiesTheRegister : Prop :=
  ∀ (s t : State) (r q : EReg) (n : Nat) (rest : List (Input s.field)),
    s.inputs = storeReg s.field (.e r) ++ loadReg s.field (.e q) n ++ rest →
    Runs (2 * s.field.limbs) s t →
    storedInt ((t.answers.drop s.field.limbs).take s.field.limbs).reverse = some n →
    t.engine.readV (.e q) = s.engine.readV (.e r)

/-- R133, R135: `from_hex` fails with MalformedInput, carrying the expected length, exactly if after
whitespace removal the length is wrong or a character is not hexadecimal. Which characters are
whitespace is the model's choice (log 11). -/
def Obligations.MalformedHexIsRejected : Prop :=
  ∀ (F : FieldId) (s : List Char),
    fromHex F s = .error (.malformedInput F.hexLen) ↔
      (s.filter fun ch => !isSpace ch).length ≠ F.hexLen ∨
        ∃ ch ∈ s, isSpace ch = false ∧ hexDigit ch = none
end

