-- ==== Sys2Proof/Laws/Decode.lean ====
section
/-!
SUPPORT. Fields and words: extraction and concatenation are inverse (30_encoding.md R81, R82).
-/

namespace Sys2Proof

/-- The fields of a word built from fields are those fields. -/
@[simp] theorem Fields.ofWord_toWord (f : Fields) : Fields.ofWord f.toWord = f := by
  cases f with
  | mk op rd ra rb z1 n z2 k =>
    simp only [Fields.ofWord, Fields.toWord, Fields.mk.injEq]
    refine ⟨?_, ?_, ?_, ?_, ?_, ?_, ?_, ?_⟩ <;>
      (apply BitVec.eq_of_getLsbD_eq
       intro i hi
       simp only [BitVec.getLsbD_extractLsb', BitVec.getLsbD_append]
       interval_cases i <;> simp)

/-- A word is determined by its fields: there are no other bits (R81). -/
@[simp] theorem Fields.toWord_ofWord (w : Word) : (Fields.ofWord w).toWord = w := by
  apply BitVec.eq_of_getLsbD_eq
  intro i hi
  simp only [Fields.ofWord, Fields.toWord, BitVec.getLsbD_extractLsb', BitVec.getLsbD_append]
  interval_cases i <;> simp

/-- The fields of a command's word are the command's fields. -/
@[simp] theorem ofWord_encode (i : Instr) : Fields.ofWord (encode i) = i.fields :=
  Fields.ofWord_toWord _

end Sys2Proof
end

