-- ==== Sys2Proof/Laws/LimbVec.lean ====
section
/-!
SUPPORT. The limb-vector functions bit by bit, and the carryless product's equations.
-/

namespace Sys2Proof.Machine

/-! ## Bits -/

/-- `get_bit` is the bit test (R101). -/
theorem getBit_eq_one_iff (v i : Nat) : getBit v i = 1 ↔ v.testBit i = true := by
  simp [getBit, Nat.testBit, Nat.and_comm, Nat.and_one_is_mod]

theorem getBit_lt (v i : Nat) : getBit v i < 2 := Nat.mod_lt _ (by norm_num)

/-- The bit as 0 or 1. -/
theorem getBit_eq (v i : Nat) : getBit v i = (v.testBit i).toNat := by
  have h := getBit_eq_one_iff v i
  have h2 := getBit_lt v i
  cases hb : v.testBit i with
  | true => simp [h.mpr hb]
  | false =>
    have : getBit v i ≠ 1 := fun e => by simp [h.mp e] at hb
    simp; omega

theorem testBit_flipBit (v i p : Nat) :
    (flipBit v i).testBit p = (v.testBit p ^^ decide (i = p)) := by
  simp [flipBit, Nat.testBit_xor, Nat.testBit_two_pow]

theorem testBit_leftShift (len v k p : Nat) :
    (leftShift len v k).testBit p
      = (decide (p < limbBits * len) && (decide (k ≤ p) && v.testBit (p - k))) := by
  simp [leftShift, Nat.testBit_mod_two_pow, Nat.testBit_shiftLeft]

theorem testBit_xorVec (a b p : Nat) :
    (xorVec a b).testBit p = (a.testBit p ^^ b.testBit p) := by simp [xorVec]

theorem testBit_shiftedXor (a b k p : Nat) :
    (shiftedXor a b k).testBit p = (a.testBit p ^^ (decide (k ≤ p) && b.testBit (p - k))) := by
  simp [shiftedXor, Nat.testBit_xor, Nat.testBit_shiftLeft]

theorem testBit_getBits (v i n p : Nat) :
    (getBits v i n).testBit p = (decide (p < n) && v.testBit (i + p)) := by
  simp [getBits, Nat.testBit_mod_two_pow, Nat.testBit_shiftRight]

theorem testBit_changeLength (v len p : Nat) :
    (changeLength v len).testBit p = (decide (p < limbBits * len) && v.testBit p) := by
  simp [changeLength, Nat.testBit_mod_two_pow]

theorem testBit_limb (x i p : Nat) :
    (limb x i).testBit p = (decide (p < limbBits) && x.testBit (limbBits * i + p)) := by
  simp [limb, Nat.testBit_mod_two_pow, Nat.testBit_shiftRight]

theorem limb_lt (x i : Nat) : limb x i < 2 ^ limbBits := Nat.mod_lt _ (by positivity)

/-! ## bit_length -/

/-- `bit_length` is Lean's `Nat.size` (R103). -/
theorem bitLength_eq_size (v : Nat) : bitLength v = Nat.size v := by
  unfold bitLength
  split
  · next h => simp [h]
  · next h =>
    have h1 : v < 2 ^ (Nat.log2 v + 1) := Nat.lt_log2_self
    have h2 : 2 ^ Nat.log2 v ≤ v := Nat.log2_self_le h
    have h3 := Nat.size_le.mpr h1
    have h4 := Nat.lt_size.mpr h2
    omega

@[simp] theorem bitLength_zero : bitLength 0 = 0 := rfl

/-- Below its bit length (R103). -/
theorem lt_two_pow_bitLength (v : Nat) : v < 2 ^ bitLength v := by
  rw [bitLength_eq_size]; exact Nat.lt_size_self v

/-- A bound on the value is a bound on the bit length (R103). -/
theorem bitLength_le_iff {v n : Nat} : bitLength v ≤ n ↔ v < 2 ^ n := by
  rw [bitLength_eq_size]; exact Nat.size_le

/-- The highest set bit (R103). -/
theorem two_pow_le_of_bitLength {v : Nat} (h : v ≠ 0) : 2 ^ (bitLength v - 1) ≤ v := by
  simp only [bitLength, if_neg h, Nat.add_sub_cancel]
  exact Nat.log2_self_le h

/-! ## The carryless product -/

@[simp] theorem clmulLow_zero (a b : Nat) : clmulLow a b 0 = 0 := rfl

theorem clmulLow_succ (a b n : Nat) :
    clmulLow a b (n + 1)
      = clmulLow a b n ^^^ (if a.testBit n then b <<< n else 0) := by
  by_cases h : a.testBit n = true
  · simp [clmulLow, (getBit_eq_one_iff a n).mpr h, h]
  · have h1 : getBit a n ≠ 1 := fun e => h ((getBit_eq_one_iff a n).mp e)
    simp [clmulLow, h1, h]

/-- Bits above the bit length add nothing: any long enough prefix gives the product (R12). -/
theorem clmulLow_eq_clmul {a n : Nat} (b : Nat) (h : a < 2 ^ n) : clmulLow a b n = clmul a b := by
  have key : ∀ k, clmulLow a b (bitLength a + k) = clmulLow a b (bitLength a) := by
    intro k
    induction k with
    | zero => rfl
    | succ k ih =>
      have hb : a.testBit (bitLength a + k) = false :=
        Nat.testBit_lt_two_pow ((lt_two_pow_bitLength a).trans_le
          (Nat.pow_le_pow_right (by norm_num) (Nat.le_add_right _ _)))
      rw [← Nat.add_assoc, clmulLow_succ, ih, hb]
      simp
  obtain ⟨k, rfl⟩ := Nat.exists_eq_add_of_le (bitLength_le_iff.mpr h)
  exact key k

/-- The product has no bit at or above the sum of the lengths (R155). -/
theorem clmulLow_lt {b m : Nat} (a n : Nat) (h : b < 2 ^ m) : clmulLow a b n < 2 ^ (n + m) := by
  induction n with
  | zero => simp
  | succ n ih =>
    rw [clmulLow_succ]
    apply Nat.xor_lt_two_pow
    · exact ih.trans (Nat.pow_lt_pow_right (by norm_num) (by omega))
    · split
      · rw [Nat.shiftLeft_eq]
        calc b * 2 ^ n < 2 ^ m * 2 ^ n := Nat.mul_lt_mul_of_pos_right h (by positivity)
          _ ≤ 2 ^ (n + 1 + m) := by
            rw [← pow_add]; exact Nat.pow_le_pow_right (by norm_num) (by omega)
      · positivity

theorem clmul_lt {a b n m : Nat} (ha : a < 2 ^ n) (hb : b < 2 ^ m) : clmul a b < 2 ^ (n + m) := by
  rw [← clmulLow_eq_clmul b ha]; exact clmulLow_lt a n hb

end Sys2Proof.Machine
end

