-- ==== Sys2Proof/Laws/State.lean ====
section
/-!
SUPPORT. One lemma per field per update of Engine and State, true by `rfl`, and reading a register
after writing one.
-/

namespace Sys2Proof.Machine

variable {F : FieldId}

/-! ## Engine.writeE -/

@[simp] theorem Engine.writeE_c (m : Engine F) (r : EReg) (v : Nat) : (m.writeE r v).c = m.c := rfl
@[simp] theorem Engine.writeE_status (m : Engine F) (r : EReg) (v : Nat) :
    (m.writeE r v).status = m.status := rfl
@[simp] theorem Engine.writeE_res (m : Engine F) (r : EReg) (v : Nat) :
    (m.writeE r v).res = m.res := rfl
@[simp] theorem Engine.writeE_ecmd (m : Engine F) (r : EReg) (v : Nat) :
    (m.writeE r v).ecmd = m.ecmd := rfl
@[simp] theorem Engine.writeE_err (m : Engine F) (r : EReg) (v : Nat) :
    (m.writeE r v).err = m.err := rfl
@[simp] theorem Engine.writeE_readC (m : Engine F) (r : EReg) (v : Nat) (q : CReg) :
    (m.writeE r v).readC q = m.readC q := rfl

/-- A register read back after a write holds the value's low bits. -/
@[simp] theorem Engine.writeE_readE_self (m : Engine F) (r : EReg) (v : Nat) :
    (m.writeE r v).readE r = v % 2 ^ F.elemBits := by
  simp [Engine.readE, Engine.writeE, Vector.get_eq_getElem]

/-- A write leaves every other element register as it was. -/
theorem Engine.writeE_readE_ne (m : Engine F) {r r' : EReg} (v : Nat) (h : r' ≠ r) :
    (m.writeE r v).readE r' = m.readE r' := by
  have hv : r.val ≠ r'.val := fun e => h (Fin.ext e.symm)
  simp [Engine.readE, Engine.writeE, Vector.get_eq_getElem, Vector.getElem_set_ne _ _ hv]

/-! ## Engine.writeC -/

@[simp] theorem Engine.writeC_e (m : Engine F) (q : CReg) (v : Nat) : (m.writeC q v).e = m.e := rfl
@[simp] theorem Engine.writeC_status (m : Engine F) (q : CReg) (v : Nat) :
    (m.writeC q v).status = m.status := rfl
@[simp] theorem Engine.writeC_res (m : Engine F) (q : CReg) (v : Nat) :
    (m.writeC q v).res = m.res := rfl
@[simp] theorem Engine.writeC_ecmd (m : Engine F) (q : CReg) (v : Nat) :
    (m.writeC q v).ecmd = m.ecmd := rfl
@[simp] theorem Engine.writeC_err (m : Engine F) (q : CReg) (v : Nat) :
    (m.writeC q v).err = m.err := rfl
@[simp] theorem Engine.writeC_readE (m : Engine F) (q : CReg) (v : Nat) (r : EReg) :
    (m.writeC q v).readE r = m.readE r := rfl

@[simp] theorem Engine.writeC_readC_self (m : Engine F) (q : CReg) (v : Nat) :
    (m.writeC q v).readC q = v % 2 ^ F.wideBits := by
  simp [Engine.readC, Engine.writeC, Vector.get_eq_getElem]

theorem Engine.writeC_readC_ne (m : Engine F) {q q' : CReg} (v : Nat) (h : q' ≠ q) :
    (m.writeC q v).readC q' = m.readC q' := by
  have hv : q.val ≠ q'.val := fun e => h (Fin.ext e.symm)
  simp [Engine.readC, Engine.writeC, Vector.get_eq_getElem, Vector.getElem_set_ne _ _ hv]

/-! ## Engine.writeV, Engine.writeRes -/

@[simp] theorem Engine.writeV_elem (m : Engine F) (r : EReg) (v : Nat) :
    m.writeV (.e r) v = m.writeE r v := rfl
@[simp] theorem Engine.writeV_wide (m : Engine F) (q : CReg) (v : Nat) :
    m.writeV (.c q) v = m.writeC q v := rfl
@[simp] theorem Engine.readV_elem (m : Engine F) (r : EReg) : m.readV (.e r) = m.readE r := rfl
@[simp] theorem Engine.readV_wide (m : Engine F) (q : CReg) : m.readV (.c q) = m.readC q := rfl

@[simp] theorem Engine.writeV_status (m : Engine F) (r : VReg) (v : Nat) :
    (m.writeV r v).status = m.status := by cases r <;> rfl
@[simp] theorem Engine.writeV_res (m : Engine F) (r : VReg) (v : Nat) :
    (m.writeV r v).res = m.res := by cases r <;> rfl
@[simp] theorem Engine.writeV_ecmd (m : Engine F) (r : VReg) (v : Nat) :
    (m.writeV r v).ecmd = m.ecmd := by cases r <;> rfl
@[simp] theorem Engine.writeV_err (m : Engine F) (r : VReg) (v : Nat) :
    (m.writeV r v).err = m.err := by cases r <;> rfl

/-- `V[r]` read back after `V[r] <- v`: the low bits of `v`. -/
@[simp] theorem Engine.writeV_readV_self (m : Engine F) (r : VReg) (v : Nat) :
    (m.writeV r v).readV r = v % 2 ^ bitsOf F r := by
  cases r with
  | e r => exact m.writeE_readE_self r v
  | c q => exact m.writeC_readC_self q v

/-- `V[r] <- v` leaves every other vector register as it was. -/
theorem Engine.writeV_readV_ne (m : Engine F) {r r' : VReg} (v : Nat) (h : r' ≠ r) :
    (m.writeV r v).readV r' = m.readV r' := by
  cases r with
  | e r =>
    cases r' with
    | e r' => exact m.writeE_readE_ne v fun e => h (congrArg VReg.e e)
    | c q' => rfl
  | c q =>
    cases r' with
    | e r' => rfl
    | c q' => exact m.writeC_readC_ne v fun e => h (congrArg VReg.c e)

@[simp] theorem Engine.writeRes_e (m : Engine F) (v : Nat) : (m.writeRes v).e = m.e := rfl
@[simp] theorem Engine.writeRes_c (m : Engine F) (v : Nat) : (m.writeRes v).c = m.c := rfl
@[simp] theorem Engine.writeRes_status (m : Engine F) (v : Nat) :
    (m.writeRes v).status = m.status := rfl
@[simp] theorem Engine.writeRes_res (m : Engine F) (v : Nat) :
    (m.writeRes v).res = BitVec.ofNat 64 v := rfl
@[simp] theorem Engine.writeRes_ecmd (m : Engine F) (v : Nat) : (m.writeRes v).ecmd = m.ecmd := rfl
@[simp] theorem Engine.writeRes_readV (m : Engine F) (v : Nat) (r : VReg) :
    (m.writeRes v).readV r = m.readV r := by cases r <;> rfl

/-! ## Fault entry and the return from a fault -/

@[simp] theorem Engine.raise_e (m : Engine F) (x : EngineFault) (w : Word) :
    (m.raise x w).e = m.e := rfl
@[simp] theorem Engine.raise_c (m : Engine F) (x : EngineFault) (w : Word) :
    (m.raise x w).c = m.c := rfl
@[simp] theorem Engine.raise_status (m : Engine F) (x : EngineFault) (w : Word) :
    (m.raise x w).status = x.statusWord := rfl
@[simp] theorem Engine.raise_res (m : Engine F) (x : EngineFault) (w : Word) :
    (m.raise x w).res = m.res := rfl
@[simp] theorem Engine.raise_ecmd (m : Engine F) (x : EngineFault) (w : Word) :
    (m.raise x w).ecmd = w := rfl
@[simp] theorem Engine.raise_readV (m : Engine F) (x : EngineFault) (w : Word) (r : VReg) :
    (m.raise x w).readV r = m.readV r := by cases r <;> rfl

@[simp] theorem Engine.clearFault_e (m : Engine F) : m.clearFault.e = m.e := rfl
@[simp] theorem Engine.clearFault_c (m : Engine F) : m.clearFault.c = m.c := rfl
@[simp] theorem Engine.clearFault_status (m : Engine F) : m.clearFault.status = 0 := rfl
@[simp] theorem Engine.clearFault_res (m : Engine F) : m.clearFault.res = m.res := rfl
@[simp] theorem Engine.clearFault_ecmd (m : Engine F) : m.clearFault.ecmd = 0 := rfl

/-- STATUS of the four faults: 0x11, 0x21, 0x31, 0x41 (R236). -/
@[simp] theorem EngineFault.statusWord_illegalCommand :
    EngineFault.illegalCommand.statusWord = 0x11 := by decide
@[simp] theorem EngineFault.statusWord_operandRange :
    EngineFault.operandRange.statusWord = 0x21 := by decide
@[simp] theorem EngineFault.statusWord_nonCanonical :
    EngineFault.nonCanonical.statusWord = 0x31 := by decide
@[simp] theorem EngineFault.statusWord_divideByZero :
    EngineFault.divideByZero.statusWord = 0x41 := by decide

/-- A raised fault is latched. -/
@[simp] theorem Engine.raise_err (m : Engine F) (x : EngineFault) (w : Word) :
    (m.raise x w).err = true := by
  cases x <;> simp [Engine.err]
@[simp] theorem Engine.clearFault_err (m : Engine F) : m.clearFault.err = false := by
  simp [Engine.err]

/-! ## State -/

@[simp] theorem State.withEngine_field (s : State) (m : Engine s.field) :
    (s.withEngine m).field = s.field := rfl
@[simp] theorem State.withEngine_engine (s : State) (m : Engine s.field) :
    (s.withEngine m).engine = m := rfl
@[simp] theorem State.withEngine_inputs (s : State) (m : Engine s.field) :
    (s.withEngine m).inputs = s.inputs := rfl
@[simp] theorem State.withEngine_answers (s : State) (m : Engine s.field) :
    (s.withEngine m).answers = s.answers := rfl
@[simp] theorem State.withEngine_self (s : State) : s.withEngine s.engine = s := rfl

@[simp] theorem State.answered_field (s : State) (rest : List (Input s.field)) (a : Answer) :
    (s.answered rest a).field = s.field := rfl
@[simp] theorem State.answered_engine (s : State) (rest : List (Input s.field)) (a : Answer) :
    (s.answered rest a).engine = s.engine := rfl
@[simp] theorem State.answered_inputs (s : State) (rest : List (Input s.field)) (a : Answer) :
    (s.answered rest a).inputs = rest := rfl
@[simp] theorem State.answered_answers (s : State) (rest : List (Input s.field)) (a : Answer) :
    (s.answered rest a).answers = a :: s.answers := rfl

@[simp] theorem resetEvent_field (s : State) (draw : Contents s.field)
    (rest : List (Input s.field)) : (resetEvent s draw rest).field = s.field := rfl
@[simp] theorem resetEvent_engine (s : State) (draw : Contents s.field)
    (rest : List (Input s.field)) : (resetEvent s draw rest).engine = Engine.afterReset draw := rfl
@[simp] theorem resetEvent_inputs (s : State) (draw : Contents s.field)
    (rest : List (Input s.field)) : (resetEvent s draw rest).inputs = rest := rfl
@[simp] theorem resetEvent_answers (s : State) (draw : Contents s.field)
    (rest : List (Input s.field)) : (resetEvent s draw rest).answers = s.answers := rfl

@[simp] theorem Engine.afterReset_status (draw : Contents F) :
    (Engine.afterReset draw).status = 0 := rfl
@[simp] theorem Engine.afterReset_res (draw : Contents F) : (Engine.afterReset draw).res = 0 := rfl
@[simp] theorem Engine.afterReset_ecmd (draw : Contents F) :
    (Engine.afterReset draw).ecmd = 0 := rfl
@[simp] theorem Engine.afterReset_e (draw : Contents F) :
    (Engine.afterReset draw).e = draw.e := rfl
@[simp] theorem Engine.afterReset_c (draw : Contents F) :
    (Engine.afterReset draw).c = draw.c := rfl
@[simp] theorem Engine.afterReset_err (draw : Contents F) :
    (Engine.afterReset draw).err = false := by simp [Engine.err]

end Sys2Proof.Machine
end

