-- ==== Sys2Proof/Laws/Ops.lean ====
section
/-!
SUPPORT. What each shared operation can do, said once: the register bounds, the command gate, the
checks, one input, one step.
-/

namespace Sys2Proof.Machine

variable {F : FieldId}

/-! ## Registers -/

/-- `E[i] ∈ [0, 2^(64L))` (R21). -/
theorem Engine.readE_lt (m : Engine F) (r : EReg) : m.readE r < 2 ^ F.elemBits :=
  (m.e.get r).isLt

/-- `C[q] ∈ [0, 2^(128L))` (R22). -/
theorem Engine.readC_lt (m : Engine F) (q : CReg) : m.readC q < 2 ^ F.wideBits :=
  (m.c.get q).isLt

/-- `V[r] ∈ [0, 2^(64·len(r)))` (R13). -/
theorem Engine.readV_lt (m : Engine F) (r : VReg) : m.readV r < 2 ^ bitsOf F r := by
  cases r with
  | e r => exact m.readE_lt r
  | c q => exact m.readC_lt q

/-- A value that fits is read back whole. -/
theorem Engine.writeE_readE_of_lt (m : Engine F) (r : EReg) {v : Nat} (h : v < 2 ^ F.elemBits) :
    (m.writeE r v).readE r = v := by
  rw [Engine.writeE_readE_self, Nat.mod_eq_of_lt h]

theorem Engine.writeC_readC_of_lt (m : Engine F) (q : CReg) {v : Nat} (h : v < 2 ^ F.wideBits) :
    (m.writeC q v).readC q = v := by
  rw [Engine.writeC_readC_self, Nat.mod_eq_of_lt h]

theorem Engine.writeV_readV_of_lt (m : Engine F) (r : VReg) {v : Nat} (h : v < 2 ^ bitsOf F r) :
    (m.writeV r v).readV r = v := by
  rw [Engine.writeV_readV_self, Nat.mod_eq_of_lt h]

/-- Every `D` is below the element length: a canonical value fits (R6, R7). -/
theorem degree_lt_elemBits (F : FieldId) : F.degree < F.elemBits := by
  cases F <;> decide

/-- A canonical value fits an element register (R24). -/
theorem canonical_fits {x : Nat} (h : x < 2 ^ F.degree) : x < 2 ^ F.elemBits :=
  h.trans (Nat.pow_lt_pow_right (by norm_num) (degree_lt_elemBits F))

/-- The canonical test on a register, as a bound (R24). -/
theorem Engine.canonicalE_iff (m : Engine F) (r : EReg) :
    m.canonicalE r = true ↔ m.readE r < 2 ^ F.degree := by
  simp [Engine.canonicalE, canonical]

/-- Two engines with the same registers are equal. -/
theorem Engine.ext_reads {m m' : Engine F} (he : ∀ r, m.readE r = m'.readE r)
    (hc : ∀ q, m.readC q = m'.readC q) (hs : m.status = m'.status) (hr : m.res = m'.res)
    (hw : m.ecmd = m'.ecmd) : m = m' := by
  cases m with
  | mk e c st rs ec =>
    cases m' with
    | mk e' c' st' rs' ec' =>
      simp only at hs hr hw
      subst hs hr hw
      have h1 : e = e' := by
        apply Vector.ext
        intro i hi
        have := he ⟨i, hi⟩
        exact BitVec.eq_of_toNat_eq (by simpa [Engine.readE, Vector.get_eq_getElem] using this)
      have h2 : c = c' := by
        apply Vector.ext
        intro i hi
        have := hc ⟨i, hi⟩
        exact BitVec.eq_of_toNat_eq (by simpa [Engine.readC, Vector.get_eq_getElem] using this)
      rw [h1, h2]

/-! ## The command gate and the checks -/

/-- While a fault is latched a command is ignored (R237). -/
theorem Engine.unlessLatched_of_err {m : Engine F} (h : m.err = true)
    (body : Engine F → Engine F) : m.unlessLatched body = m := by
  simp [Engine.unlessLatched, h]

/-- With no fault latched a command does what its body says (R80). -/
theorem Engine.unlessLatched_of_quiet {m : Engine F} (h : m.err = false)
    (body : Engine F → Engine F) : m.unlessLatched body = body m := by
  simp [Engine.unlessLatched, h]

/-- Everything a gated command can do: nothing, or its body. -/
theorem State.command_cases (s : State) (body : Engine s.field → Engine s.field) :
    (s.engine.err = true ∧ s.command body = .next s) ∨
      (s.engine.err = false ∧ s.command body = .next (s.withEngine (body s.engine))) := by
  cases h : s.engine.err with
  | true => exact .inl ⟨rfl, by rw [State.command, Engine.unlessLatched_of_err h]; rfl⟩
  | false => exact .inr ⟨rfl, by rw [State.command, Engine.unlessLatched_of_quiet h]⟩

theorem State.command_of_err {s : State} (h : s.engine.err = true)
    (body : Engine s.field → Engine s.field) : s.command body = .next s := by
  rw [State.command, Engine.unlessLatched_of_err h]; rfl

theorem State.command_of_quiet {s : State} (h : s.engine.err = false)
    (body : Engine s.field → Engine s.field) :
    s.command body = .next (s.withEngine (body s.engine)) := by
  rw [State.command, Engine.unlessLatched_of_quiet h]

@[simp] theorem Engine.check_true (m : Engine F) (x : EngineFault) (i : Instr)
    (body : Engine F → Engine F) : m.check true x i body = body m := rfl

@[simp] theorem Engine.check_false (m : Engine F) (x : EngineFault) (i : Instr)
    (body : Engine F → Engine F) : m.check false x i body = m.raise x (encode i) := rfl

/-- Everything a check can do: go on with the body, or latch its fault with the command's word. -/
theorem Engine.check_cases (m : Engine F) (p : Bool) (x : EngineFault) (i : Instr)
    (body : Engine F → Engine F) :
    (p = true ∧ m.check p x i body = body m) ∨
      (p = false ∧ m.check p x i body = m.raise x (encode i)) := by
  cases p <;> simp

/-! ## Commands in general -/

/-- Whatever a command does, it changes the engine only: the pending inputs, the answers and `FIELD`
stay. -/
theorem exec_withEngine (i : Instr) (s : State) :
    ∃ m : Engine s.field, exec i s = .next (s.withEngine m) := by
  cases i <;> exact ⟨_, rfl⟩

/-- A command word, too, changes the engine only (R58). -/
theorem executeWord_withEngine (w : Word) (s : State) :
    ∃ m : Engine s.field, executeWord w s = .next (s.withEngine m) := by
  unfold executeWord
  split
  · exact exec_withEngine _ s
  · exact ⟨_, rfl⟩

end Sys2Proof.Machine
end

