-- ==== Sys2Proof/Laws/PerInstr.lean ====
section
/-!
SUPPORT. Facts about every command as syntax, one lemma per constructor: the row of the opcode map its
word belongs to (30_encoding.md R83).
-/

namespace Sys2Proof.Laws

/-- The opcode of `i`'s word names the row of R83 that carries `i`'s mnemonic. -/
def TableRow.Statement (i : Instr) : Prop :=
  (rowOf (Fields.ofWord (encode i)).opcode).map OpcodeRow.mnemonic = some (Machine.mnemonicOf i)

theorem TableRow.nop : TableRow.Statement .nop := by
  rw [TableRow.Statement, ofWord_encode]; rfl

theorem TableRow.clrerr : TableRow.Statement .clrerr := by
  rw [TableRow.Statement, ofWord_encode]; rfl

theorem TableRow.getbit (ra : VReg) (k : BitVec 16) : TableRow.Statement (.getbit ra k) := by
  rw [TableRow.Statement, ofWord_encode]; rfl

theorem TableRow.flipbit (rd : VReg) (k : BitVec 16) : TableRow.Statement (.flipbit rd k) := by
  rw [TableRow.Statement, ofWord_encode]; rfl

theorem TableRow.bitlen (ra : VReg) : TableRow.Statement (.bitlen ra) := by
  rw [TableRow.Statement, ofWord_encode]; rfl

theorem TableRow.lsh (rd : VReg) (k : BitVec 16) : TableRow.Statement (.lsh rd k) := by
  rw [TableRow.Statement, ofWord_encode]; rfl

theorem TableRow.xor (rd ra rb : VReg) : TableRow.Statement (.xor rd ra rb) := by
  rw [TableRow.Statement, ofWord_encode]; rfl

theorem TableRow.sxor (rd ra rb : VReg) (k : BitVec 16) : TableRow.Statement (.sxor rd ra rb k) := by
  rw [TableRow.Statement, ofWord_encode]; rfl

theorem TableRow.getbits (ra : VReg) (k : BitVec 16) (n : BitVec 7) : TableRow.Statement (.getbits ra k n) := by
  rw [TableRow.Statement, ofWord_encode]; rfl

theorem TableRow.chlen (rd ra : VReg) : TableRow.Statement (.chlen rd ra) := by
  rw [TableRow.Statement, ofWord_encode]; rfl

theorem TableRow.eq (ra rb : VReg) : TableRow.Statement (.eq ra rb) := by
  rw [TableRow.Statement, ofWord_encode]; rfl

theorem TableRow.add (rd ra rb : EReg) : TableRow.Statement (.add rd ra rb) := by
  rw [TableRow.Statement, ofWord_encode]; rfl

theorem TableRow.red (rd : EReg) (ra : CReg) : TableRow.Statement (.red rd ra) := by
  rw [TableRow.Statement, ofWord_encode]; rfl

theorem TableRow.mulw (rd : CReg) (ra rb : EReg) : TableRow.Statement (.mulw rd ra rb) := by
  rw [TableRow.Statement, ofWord_encode]; rfl

theorem TableRow.mul (rd ra rb : EReg) : TableRow.Statement (.mul rd ra rb) := by
  rw [TableRow.Statement, ofWord_encode]; rfl

theorem TableRow.mulsa (rd ra rb : EReg) : TableRow.Statement (.mulsa rd ra rb) := by
  rw [TableRow.Statement, ofWord_encode]; rfl

theorem TableRow.mulrl (rd ra rb : EReg) : TableRow.Statement (.mulrl rd ra rb) := by
  rw [TableRow.Statement, ofWord_encode]; rfl

theorem TableRow.mullr (rd ra rb : EReg) : TableRow.Statement (.mullr rd ra rb) := by
  rw [TableRow.Statement, ofWord_encode]; rfl

theorem TableRow.mulnr (rd ra rb : EReg) : TableRow.Statement (.mulnr rd ra rb) := by
  rw [TableRow.Statement, ofWord_encode]; rfl

theorem TableRow.sqrw (rd : CReg) (ra : EReg) : TableRow.Statement (.sqrw rd ra) := by
  rw [TableRow.Statement, ofWord_encode]; rfl

theorem TableRow.sqr (rd ra : EReg) : TableRow.Statement (.sqr rd ra) := by
  rw [TableRow.Statement, ofWord_encode]; rfl

theorem TableRow.sqrb (rd ra : EReg) : TableRow.Statement (.sqrb rd ra) := by
  rw [TableRow.Statement, ofWord_encode]; rfl

theorem TableRow.inv (rd ra : EReg) : TableRow.Statement (.inv rd ra) := by
  rw [TableRow.Statement, ofWord_encode]; rfl

end Sys2Proof.Laws
end

