-- ==== Sys2Proof/Laws/Step.lean ====
section
/-!
SUPPORT. What one input and one step can do, said once.
-/

namespace Sys2Proof.Machine

/-- With no input pending nothing happens (R50). -/
theorem step_of_nil {s : State} (h : s.inputs = []) : step s = .next s := by
  simp [step, h]

/-- A step takes the first pending input (R60). -/
theorem step_of_cons {s : State} {x : Input s.field} {rest : List (Input s.field)}
    (h : s.inputs = x :: rest) : step s = takeInput s x rest := by
  simp [step, h]

/-- A read is answered and changes nothing else (R52). -/
theorem step_hostRead {s : State} {a : Addr} {rest : List (Input s.field)}
    (h : s.inputs = .hostRead a :: rest) :
    step s = .next (s.answered rest (s.engine.hostRead a)) := step_of_cons h

/-- A write goes through the address map (R53). -/
theorem step_hostWrite {s : State} {a : Addr} {v : Word} {rest : List (Input s.field)}
    (h : s.inputs = .hostWrite a v :: rest) : step s = hostWrite s a v rest := step_of_cons h

/-- A reset event replaces the engine (R260). -/
theorem step_reset {s : State} {draw : Contents s.field} {rest : List (Input s.field)}
    (h : s.inputs = .reset draw :: rest) : step s = .next (resetEvent s draw rest) :=
  step_of_cons h

/-- Address 0x000 is CMD, for every `FIELD` (R56). -/
@[simp] theorem portMap_zero (F : FieldId) : portMap F 0 = some .cmd := rfl

/-- A write of CMD is answered `Ok` and executes its word (R58). -/
theorem step_command {s : State} {w : Word} {rest : List (Input s.field)}
    (h : s.inputs = .hostWrite 0 w :: rest) :
    step s = executeWord w (s.answered rest .ok) := by
  rw [step_hostWrite h]; rfl

/-- What a write transaction can do: execute a word on the answered state, replace one limb, or be
refused (R53, R54). -/
theorem hostWrite_cases (s : State) (a : Addr) (v : Word) (rest : List (Input s.field)) :
    (portMap s.field a = some .cmd ∧
        hostWrite s a v rest = executeWord v (s.answered rest .ok)) ∨
      (∃ r i, portMap s.field a = some (.elemLimb r i) ∧
        hostWrite s a v rest =
          .next ((s.answered rest .ok).withEngine (s.engine.writeElemLimb r i v))) ∨
      (∃ q i, portMap s.field a = some (.wideLimb q i) ∧
        hostWrite s a v rest =
          .next ((s.answered rest .ok).withEngine (s.engine.writeWideLimb q i v))) ∨
      hostWrite s a v rest = .next (s.answered rest .error) := by
  unfold hostWrite
  split <;> simp_all

/-- What a step can do: idle, answer a read, execute a command word, replace one limb, refuse a
write, or reset. -/
theorem step_cases (s : State) :
    (s.inputs = [] ∧ step s = .next s) ∨
      (∃ a rest, s.inputs = .hostRead a :: rest ∧
        step s = .next (s.answered rest (s.engine.hostRead a))) ∨
      (∃ a w rest, s.inputs = .hostWrite a w :: rest ∧ portMap s.field a = some .cmd ∧
        step s = executeWord w (s.answered rest .ok)) ∨
      (∃ a v rest r i, s.inputs = .hostWrite a v :: rest ∧
        portMap s.field a = some (.elemLimb r i) ∧
        step s = .next ((s.answered rest .ok).withEngine (s.engine.writeElemLimb r i v))) ∨
      (∃ a v rest q i, s.inputs = .hostWrite a v :: rest ∧
        portMap s.field a = some (.wideLimb q i) ∧
        step s = .next ((s.answered rest .ok).withEngine (s.engine.writeWideLimb q i v))) ∨
      (∃ a v rest, s.inputs = .hostWrite a v :: rest ∧
        step s = .next (s.answered rest .error)) ∨
      (∃ draw rest, s.inputs = .reset draw :: rest ∧
        step s = .next (resetEvent s draw rest)) := by
  cases h : s.inputs with
  | nil => exact .inl ⟨rfl, step_of_nil h⟩
  | cons x rest =>
    cases x with
    | hostRead a => exact .inr (.inl ⟨a, rest, rfl, step_hostRead h⟩)
    | reset draw =>
      exact .inr (.inr (.inr (.inr (.inr (.inr ⟨draw, rest, rfl, step_reset h⟩)))))
    | hostWrite a v =>
      rw [step_hostWrite h]
      rcases hostWrite_cases s a v rest with ⟨hp, he⟩ | ⟨r, i, hp, he⟩ | ⟨q, i, hp, he⟩ | he
      · exact .inr (.inr (.inl ⟨a, v, rest, rfl, hp, he⟩))
      · exact .inr (.inr (.inr (.inl ⟨a, v, rest, r, i, rfl, hp, he⟩)))
      · exact .inr (.inr (.inr (.inr (.inl ⟨a, v, rest, q, i, rfl, hp, he⟩))))
      · exact .inr (.inr (.inr (.inr (.inr (.inl ⟨a, v, rest, rfl, he⟩)))))

end Sys2Proof.Machine
end

