-- ==== Sys2Proof/Tests/Slice0.lean ====
section
/-!
SUPPORT. The model's own tests. Every expected value is the spec's: worked encodings from
30_encoding.md R94, vectors from 95_test_vectors.md, `FIELD` = 163 unless said otherwise. After them,
one witness for each obligation that has hypotheses: a concrete state and operands that meet all of
them together.
-/

namespace Sys2Proof.Tests

set_option Elab.async false

open Sys2Proof Sys2Proof.Machine

/-! ## Helpers -/

/-- The standing operand a of 95_test_vectors.md. -/
def opA : Nat := 0x4DEADBEEF0123456789ABCDEFFEDCBA9876543210

/-- The standing operand b of 95_test_vectors.md. -/
def opB : Nat := 0x7FFFFFFFFAAAAAAAA555555550F0F0F0FF0F0F0F0

/-- a·b unreduced (95_test_vectors.md 2.5). -/
def prodAB : Nat := ofLimbs [0x7D7381702F3FEF00, 0x63DD4BF5336C2778, 0x539CAD81D0E332C3,
  0xDBA4F190843DC6A9, 0xACDB52D6947F3F21, 0x000000000000001D]

/-- a·b in the field (95_test_vectors.md 2.5). -/
def mulAB : Nat := 0x62CCB192C1279823B4D4DD568BFBA0D3F3FF79FD

/-- a·a in the field (95_test_vectors.md 2.6). -/
def sqrA : Nat := 0x94C9FF10474D6877E55D05BC269EC679EB531FEA

/-- An engine of `FIELD` = 163 with these values in E0, E1, E2 and C0; the other vector registers are
zero. -/
def eng (e0 e1 e2 c0 : Nat) (status : Word := 0) (ecmd : Word := 0) : Engine .d163 where
  e := #v[BitVec.ofNat _ e0, BitVec.ofNat _ e1, BitVec.ofNat _ e2, 0, 0, 0, 0, 0]
  c := #v[BitVec.ofNat _ c0, 0]
  status := status
  res := 0x77
  ecmd := ecmd

/-- A machine with this engine and these inputs to come. -/
def mach (m : Engine .d163) (ins : List (Input .d163) := []) : State where
  field := .d163
  engine := m
  inputs := ins
  answers := []

/-- E0 = a, E1 = b, E2 = 7, C0 = a·b unreduced. -/
def ab : State := mach (eng opA opB 7 prodAB)

/-- What a state shows of a next state. -/
def shows (o : Host.Outcome State Fault Refusal) (f : State → List Nat) : List Nat :=
  match o with
  | .next t => f t
  | .fault _ => []
  | .refused _ => []

/-- E[r] and STATUS after a command. -/
def elemAfter (i : Instr) (s : State) (r : EReg) : List Nat :=
  shows (exec i s) fun t => [t.engine.readE r, t.engine.status.toNat]

/-- C[q] and STATUS after a command. -/
def wideAfter (i : Instr) (s : State) (q : CReg) : List Nat :=
  shows (exec i s) fun t => [t.engine.readC q, t.engine.status.toNat]

/-- RES and STATUS after a command. -/
def resAfter (i : Instr) (s : State) : List Nat :=
  shows (exec i s) fun t => [t.engine.res.toNat, t.engine.status.toNat]

/-- STATUS and ECMD after a command. -/
def latchAfter (i : Instr) (s : State) : List Nat :=
  shows (exec i s) fun t => [t.engine.status.toNat, t.engine.ecmd.toNat]

/-! ## WellFormed: an ill-formed term for each check (R87) -/

theorem test_xor_rd_length_refused :
    (Instr.xor (.c 1) (.e 0) (.e 1)).wellFormed = false := by decide

theorem test_xor_rb_length_refused :
    (Instr.xor (.e 1) (.e 0) (.c 1)).wellFormed = false := by decide

theorem test_sxor_rd_length_refused :
    (Instr.sxor (.c 1) (.e 0) (.e 1) 0).wellFormed = false := by decide

theorem test_sxor_longer_rb_refused :
    (Instr.sxor (.e 2) (.e 0) (.c 0) 0).wellFormed = false := by decide

theorem test_eq_length_refused : (Instr.eq (.e 0) (.c 0)).wellFormed = false := by decide

theorem test_sxor_shorter_rb_accepted :
    (Instr.sxor (.c 0) (.c 0) (.e 1) 162).wellFormed = true := by decide

/-! ## Decoding: every row of R94, the words as the spec writes them out -/

theorem test_decode_nop : decode 0x0000000000000000 = .ok .nop := by decide +kernel
theorem test_decode_clrerr : decode 0x0100000000000000 = .ok .clrerr := by decide +kernel
theorem test_decode_getbit :
    decode 0x10080000000000A3 = .ok (.getbit (.c 0) 163) := by decide +kernel
theorem test_decode_flipbit :
    decode 0x1130000000000000 = .ok (.flipbit (.e 3) 0) := by decide +kernel
theorem test_decode_bitlen : decode 0x1201000000000000 = .ok (.bitlen (.e 1)) := by decide +kernel
theorem test_decode_lsh : decode 0x1390000000000004 = .ok (.lsh (.c 1) 4) := by decide +kernel
theorem test_decode_xor :
    decode 0x1422200000000000 = .ok (.xor (.e 2) (.e 2) (.e 2)) := by decide +kernel
theorem test_decode_sxor :
    decode 0x15881000000000A2 = .ok (.sxor (.c 0) (.c 0) (.e 1) 162) := by decide +kernel
theorem test_decode_getbits :
    decode 0x16000004000000A0 = .ok (.getbits (.e 0) 160 4) := by decide +kernel
theorem test_decode_chlen :
    decode 0x1785000000000000 = .ok (.chlen (.c 0) (.e 5)) := by decide +kernel
theorem test_decode_eq :
    decode 0x1802300000000000 = .ok (.eq (.e 2) (.e 3)) := by decide +kernel
theorem test_decode_add : decode 0x2020100000000000 = .ok (.add 2 0 1) := by decide +kernel
theorem test_decode_red : decode 0x2148000000000000 = .ok (.red 4 0) := by decide +kernel
theorem test_decode_mulw : decode 0x2280100000000000 = .ok (.mulw 0 0 1) := by decide +kernel
theorem test_decode_mul : decode 0x2320100000000000 = .ok (.mul 2 0 1) := by decide +kernel
theorem test_decode_mulsa : decode 0x2420100000000000 = .ok (.mulsa 2 0 1) := by decide +kernel
theorem test_decode_mulrl : decode 0x2520100000000000 = .ok (.mulrl 2 0 1) := by decide +kernel
theorem test_decode_mullr : decode 0x2620100000000000 = .ok (.mullr 2 0 1) := by decide +kernel
theorem test_decode_mulnr : decode 0x2720100000000000 = .ok (.mulnr 2 0 1) := by decide +kernel
theorem test_decode_sqrw : decode 0x2890000000000000 = .ok (.sqrw 1 0) := by decide +kernel
theorem test_decode_sqr : decode 0x2910000000000000 = .ok (.sqr 1 0) := by decide +kernel
theorem test_decode_sqrb : decode 0x2A10000000000000 = .ok (.sqrb 1 0) := by decide +kernel
theorem test_decode_inv : decode 0x2B31000000000000 = .ok (.inv 3 1) := by decide +kernel

/-- R81: the fields of one word, bit by bit: GETBITS E0, #160, #4. -/
theorem test_decode_getbits_bits :
    decode 0b00010110_0000_0000_0000_00000_0000100_0000000000000000_0000000010100000
      = .ok (.getbits (.e 0) 160 4) := by decide +kernel

/-- R94, the illegal words. -/
theorem test_decode_reserved_opcode :
    decode 0x0200000000000000 = .error .reservedOpcode := by decide +kernel
theorem test_decode_wrong_class :
    decode 0x2380100000000000 = .error .badSpecifier := by decide +kernel
theorem test_decode_unused_k :
    decode 0x2320100000000001 = .error .unusedField := by decide +kernel
theorem test_decode_reserved_specifier :
    decode 0x14A0000000000000 = .error .badSpecifier := by decide +kernel
theorem test_decode_unequal_lengths :
    decode 0x1480100000000000 = .error .lengthMismatch := by decide +kernel
theorem test_decode_unused_n :
    decode 0x1000000100000000 = .error .unusedField := by decide +kernel
theorem test_decode_reserved_bits :
    decode 0x0000000000010000 = .error .reservedBits := by decide +kernel

theorem test_decodeTableWord :
    decodeTableWord 64 0x15881000000000A2 = some (.sxor (.c 0) (.c 0) (.e 1) 162) := by
  decide +kernel

theorem test_encode_sxor :
    encode (.sxor (.c 0) (.c 0) (.e 1) 162) = 0x15881000000000A2 := by decide +kernel

theorem test_opcode_rows : opcodeRows.length = 23 := by decide

/-! ## Commands: vectors of 95_test_vectors.md Part 2 -/

theorem test_nop : latchAfter .nop ab = [0, 0] := by decide +kernel
theorem test_clrerr :
    latchAfter .clrerr (mach (eng 0 0 0 0 0x41 0x2B10000000000000)) = [0, 0] := by decide +kernel

theorem test_getbit_top : resAfter (.getbit (.e 0) 162) ab = [1, 0] := by decide +kernel
theorem test_getbit_range : resAfter (.getbit (.e 0) 192) ab = [0x77, 0x21] := by decide +kernel

theorem test_flipbit_above_d :
    elemAfter (.flipbit (.e 0) 163) ab 0 = [opA + 2 ^ 163, 0] := by decide +kernel
theorem test_flipbit_range :
    elemAfter (.flipbit (.e 0) 192) ab 0 = [opA, 0x21] := by decide +kernel

theorem test_bitlen : resAfter (.bitlen (.c 0)) ab = [325, 0] := by decide +kernel
theorem test_bitlen_zero : resAfter (.bitlen (.e 3)) ab = [0, 0] := by decide +kernel

theorem test_lsh_discards :
    wideAfter (.lsh (.c 0) 60) ab 0
      = [ofLimbs [0x0000000000000000, 0x87D7381702F3FEF0, 0x363DD4BF5336C277,
          0x9539CAD81D0E332C, 0x1DBA4F190843DC6A, 0xDACDB52D6947F3F2], 0] := by decide +kernel
theorem test_lsh_far : elemAfter (.lsh (.e 0) 65535) ab 0 = [0, 0] := by decide +kernel

theorem test_xor :
    elemAfter (.xor (.e 2) (.e 0) (.e 1)) ab 2
      = [ofLimbs [0xF1D3B59786A4C2E0, 0xAB89EFCDDCFE98BA, 0x0000000321524110], 0] := by
  decide +kernel
theorem test_xor_lengths :
    latchAfter (.xor (.c 1) (.c 0) (.e 1)) ab = [0x11, 0x1498100000000000] := by decide +kernel

theorem test_sxor :
    wideAfter (.sxor (.c 1) (.c 1) (.e 1) 100) ab 1
      = [ofLimbs [0x0000000000000000, 0x0F0F0F0000000000, 0x55555550F0F0F0FF,
          0xFFFFFFFAAAAAAAA5, 0x000000000000007F, 0x0000000000000000], 0] := by decide +kernel
theorem test_sxor_range :
    latchAfter (.sxor (.c 1) (.c 1) (.e 1) 193) ab = [0x21, 0x15991000000000C1] := by
  decide +kernel

theorem test_getbits_across_limbs :
    resAfter (.getbits (.e 0) 60 8) ab = [0xFF, 0] := by decide +kernel
theorem test_getbits_range :
    resAfter (.getbits (.c 0) 321 64) ab = [0x77, 0x21] := by decide +kernel

theorem test_chlen_truncates :
    elemAfter (.chlen (.e 2) (.c 0)) ab 2
      = [ofLimbs [0x7D7381702F3FEF00, 0x63DD4BF5336C2778, 0x539CAD81D0E332C3], 0] := by
  decide +kernel
theorem test_chlen_extends :
    wideAfter (.chlen (.c 1) (.e 0)) ab 1 = [opA, 0] := by decide +kernel

theorem test_eq_above_d :
    resAfter (.eq (.e 0) (.e 2)) (mach (eng opA opB (opA + 2 ^ 191) 0)) = [0, 0] := by
  decide +kernel
theorem test_eq_same : resAfter (.eq (.e 0) (.e 0)) ab = [1, 0] := by decide +kernel

theorem test_add :
    elemAfter (.add 2 0 1) ab 2 = [0x321524110AB89EFCDDCFE98BAF1D3B59786A4C2E0, 0] := by
  decide +kernel
theorem test_add_noncanonical :
    elemAfter (.add 2 0 1) (mach (eng (2 ^ 163) 1 7 0)) 2 = [7, 0x31] := by decide +kernel

theorem test_red_top_bit :
    elemAfter (.red 1 0) (mach (eng 0 0 0 (2 ^ 383))) 1 = [0xA08200000000000000, 0] := by
  decide +kernel
theorem test_red_all_bits :
    elemAfter (.red 1 0) (mach (eng 0 0 0 (2 ^ 384 - 1))) 1
      = [0x7FFFFFFFFFFFFFFFFFFFFFF3F03FFFFFFFFFFFFB8, 0] := by decide +kernel

theorem test_mulw : wideAfter (.mulw 0 0 1) (mach (eng opA opB 0 1)) 0 = [prodAB, 0] := by
  decide +kernel
theorem test_mul : elemAfter (.mul 2 0 1) ab 2 = [mulAB, 0] := by decide +kernel
theorem test_mul_equal_values :
    elemAfter (.mul 2 0 1) (mach (eng (2 ^ 163 - 1) (2 ^ 163 - 1) 0 0)) 2
      = [0x5555555555555555555555555555555555555453A, 0] := by decide +kernel
theorem test_mulsa : elemAfter (.mulsa 2 0 1) ab 2 = [mulAB, 0] := by decide +kernel
theorem test_mulrl : elemAfter (.mulrl 0 0 1) ab 0 = [mulAB, 0] := by decide +kernel
theorem test_mullr : elemAfter (.mullr 1 0 1) ab 1 = [mulAB, 0] := by decide +kernel
theorem test_mulnr : elemAfter (.mulnr 2 1 0) ab 2 = [mulAB, 0] := by decide +kernel

theorem test_sqrw :
    wideAfter (.sqrw 1 0) ab 1
      = [ofLimbs [0x1514111005040100, 0x5554515045444140, 0x4041444550515455,
          0x0001040510111415, 0x5154445145545455, 0x0000000000000010], 0] := by decide +kernel
theorem test_sqr : elemAfter (.sqr 1 0) ab 1 = [sqrA, 0] := by decide +kernel
theorem test_sqr_noncanonical :
    latchAfter (.sqr 1 0) (mach (eng (2 ^ 163) 0 0 0)) = [0x31, 0x2910000000000000] := by
  decide +kernel
theorem test_sqrb : elemAfter (.sqrb 1 0) ab 1 = [sqrA, 0] := by decide +kernel

theorem test_inv :
    elemAfter (.inv 1 0) ab 1 = [0x71E615F079971901114C384D086B6B0E08EE12C0, 0] := by
  decide +kernel
theorem test_inv_zero :
    latchAfter (.inv 1 0) (mach (eng 0 0x55 0 0)) = [0x41, 0x2B10000000000000] := by
  decide +kernel

/-! ## The latch, the port, reset, the table's field rows -/

/-- 95_test_vectors.md 2.10: a second illegal word is ignored and not recorded. -/
theorem test_latched_ignores :
    shows (step (mach (eng 0 0 0 0 0x11 0x0200000000000000) [.hostWrite 0 0x3000000000000000]))
      (fun t => [t.engine.status.toNat, t.engine.ecmd.toNat, t.answers.length])
      = [0x11, 0x0200000000000000, 1] := by decide +kernel

theorem test_read_paramD : (State.reset.engine.hostRead 4) = .data 0xA3 := by decide +kernel
theorem test_read_cmd : (State.reset.engine.hostRead 0) = .error := by decide +kernel
theorem test_read_absent_limb : (State.reset.engine.hostRead 0x103) = .error := by decide +kernel
theorem test_read_reserved : (State.reset.engine.hostRead 0x240) = .error := by decide +kernel
theorem test_read_top_limb : ab.engine.hostRead 0x102 = .data 0x4DEADBEEF := by decide +kernel
theorem test_read_wide_limb : ab.engine.hostRead 0x205 = .data 0x1D := by decide +kernel

theorem test_write_limb :
    shows (step (mach (eng 0 0 0 0) [.hostWrite 0x112 0xFFFFFFFFFFFFFFFF]))
      (fun t => [t.engine.readE 1, t.engine.status.toNat])
      = [0xFFFFFFFFFFFFFFFF * 2 ^ 128, 0] := by decide +kernel

/-- R7: the hex lengths and the limb counts of the nine fields, in the table's order. -/
theorem test_field_rows :
    allFields.map FieldId.hexLen = [30, 34, 42, 50, 60, 60, 72, 104, 144] ∧
      allFields.map FieldId.limbs = [2, 3, 3, 4, 4, 4, 5, 7, 9] := by decide

/-- R260: a reset with a latched fault. -/
theorem test_reset_event :
    shows (step (mach (eng 0 0 0 0 0x41 0x2B10000000000000) [.reset (Contents.zero .d163)]))
      (fun t => [t.engine.status.toNat, t.engine.res.toNat, t.engine.ecmd.toNat])
      = [0, 0, 0] := by decide +kernel

/-- A word placed for the next step is run by it: MUL E0, E0, E1 right after reset. -/
theorem test_withFetchWord :
    step (State.reset.withFetchWord 64 0x2300100000000000)
      = exec (.mul 0 0 1) (State.reset.answered [] .ok) := rfl

/-! ## Host procedures and assembly: 95_test_vectors.md 2.2, 2.8; R92, R93 -/

theorem test_from_hex_spaces :
    fromHex .d163 "04deadbeef 0123456789\nabcdeffedcba9876543210".toList = .ok opA := by
  decide +kernel
theorem test_from_hex_empty : fromHex .d163 [] = .error (.malformedInput 42) := by
  decide +kernel
theorem test_to_hex :
    toHex .d163 opA = "04deadbeef0123456789abcdeffedcba9876543210".toList := by decide +kernel
theorem test_load :
    loadReg .d163 (.e 0) opA
      = [.hostWrite 0x100 0xFEDCBA9876543210, .hostWrite 0x101 0x0123456789ABCDEF,
          .hostWrite 0x102 0x00000004DEADBEEF] := by decide +kernel
theorem test_div :
    commandWrites .d163 (divMacro 2 0 1 3)
      = [.hostWrite 0 0x2B31000000000000, .hostWrite 0 0x2320300000000000] := by decide +kernel
theorem test_pow_negative :
    (Pseudo.pow 2 0 (-1) 3).expand .d163 = .error .unsupportedExponent := by decide +kernel
theorem test_asm :
    asmText (.sxor (.c 0) (.c 0) (.e 1) 162) = "SXOR C0, C0, E1, #162".toList := by
  decide +kernel
theorem test_parse :
    parseLine "  SXOR C0, C0, E1, #0xA2 ; add".toList
      = some (.command (.sxor (.c 0) (.c 0) (.e 1) 162)) := by decide +kernel
theorem test_parse_read :
    parseLine "RD 0x120 -> 0x0000000000000001".toList = some (.read 0x120) := by decide +kernel
theorem test_parse_store : parseLine "STORE E2 -> 1".toList = some (.store (.e 2)) := by
  decide +kernel
theorem test_parse_arrow_refused : parseLine "ADD E2, E0, E1 -> 7".toList = none := by
  decide +kernel

/-! ## Witnesses: the command word -/

theorem test_witness_DecodeOfEncode :
    (Instr.sxor (.c 1) (.c 0) (.e 7) 0xFFFF).wellFormed = true := by decide

theorem test_witness_EncodeOfDecode_and_MatchNecessary :
    decode 0x15881000000000A2 = .ok (.sxor (.c 0) (.c 0) (.e 1) 162) := test_decode_sxor

theorem test_witness_MatchSuffices :
    ∃ row ∈ systemRows ++ fieldRows, (0x2B77000000000000 : Word) &&& row.mask = row.matchBits := by
  decide +kernel

theorem test_witness_StepRuns :
    (mach (eng 1 2 3 4) [.hostWrite 0 0x2320100000000000]).inputs
        = .hostWrite 0 0x2320100000000000 :: [] ∧
      decode 0x2320100000000000 = .ok (.mul 2 0 1) := ⟨rfl, test_decode_mul⟩

theorem test_witness_IllegalWord :
    (mach (eng 1 2 3 4) [.hostWrite 0 0x2380100000000000]).inputs
        = .hostWrite 0 0x2380100000000000 :: [] ∧
      legal 0x2380100000000000 = false ∧ (eng 1 2 3 4).err = false := by
  refine ⟨rfl, ?_, ?_⟩ <;> decide +kernel

/-- Each of the four faults, at the first value that raises it. -/
theorem test_witness_FirstFailing :
    ab.engine.err = false ∧
      commandFault ab.engine (.eq (.e 0) (.c 0)) = some .illegalCommand ∧
      commandFault ab.engine (.getbit (.e 0) 192) = some .operandRange ∧
      commandFault (eng (2 ^ 163) 0 0 0) (.inv 1 0) = some .nonCanonical ∧
      commandFault ab.engine (.inv 1 3) = some .divideByZero := by decide +kernel

theorem test_witness_LatchedIgnores :
    (mach (eng 1 2 3 4 0x21 0x10000000000000C0) [.hostWrite 0 0x0200000000000000]).inputs
        = .hostWrite 0 0x0200000000000000 :: [] ∧
      (eng 1 2 3 4 0x21 0x10000000000000C0).err = true ∧
      (0x0200000000000000 : Word) ≠ clrerrWord := by
  refine ⟨rfl, ?_, ?_⟩ <;> decide +kernel

/-- A command of each destination with every test passed. -/
theorem test_witness_Completing :
    ab.engine.err = false ∧
      (commandFault ab.engine .nop = none ∧ destination .nop = .nothing) ∧
      (commandFault ab.engine .clrerr = none ∧ destination .clrerr = .latch) ∧
      (commandFault ab.engine (.getbit (.e 0) 191) = none ∧
        destination (.getbit (.e 0) 191) = .res) ∧
      (commandFault ab.engine (.inv 1 0) = none ∧ destination (.inv 1 0) = .vec (.e 1)) := by
  decide +kernel

/-- Two engines that agree on the sources of MUL E3, E0, E1 and differ elsewhere; and for RES. -/
theorem test_witness_CommandDepends :
    ab.engine.err = false ∧ (eng opA opB 0 0).err = false ∧
      (∀ r ∈ sources (.mul 3 0 1), (eng opA opB 0 0).readV r = ab.engine.readV r) ∧
      commandFault ab.engine (.mul 3 0 1) = none ∧ destination (.mul 3 0 1) = .vec (.e 3) ∧
      (∀ r ∈ sources (.eq (.e 0) (.e 1)), (eng opA opB 0 0).readV r = ab.engine.readV r) ∧
      destination (.eq (.e 0) (.e 1)) = .res ∧
      (eng opA opB 0 0).readV (.e 2) ≠ ab.engine.readV (.e 2) := by
  decide +kernel

/-! ## Witnesses: the latch over runs -/

/-- A quiet state and a faulted one meet the invariant, and each has a next state. -/
theorem test_witness_LatchInv :
    ab.Inv ∧ step ab = .next ab ∧
      (mach (eng 0 0 0 0 0x41 0x2B10000000000000)).Inv := by
  refine ⟨.inl ⟨rfl, rfl⟩, rfl, .inr (.inr (.inr (.inr ⟨rfl, 1, 0, ?_⟩)))⟩
  show decode 0x2B10000000000000 = .ok (.inv 1 0)
  decide +kernel

theorem test_witness_LatchedStays :
    let s := mach (eng 0 0 0 0 0x41 0x2B10000000000000) [.hostWrite 0 0, .hostWrite 0 clrerrWord]
    s.engine.err = true ∧ (∀ x ∈ s.inputs.take 1, x.clearsLatch = false) ∧
      Runs 1 s (s.answered [.hostWrite 0 clrerrWord] .ok) := by
  refine ⟨by decide +kernel, by decide +kernel, rfl⟩

/-- A machine about to execute one NOP. -/
def quietRun : State := mach (eng 0 0 0 0) [.hostWrite 0 0]

/-- A machine about to execute one word that is no command. -/
def faultingRun : State := mach (eng 0 0 0 0) [.hostWrite 0 0x0200000000000000]

/-- A run that ends with no fault latched. -/
theorem test_witness_StatusAtTheEnd_quiet :
    quietRun.engine.err = false ∧ (∀ x ∈ quietRun.inputs.take 1, x.clearsLatch = false) ∧
      Runs 1 quietRun (quietRun.answered [] .ok) ∧
      (quietRun.answered [] .ok).engine.err = false := by
  refine ⟨by decide +kernel, by decide +kernel, rfl, by decide +kernel⟩

/-- A run whose only command faults. -/
theorem test_witness_StatusAtTheEnd_fault :
    faultingRun.engine.err = false ∧ (∀ x ∈ faultingRun.inputs.take 1, x.clearsLatch = false) ∧
      ∃ t, Runs 1 faultingRun t ∧ t.engine.err = true := by
  refine ⟨by decide +kernel, by decide +kernel, _, rfl, ?_⟩
  decide +kernel

/-! ## Witnesses: the port -/

/-- The windows' first and last limbs have the addresses of the clauses. -/
theorem test_witness_HostRead_limbs :
    (mach (eng 1 2 3 4) [.hostRead 0x172]).inputs = .hostRead 0x172 :: [] ∧
      2 < FieldId.limbs .d163 ∧ (0x100 : Addr).toNat = 0x100 + 16 * (0 : EReg).val + 0 ∧
      (0x172 : Addr).toNat = 0x100 + 16 * (7 : EReg).val + 2 ∧
      5 < 2 * FieldId.limbs .d163 ∧ (0x200 : Addr).toNat = 0x200 + 32 * (0 : CReg).val + 0 ∧
      (0x225 : Addr).toNat = 0x200 + 32 * (1 : CReg).val + 5 := by
  exact ⟨rfl, by decide⟩

/-- What the port answers at the ends of every range of the map. -/
theorem test_witness_HostRead_answers :
    let m := eng 1 2 3 4 0x41 0x2B10000000000000
    m.hostRead 1 = .data 0x41 ∧ m.hostRead 2 = .data 0x77 ∧
      m.hostRead 3 = .data 0x2B10000000000000 ∧ m.hostRead 4 = .data 163 ∧
      m.hostRead 5 = .data 3 ∧ m.hostRead 6 = .data 0xC9 ∧ m.hostRead 7 = .data 0 ∧
      m.hostRead 0x100 = .data 1 ∧ m.hostRead 0x172 = .data 0 ∧ m.hostRead 0x200 = .data 4 ∧
      m.hostRead 0x225 = .data 0 := by decide +kernel

/-- Addresses next to a window that no clause but the last covers. -/
theorem test_witness_HostRead_refused :
    ∀ a ∈ ([0x000, 0x008, 0x0FF, 0x103, 0x173, 0x17F, 0x180, 0x1FF, 0x206, 0x226, 0x23F, 0x240,
        0x3FF] : List Addr),
      ¬ (1 ≤ a.toNat ∧ a.toNat ≤ 7) ∧
      (∀ r : EReg, ∀ i < FieldId.limbs .d163, a.toNat ≠ 0x100 + 16 * r.val + i) ∧
      (∀ q : CReg, ∀ i < 2 * FieldId.limbs .d163, a.toNat ≠ 0x200 + 32 * q.val + i) ∧
      (eng 1 2 3 4).hostRead a = .error := by decide +kernel

theorem test_witness_HostWrite_limb :
    (mach (eng 1 2 3 4) [.hostWrite 0x172 5]).inputs = .hostWrite 0x172 5 :: [] ∧
      2 < FieldId.limbs .d163 ∧ (0x172 : Addr).toNat = 0x100 + 16 * (7 : EReg).val + 2 ∧
      (mach (eng 1 2 3 4) [.hostWrite 0x225 5]).inputs = .hostWrite 0x225 5 :: [] ∧
      5 < 2 * FieldId.limbs .d163 ∧ (0x225 : Addr).toNat = 0x200 + 32 * (1 : CReg).val + 5 := by
  refine ⟨rfl, by decide, by decide, rfl, by decide, by decide⟩

/-- A read-only register, the limbs next to the windows' ends, and reserved addresses. -/
theorem test_witness_OtherWrites :
    ∀ a ∈ ([0x001, 0x007, 0x008, 0x103, 0x173, 0x180, 0x206, 0x226, 0x240, 0x3FF] : List Addr),
      (mach (eng 1 2 3 4) [.hostWrite a 5]).inputs = .hostWrite a 5 :: [] ∧ a ≠ 0 ∧
      (∀ r : EReg, ∀ i < FieldId.limbs .d163, a.toNat ≠ 0x100 + 16 * r.val + i) ∧
      (∀ q : CReg, ∀ i < 2 * FieldId.limbs .d163, a.toNat ≠ 0x200 + 32 * q.val + i) := by
  decide +kernel

theorem test_witness_Load :
    (mach (eng 1 2 3 4) (loadReg .d163 (.c 1) (2 ^ 384 - 1))).inputs
        = loadReg .d163 (.c 1) (2 ^ 384 - 1) ++ [] ∧
      2 ^ 384 - 1 < 2 ^ (64 * lenOf .d163 (.c 1)) := by decide +kernel

theorem test_witness_Store :
    (mach (eng 1 2 3 4) (storeReg .d163 (.e 2))).inputs = storeReg .d163 (.e 2) ++ [] := by
  decide +kernel

theorem test_witness_Reset :
    (mach (eng 1 2 3 4) [.reset (Contents.zero .d163), .hostRead 1]).inputs
      = .reset (Contents.zero .d163) :: [.hostRead 1] := rfl

/-! ## Witnesses: the primitives -/

theorem test_witness_Getbit_Flipbit :
    ab.engine.err = false ∧ (191 : BitVec 16).toNat < 64 * lenOf .d163 (.e 0) ∧
      (383 : BitVec 16).toNat < 64 * lenOf .d163 (.c 0) := by decide +kernel

/-- BITLEN's two clauses: a register that is zero and one that is not. -/
theorem test_witness_Bitlen :
    ab.engine.err = false ∧ ab.engine.readV (.e 3) = 0 ∧ ab.engine.readV (.e 0) ≠ 0 := by
  decide +kernel

/-- LSH at the register's length and one below. -/
theorem test_witness_Lsh :
    ab.engine.err = false ∧ 64 * lenOf .d163 (.e 0) ≤ (192 : BitVec 16).toNat ∧
      ¬ 64 * lenOf .d163 (.e 0) ≤ (191 : BitVec 16).toNat := by decide +kernel

theorem test_witness_Xor :
    ab.engine.err = false ∧ lenOf .d163 (.e 2) = lenOf .d163 (.e 0) ∧
      lenOf .d163 (.e 0) = lenOf .d163 (.e 1) := by decide +kernel

theorem test_witness_Sxor :
    ab.engine.err = false ∧ lenOf .d163 (.c 1) = lenOf .d163 (.c 0) ∧
      lenOf .d163 (.e 1) ≤ lenOf .d163 (.c 0) ∧
      (192 : BitVec 16).toNat ≤ 64 * (lenOf .d163 (.c 0) - lenOf .d163 (.e 1)) := by
  decide +kernel

theorem test_witness_Getbits :
    ab.engine.err = false ∧ 1 ≤ (64 : BitVec 7).toNat ∧ (64 : BitVec 7).toNat ≤ 64 ∧
      (320 : BitVec 16).toNat + (64 : BitVec 7).toNat ≤ 64 * lenOf .d163 (.c 0) ∧
      1 ≤ (1 : BitVec 7).toNat ∧ (1 : BitVec 7).toNat ≤ 64 ∧
      (191 : BitVec 16).toNat + (1 : BitVec 7).toNat ≤ 64 * lenOf .d163 (.e 0) := by
  decide +kernel

theorem test_witness_Chlen_Red_Clrerr : ab.engine.err = false := by decide +kernel

/-- EQ's two clauses: bit-equal registers and registers that differ in a bit. -/
theorem test_witness_Eq :
    ab.engine.err = false ∧ lenOf .d163 (.e 0) = lenOf .d163 (.e 1) ∧
      (∀ p, (ab.engine.readV (.e 3)).testBit p = (ab.engine.readV (.e 4)).testBit p) ∧
      (ab.engine.readV (.e 0)).testBit 0 = (ab.engine.readV (.e 1)).testBit 0 ∧
      (ab.engine.readV (.e 0)).testBit 5 ≠ (ab.engine.readV (.e 1)).testBit 5 := by
  refine ⟨by decide +kernel, rfl, fun _ => rfl, ?_, ?_⟩ <;> decide +kernel

theorem test_witness_LimbLevel :
    2 ^ 384 - 1 < 2 ^ (64 * 6) ∧ opA < 2 ^ (64 * 6) ∧ 383 < 64 * 6 := by decide +kernel

theorem test_witness_ShiftedXorByLimbs :
    2 ^ 384 - 1 < 2 ^ (64 * 6) ∧ 2 ^ 192 - 1 < 2 ^ (64 * 3) ∧ 3 ≤ 6 ∧ 192 ≤ 64 * (6 - 3) := by
  decide +kernel

/-! ## Witnesses: the field commands -/

/-- Canonical sources at the largest value, and a non-zero one: ADD, MULW, the multiplications,
SQRW, INV. -/
theorem test_witness_field_commands :
    let m := eng (2 ^ 163 - 1) opB 7 0
    m.err = false ∧ m.readE 0 < 2 ^ FieldId.degree .d163 ∧ m.readE 1 < 2 ^ FieldId.degree .d163 ∧
      m.readE 0 ≠ 0 := by decide +kernel

/-- Two registers that hold one canonical value: the squarings. -/
theorem test_witness_Squarings :
    let m := eng (2 ^ 163 - 1) (2 ^ 163 - 1) 7 0
    m.err = false ∧ m.readE 0 < 2 ^ FieldId.degree .d163 ∧ m.readE 1 = m.readE 0 := by
  decide +kernel

theorem test_witness_RemainderIsUnique : IsRemainder .d163 (2 ^ 163) 0xC9 :=
  ⟨by decide +kernel, 1, by decide +kernel⟩

theorem test_witness_WindowedComb :
    2 ^ 192 - 1 < 2 ^ (64 * FieldId.limbs .d163) := by decide +kernel

theorem test_witness_InversionLoop_and_laws :
    0 < opA ∧ opA < 2 ^ FieldId.degree .d163 ∧ opB < 2 ^ FieldId.degree .d163 ∧
      0 < 2 ^ 571 - 1 ∧ 2 ^ 571 - 1 < 2 ^ FieldId.degree .d571 := by decide +kernel

theorem test_witness_InvOfZero : ab.engine.err = false ∧ ab.engine.readE 3 = 0 := by
  decide +kernel

theorem test_witness_NonCanonical :
    (eng 1 (2 ^ 163) 0 0).err = false ∧ 1 ∈ canonicalSources (.mul 2 0 1) ∧
      2 ^ FieldId.degree .d163 ≤ (eng 1 (2 ^ 163) 0 0).readE 1 := by decide +kernel

/-- A machine about to square E0 D times. -/
theorem test_witness_Frobenius :
    let s := mach (eng opA 0 0 0)
      (commandWrites .d163 (List.replicate (FieldId.degree .d163) (.sqr 0 0)))
    s.engine.err = false ∧ s.engine.readE 0 < 2 ^ s.field.degree ∧
      s.inputs = commandWrites .d163 (List.replicate (FieldId.degree .d163) (.sqr 0 0)) ++ [] := by
  decide +kernel

/-! ## Witnesses: the host's macros and conversions -/

theorem test_witness_Div :
    let s := mach (eng opA opB 0 0) (commandWrites .d163 (divMacro 2 0 1 3))
    s.engine.err = false ∧ (3 : EReg) ≠ 0 ∧ s.engine.readE 0 < 2 ^ s.field.degree ∧
      s.engine.readE 1 < 2 ^ s.field.degree ∧ s.engine.readE 1 ≠ 0 ∧
      s.inputs = commandWrites .d163 (divMacro 2 0 1 3) ++ [] := by decide +kernel

theorem test_witness_DivByZero :
    let s := mach (eng opA 0 0 0) (commandWrites .d163 (divMacro 2 0 1 3))
    s.engine.err = false ∧ s.engine.readE 1 = 0 ∧
      s.inputs = commandWrites .d163 (divMacro 2 0 1 3) ++ [] := by decide +kernel

theorem test_witness_Pow :
    let s := mach (eng opA 0 0 0) (commandWrites .d163 (powMacro 2 0 5 3))
    s.engine.err = false ∧ (2 : EReg) ≠ 3 ∧ (2 : EReg) ≠ 0 ∧
      s.engine.readE 0 < 2 ^ s.field.degree ∧
      s.inputs = commandWrites .d163 (powMacro 2 0 5 3) ++ [] := by decide +kernel

theorem test_witness_Sqrt :
    let s := mach (eng opA 0 0 0) (commandWrites .d163 (sqrtMacro .d163 1 0))
    s.engine.err = false ∧ s.engine.readE 0 < 2 ^ s.field.degree ∧
      s.inputs = commandWrites .d163 (sqrtMacro .d163 1 0) ++ [] := by decide +kernel

/-- The largest canonical value, as an integer and as limbs. -/
theorem test_witness_ConversionsRoundTrip :
    2 ^ 571 - 1 < 2 ^ FieldId.degree .d571 ∧
      ([0xFFFFFFFFFFFFFFFF, 0xFFFFFFFFFFFFFFFF, 0x7FFFFFFFF] : List Word).length
        = FieldId.limbs .d163 ∧
      toInt [0xFFFFFFFFFFFFFFFF, 0xFFFFFFFFFFFFFFFF, 0x7FFFFFFFF]
        < 2 ^ FieldId.degree .d163 := by decide +kernel

/-- A machine about to store E0, which is not canonical, and to load E1 with what it stores. -/
def storeThenLoad : State :=
  mach (eng (2 ^ 192 - 1) 0 0 0) (storeReg .d163 (.e 0) ++ loadReg .d163 (.e 1) (2 ^ 192 - 1))

theorem test_witness_StoreThenLoad :
    ∃ t, Runs (2 * FieldId.limbs .d163) storeThenLoad t ∧
      storedInt ((t.answers.drop (FieldId.limbs .d163)).take (FieldId.limbs .d163)).reverse
        = some (2 ^ 192 - 1) := by
  refine ⟨_, rfl, ?_⟩
  decide +kernel

/-- A string of the wrong length, one with a character that is no digit, and one that is accepted. -/
theorem test_witness_MalformedHex :
    (['0', '2'].filter fun ch => !isSpace ch).length ≠ FieldId.hexLen .d163 ∧
      hexDigit 'g' = none ∧ isSpace 'g' = false ∧
      fromHex .d163 "00000000000000000000000000000000000000000g".toList
        = .error (.malformedInput 42) := by decide +kernel

end Sys2Proof.Tests
end

section
/-! # The remainder modulo f is unique

SUPPORT, then O40. The carryless product is additive in its first factor, and the leading bit of a
product is the product of the leading bits: a non-zero multiple of f has a bit at or above `D`. -/

namespace Sys2Proof.Machine

/-! ## The carryless product: additivity and the leading bit -/

@[simp] theorem clmul_zero_left (b : Nat) : clmul 0 b = 0 := rfl

theorem clmulLow_xor_left (a a' b n : Nat) :
    clmulLow (a ^^^ a') b n = clmulLow a b n ^^^ clmulLow a' b n := by
  induction n with
  | zero => simp
  | succ n ih =>
    have hterm : (if (a ^^^ a').testBit n then b <<< n else 0)
        = (if a.testBit n then b <<< n else 0) ^^^ (if a'.testBit n then b <<< n else 0) := by
      rw [Nat.testBit_xor]
      cases a.testBit n <;> cases a'.testBit n <;> simp
    rw [clmulLow_succ, clmulLow_succ, clmulLow_succ, ih, hterm]
    ac_rfl

/-- `(A + A')·B = A·B + A'·B` over GF(2) (R12). -/
theorem clmul_xor_left (a a' b : Nat) : clmul (a ^^^ a') b = clmul a b ^^^ clmul a' b := by
  have ha : a < 2 ^ max (bitLength a) (bitLength a') := bitLength_le_iff.mp (le_max_left _ _)
  have ha' : a' < 2 ^ max (bitLength a) (bitLength a') := bitLength_le_iff.mp (le_max_right _ _)
  rw [← clmulLow_eq_clmul b ha, ← clmulLow_eq_clmul b ha',
    ← clmulLow_eq_clmul b (Nat.xor_lt_two_pow ha ha'), clmulLow_xor_left]

/-- `clmulLow_lt`, one bit sharper: `n` bits times a degree of at most `m`. -/
theorem clmulLow_lt_of_degree_le {b m : Nat} (a n : Nat) (hb : b < 2 ^ (m + 1)) :
    clmulLow a b n < 2 ^ (n + m) := by
  cases n with
  | zero => simp
  | succ n =>
    have hlow : clmulLow a b n < 2 ^ (n + 1 + m) := by
      have h := clmulLow_lt a n hb
      rwa [← Nat.add_assoc, Nat.add_right_comm] at h
    have hterm : (if a.testBit n then b <<< n else 0) < 2 ^ (n + 1 + m) := by
      split
      · rw [Nat.add_assoc, Nat.add_comm 1 m, Nat.add_comm n]
        exact Nat.shiftLeft_lt hb
      · positivity
    rw [clmulLow_succ]
    exact Nat.xor_lt_two_pow hlow hterm

/-- The coefficient of `x^(n+m)` in a product of degrees at most `n` and `m`. -/
theorem testBit_clmul_top {a b n m : Nat} (ha : a < 2 ^ (n + 1)) (hb : b < 2 ^ (m + 1)) :
    (clmul a b).testBit (n + m) = (a.testBit n && b.testBit m) := by
  have hlow : (clmulLow a b n).testBit (n + m) = false :=
    Nat.testBit_lt_two_pow (clmulLow_lt_of_degree_le a n hb)
  rw [← clmulLow_eq_clmul b ha, clmulLow_succ, Nat.testBit_xor, hlow]
  cases a.testBit n <;> simp [Nat.testBit_shiftLeft]

/-- A multiple of a polynomial of degree `m` that has degree below `m` is the zero multiple. -/
theorem eq_zero_of_clmul_lt {a b m : Nat} (hb : b < 2 ^ (m + 1)) (hm : b.testBit m = true)
    (h : clmul a b < 2 ^ m) : a = 0 := by
  by_contra ha
  have htop : (clmul a b).testBit (Nat.log2 a + m) = true := by
    rw [testBit_clmul_top Nat.lt_log2_self hb, Nat.testBit_log2 ha, hm]
    rfl
  have hle : 2 ^ m ≤ 2 ^ (Nat.log2 a + m) :=
    Nat.pow_le_pow_right (by norm_num) (Nat.le_add_left _ _)
  exact absurd (hle.trans (Nat.ge_two_pow_of_testBit htop)) (by omega)

end Sys2Proof.Machine

/-! ## The reduction polynomial has degree `D` -/

namespace Sys2Proof

/-- r(x) has degree below `D` (R7). -/
theorem FieldId.r_lt (F : FieldId) : F.r < 2 ^ F.degree := by
  have hr : F.r < 2 ^ 113 := by cases F <;> norm_num [FieldId.r]
  have hD : 113 ≤ F.degree := by cases F <;> norm_num [FieldId.degree]
  exact hr.trans_le (Nat.pow_le_pow_right (by norm_num) hD)

theorem FieldId.poly_lt (F : FieldId) : F.poly < 2 ^ (F.degree + 1) := by
  have h := F.r_lt
  rw [FieldId.poly, pow_succ]
  omega

@[simp] theorem FieldId.testBit_poly_degree (F : FieldId) : F.poly.testBit F.degree = true := by
  rw [FieldId.poly, Nat.testBit_two_pow_add_eq, Nat.testBit_lt_two_pow F.r_lt]
  rfl

end Sys2Proof

/-! ## Uniqueness -/

namespace Sys2Proof.Machine

/-- The only multiple of f below `2^D` is 0. -/
theorem eq_zero_of_clmul_poly_lt {F : FieldId} {q : Nat} (h : clmul q F.poly < 2 ^ F.degree) :
    q = 0 :=
  eq_zero_of_clmul_lt F.poly_lt F.testBit_poly_degree h

/-- Two remainders of one polynomial differ by a multiple of f. -/
theorem IsRemainder.exists_xor_eq {F : FieldId} {c t t' : Nat} (h : IsRemainder F c t)
    (h' : IsRemainder F c t') : ∃ q, clmul q F.poly = t ^^^ t' := by
  obtain ⟨_, q, hq⟩ := h
  obtain ⟨_, q', hq'⟩ := h'
  refine ⟨q ^^^ q', ?_⟩
  have hmul : clmul q F.poly = c ^^^ t := by rw [hq, Nat.xor_assoc, Nat.xor_self, Nat.xor_zero]
  have hmul' : clmul q' F.poly = c ^^^ t' := by rw [hq', Nat.xor_assoc, Nat.xor_self, Nat.xor_zero]
  calc clmul (q ^^^ q') F.poly = (c ^^^ t) ^^^ (c ^^^ t') := by rw [clmul_xor_left, hmul, hmul']
    _ = (c ^^^ c) ^^^ (t ^^^ t') := by ac_rfl
    _ = t ^^^ t' := by rw [Nat.xor_self, Nat.zero_xor]

/-- Settles O40: the difference of two remainders is a multiple of f below `2^D`, hence 0. -/
theorem remainderIsUnique : Obligations.RemainderIsUnique := by
  intro F c t t' h h'
  obtain ⟨q, hq⟩ := h.exists_xor_eq h'
  have hlt : clmul q F.poly < 2 ^ F.degree := hq ▸ Nat.xor_lt_two_pow h.1 h'.1
  have hq0 : q = 0 := eq_zero_of_clmul_poly_lt hlt
  rw [hq0, clmul_zero_left] at hq
  exact Nat.xor_eq_zero_iff.mp hq.symm

end Sys2Proof.Machine
end

section
/-! # What a command does, said once

SUPPORT, then O11 and O12. With no fault latched a command makes the four tests of R241 in their
order and, if all pass, writes one value to the destination of R25. `commandValue` names the value,
`Engine.executed` the engine after the command; `exec_of_quiet` ties both to `exec`. -/

namespace Sys2Proof.Machine

variable {F : FieldId}

/-! ## The value and the destination -/

/-- What a completing command writes, as its own rule gives it; NOP and CLRERR write no value. -/
def commandValue (m : Engine F) : Instr → Nat
  | .nop | .clrerr => 0
  | .getbit ra k => getBit (m.readV ra) k.toNat
  | .flipbit rd k => flipBit (m.readV rd) k.toNat
  | .bitlen ra => bitLength (m.readV ra)
  | .lsh rd k => leftShift (lenOf F rd) (m.readV rd) k.toNat
  | .xor _ ra rb => xorVec (m.readV ra) (m.readV rb)
  | .sxor _ ra rb k => shiftedXor (m.readV ra) (m.readV rb) k.toNat
  | .getbits ra k n => getBits (m.readV ra) k.toNat n.toNat
  | .chlen rd ra => changeLength (m.readV ra) (lenOf F rd)
  | .eq ra rb => if m.readV ra = m.readV rb then 1 else 0
  | .add _ ra rb => xorVec (m.readE ra) (m.readE rb)
  | .red _ ra => reduce F (m.readC ra)
  | .mulw _ ra rb => mulw F (m.readE ra) (m.readE rb)
  | .mul _ ra rb =>
    if m.readE ra = m.readE rb then reduce F (sqrw F (m.readE ra))
    else reduce F (mulw F (m.readE ra) (m.readE rb))
  | .mulsa _ ra rb => reduce F (shiftAndAdd F (m.readE ra) (m.readE rb))
  | .mulrl _ ra rb => reduce F (rightComb F (m.readE ra) (m.readE rb))
  | .mullr _ ra rb => reduce F (leftComb F (m.readE ra) (m.readE rb))
  | .mulnr _ ra rb => noReduceMul F (m.readE ra) (m.readE rb)
  | .sqrw _ ra => sqrw F (m.readE ra)
  | .sqr _ ra => reduce F (sqrw F (m.readE ra))
  | .sqrb _ ra => reduce F (sqrbSpread F (m.readE ra))
  | .inv _ ra => inv F (m.readE ra)

/-- The value `v` arrives at a destination of R25; CLRERR's effect takes none. -/
def Engine.writeDest (m : Engine F) : Destination → Nat → Engine F
  | .nothing, _ => m
  | .latch, _ => m.clearFault
  | .res, v => m.writeRes v
  | .vec r, v => m.writeV r v

/-- The engine after the command `i`, if no fault was latched before it: the first failing test of
R241 is latched, or the value is written. -/
def Engine.executed (m : Engine F) (i : Instr) : Engine F :=
  match commandFault m i with
  | none => m.writeDest (destination i) (commandValue m i)
  | some x => m.raise x (encode i)

theorem Engine.executed_of_none {m : Engine F} {i : Instr} (h : commandFault m i = none) :
    m.executed i = m.writeDest (destination i) (commandValue m i) := by
  rw [Engine.executed, h]

theorem Engine.executed_of_some {m : Engine F} {i : Instr} {x : EngineFault}
    (h : commandFault m i = some x) : m.executed i = m.raise x (encode i) := by
  rw [Engine.executed, h]

/-! ## Every command is its tests and its write -/

/-- The four tests in the order of R241, each as the commands' rules make it. -/
def Engine.tested (m : Engine F) (i : Instr) (body : Engine F → Engine F) : Engine F :=
  m.check i.wellFormed .illegalCommand i fun m =>
    m.check (!rangeBad F i) .operandRange i fun m =>
      m.check (!(canonicalSources i).any fun r => !m.canonicalE r) .nonCanonical i fun m =>
        m.check (!zeroDivisor m i) .divideByZero i body

/-- The tests latch the fault of R241's table. -/
theorem Engine.tested_writeDest (m : Engine F) (i : Instr) :
    m.tested i (fun m => m.writeDest (destination i) (commandValue m i)) = m.executed i := by
  unfold Engine.tested Engine.executed commandFault
  cases i.wellFormed with
  | false => rfl
  | true =>
    cases rangeBad F i with
    | true => rfl
    | false =>
      cases hcanon : (canonicalSources i).any fun r => !m.canonicalE r with
      | true => simp [hcanon]
      | false => cases hzero : zeroDivisor m i <;> simp [hcanon, hzero]

/-- Every command but CLRERR passes the latch test of R80 and then makes its tests. A test that its
rule does not have is one that R241's table never fails. -/
theorem exec_eq_command {i : Instr} (h : i ≠ .clrerr) (s : State) :
    exec i s = s.command fun m =>
      m.tested i fun m => m.writeDest (destination i) (commandValue m i) := by
  cases i with
  | clrerr => exact absurd rfl h
  | nop | bitlen | lsh | red | chlen | xor | eq => rfl
  | getbit | flipbit | getbits | sxor =>
    simp only [Engine.tested, rangeBad, Bool.not_not]
    rfl
  | sqrw | sqr | sqrb | inv | add | mulw | mul | mulsa | mulrl | mullr | mulnr =>
    simp only [Engine.tested, canonicalSources, List.any_cons, List.any_nil, Bool.or_false,
      Bool.not_or, Bool.not_not]
    rfl

/-- R80, R241: what any command does to an engine with no fault latched. -/
theorem exec_of_quiet {s : State} (h : s.engine.err = false) (i : Instr) :
    exec i s = .next (s.withEngine (s.engine.executed i)) := by
  by_cases hi : i = .clrerr
  · subst hi
    rfl
  · rw [exec_eq_command hi, State.command_of_quiet h, Engine.tested_writeDest]

/-- R237: while a fault is latched, every command but CLRERR is ignored. -/
theorem exec_of_err {s : State} (h : s.engine.err = true) {i : Instr} (hi : i ≠ .clrerr) :
    exec i s = .next s := by
  rw [exec_eq_command hi, State.command_of_err h]

/-! ## A write changes its destination alone -/

theorem OnlyVecChanges.writeV (m : Engine F) (r : VReg) (v : Nat) :
    OnlyVecChanges r m (m.writeV r v) :=
  ⟨fun _ h => m.writeV_readV_ne v h, m.writeV_status r v, m.writeV_res r v, m.writeV_ecmd r v⟩

theorem OnlyResChanges.writeRes (m : Engine F) (v : Nat) : OnlyResChanges m (m.writeRes v) :=
  ⟨rfl, rfl, rfl, rfl⟩

theorem OnlyLatchChanges.clearFault (m : Engine F) : OnlyLatchChanges m m.clearFault :=
  ⟨rfl, rfl, rfl⟩

/-- Settles O11: a completing command is one write to its destination. -/
theorem completingCommandWritesOnlyItsDestination :
    Obligations.CompletingCommandWritesOnlyItsDestination := by
  intro i s hquiet hfault
  refine ⟨s.engine.executed i, exec_of_quiet hquiet i, ?_⟩
  rw [Engine.executed_of_none hfault]
  cases destination i with
  | nothing => rfl
  | latch => exact ⟨.clearFault _, rfl, rfl⟩
  | res => exact .writeRes _ _
  | vec r => exact .writeV _ r _

/-! ## A command reads its sources alone -/

section
variable {m m' : Engine F} {i : Instr}

/-- A field command with tested sources reads those and no others (R25, R233). -/
theorem canonicalSources_cases (i : Instr) :
    canonicalSources i = [] ∨ sources i = (canonicalSources i).map VReg.e := by
  cases i with
  | nop | clrerr | getbit | flipbit | bitlen | lsh | xor | sxor | getbits | chlen | eq | red =>
    exact .inl rfl
  | add | mulw | mul | mulsa | mulrl | mullr | mulnr | sqrw | sqr | sqrb | inv => exact .inr rfl

theorem mem_sources_of_mem_canonicalSources {r : EReg} (h : r ∈ canonicalSources i) :
    VReg.e r ∈ sources i := by
  rcases canonicalSources_cases i with hnil | hmap
  · rw [hnil] at h
    exact absurd h List.not_mem_nil
  · rw [hmap]
    exact List.mem_map_of_mem h

theorem commandValue_congr (h : ∀ r ∈ sources i, m'.readV r = m.readV r) :
    commandValue m' i = commandValue m i := by
  cases i with
  | nop | clrerr => rfl
  | getbit | flipbit | bitlen | lsh | getbits | chlen | red | sqrw | sqr | sqrb | inv =>
    simp only [sources, List.forall_mem_singleton, Engine.readV_elem, Engine.readV_wide] at h
    simp only [commandValue, h]
  | xor | sxor | eq | add | mulw | mul | mulsa | mulrl | mullr | mulnr =>
    simp only [sources, List.forall_mem_cons, Engine.readV_elem] at h
    obtain ⟨ha, hb, -⟩ := h
    simp only [commandValue, ha, hb]

theorem zeroDivisor_congr (h : ∀ r ∈ sources i, m'.readV r = m.readV r) :
    zeroDivisor m' i = zeroDivisor m i := by
  cases i with
  | inv rd ra =>
    have hra : m'.readE ra = m.readE ra := h (.e ra) (List.mem_singleton_self _)
    rw [zeroDivisor, zeroDivisor, hra]
  | _ => rfl

theorem commandFault_congr (h : ∀ r ∈ sources i, m'.readV r = m.readV r) :
    commandFault m' i = commandFault m i := by
  have hcanon : ∀ r ∈ canonicalSources i, m'.canonicalE r = m.canonicalE r := fun r hr => by
    have hread : m'.readE r = m.readE r := h _ (mem_sources_of_mem_canonicalSources hr)
    rw [Engine.canonicalE, Engine.canonicalE, hread]
  have hany : ((canonicalSources i).any fun r => !m'.canonicalE r)
      = (canonicalSources i).any fun r => !m.canonicalE r :=
    Bool.eq_iff_iff.mpr <| by
      rw [List.any_eq_true, List.any_eq_true]
      exact exists_congr fun r => and_congr_right fun hr => by rw [hcanon r hr]
  rw [commandFault, commandFault, hany, zeroDivisor_congr h]

end

/-- Settles O12: the fault and the value written are functions of the sources. -/
theorem commandDependsOnItsSourcesAlone : Obligations.CommandDependsOnItsSourcesAlone := by
  intro i s m hs hm hsrc
  have hfault : commandFault m i = commandFault s.engine i := commandFault_congr hsrc
  refine ⟨s.engine.executed i, m.executed i, exec_of_quiet hs i,
    exec_of_quiet (s := s.withEngine m) hm i, hfault, fun hnone => ?_⟩
  rw [Engine.executed_of_none hnone, Engine.executed_of_none (hfault.trans hnone),
    commandValue_congr hsrc]
  constructor
  · intro hd
    rw [hd]
    rfl
  · intro r hd
    rw [hd]
    exact (m.writeV_readV_self r _).trans (s.engine.writeV_readV_self r _).symm

end Sys2Proof.Machine
end

section
/-! # The engine after a reset

O16 and O26: a reset zeroes STATUS, RES and ECMD (R260), and cleared STATUS and ECMD are
consistent. -/

namespace Sys2Proof.Machine

theorem LatchConsistent.zero (F : FieldId) : LatchConsistent F 0 0 := .inl ⟨rfl, rfl⟩

theorem State.initial_inv (F : FieldId) (draw : Contents F) : (State.initial F draw).Inv :=
  .zero F

/-- Settles O16: `State.reset` is one of the initial states. -/
theorem resetStatesAreConsistent : Obligations.ResetStatesAreConsistent :=
  ⟨State.initial_inv, State.initial_inv _ _⟩

/-- Settles O26: the reset event is `Engine.afterReset`, written out. -/
theorem resetClearsControlState : Obligations.ResetClearsControlState := by
  intro s draw rest hinputs
  rw [step_reset hinputs]
  rfl

end Sys2Proof.Machine
end

section
/-! # The word of a command, and the words that are none

SUPPORT. The decoder gives every term back from its word, up to the length conditions
(30_encoding.md R85 to R87), and a word that meets `Legal` of R90 is the word of a term: a word that
is rejected is not legal. -/

namespace Sys2Proof

/-! ## Register specifiers -/

@[simp] theorem elemSpec_elemCode (r : EReg) : elemSpec (elemCode r) = .ok r := by
  revert r; decide

@[simp] theorem wideSpec_wideCode (q : CReg) : wideSpec (wideCode q) = .ok q := by
  revert q; decide

@[simp] theorem vecSpec_vecCode (r : VReg) : vecSpec (vecCode r) = .ok r := by
  cases r with
  | e r => revert r; decide
  | c q => revert q; decide

@[simp] theorem specUnits_vecCode (r : VReg) : specUnits (vecCode r) = r.units := by
  cases r with
  | e r => revert r; decide
  | c q => revert q; decide

theorem OperandClass.admits_unused_iff {x : BitVec 4} :
    OperandClass.unused.admits x = true ↔ 0 = x := by
  rw [OperandClass.admits, beq_iff_eq, eq_comm]

/-- Class E admits the specifiers of the element registers (R86). -/
theorem OperandClass.admits_classE_iff {x : BitVec 4} :
    OperandClass.classE.admits x = true ↔ ∃ r, elemCode r = x := by
  revert x; decide

/-- Class C admits the specifiers of the wide registers (R86). -/
theorem OperandClass.admits_classC_iff {x : BitVec 4} :
    OperandClass.classC.admits x = true ↔ ∃ q, wideCode q = x := by
  revert x; decide

/-- Class V admits the specifiers of the vector registers (R88). -/
theorem OperandClass.admits_classV_iff {x : BitVec 4} :
    OperandClass.classV.admits x = true ↔ ∃ r, vecCode r = x := by
  have hcodes : OperandClass.classV.admits x = true ↔
      (∃ r, elemCode r = x) ∨ ∃ q, wideCode q = x := by revert x; decide
  rw [hcodes]
  constructor
  · rintro (⟨r, hr⟩ | ⟨q, hq⟩)
    · exact ⟨.e r, hr⟩
    · exact ⟨.c q, hq⟩
  · rintro ⟨r | q, hr⟩
    · exact .inl ⟨r, hr⟩
    · exact .inr ⟨q, hr⟩

/-! ## Decoding a command's word -/

/-- Decoding a term's word gives the term back, or rejects it for its lengths (R87). -/
theorem decode_encode (i : Instr) : decode (encode i) = checkLengths i := by
  rw [decode, ofWord_encode]
  cases i <;>
    simp [Instr.fields, commandFields, decodeFields, Fields.only, Fields.threeElems,
      Fields.twoElems, checkLengths, Instr.wellFormed, bind, Except.bind, pure, Except.pure]

theorem decode_encode_of_wellFormed {i : Instr} (h : i.wellFormed = true) :
    decode (encode i) = .ok i := by
  rw [decode_encode, checkLengths, if_pos h]

/-! ## Legal words -/

/-- The conditions of R90 on a word whose opcode is `row`'s. -/
def OpcodeRow.Admits (row : OpcodeRow) (f : Fields) : Prop :=
  row.opcode = f.opcode ∧ row.rd.admits f.rd = true ∧ row.ra.admits f.ra = true ∧
    row.rb.admits f.rb = true ∧ (row.usesN = false → 0 = f.n) ∧ (row.usesK = false → 0 = f.k) ∧
    0 = f.z1 ∧ 0 = f.z2 ∧ lengthsAdmitted f = true

/-- A legal word meets the conditions of a row of R83 (R90). -/
theorem exists_row_of_legal {w : Word} (h : legal w = true) :
    ∃ row ∈ opcodeRows, row.Admits (Fields.ofWord w) := by
  unfold legal at h
  dsimp only at h
  split at h
  · exact absurd h Bool.false_ne_true
  · next row hrow =>
    simp only [Bool.and_eq_true, Bool.or_eq_true, beq_iff_eq] at h
    obtain ⟨⟨⟨⟨⟨⟨⟨hz1, hz2⟩, hrd⟩, hra⟩, hrb⟩, hn⟩, hk⟩, hlen⟩ := h
    refine ⟨row, List.mem_of_find?_eq_some hrow, ?_, hrd, hra, hrb, ?_, ?_, hz1.symm, hz2.symm,
      hlen⟩
    · exact beq_iff_eq.mp (List.find?_some (p := fun r : OpcodeRow => r.opcode == _) hrow)
    · intro hu
      simpa [hu, eq_comm] using hn
    · intro hu
      simpa [hu, eq_comm] using hk

/-! ## Every legal word is a command's word -/

/-- The fields a system row admits are those of one of its commands (R83). -/
theorem exists_command_of_systemRows {row : OpcodeRow} (hrow : row ∈ systemRows) {f : Fields}
    (h : row.Admits f) : ∃ i : Instr, i.wellFormed = true ∧ i.fields = f := by
  obtain ⟨op, rd, ra, rb, z1, n, z2, k⟩ := f
  simp only [systemRows, List.mem_cons, List.not_mem_nil, or_false] at hrow
  rcases hrow with rfl | rfl
  all_goals simp only [OpcodeRow.Admits, OperandClass.admits_unused_iff, forall_const] at h
  · obtain ⟨rfl, rfl, rfl, rfl, rfl, rfl, rfl, rfl, -⟩ := h
    exact ⟨.nop, rfl, rfl⟩
  · obtain ⟨rfl, rfl, rfl, rfl, rfl, rfl, rfl, rfl, -⟩ := h
    exact ⟨.clrerr, rfl, rfl⟩

/-- The fields a primitive row admits are those of one of its commands (R83). -/
theorem exists_command_of_primitiveRows {row : OpcodeRow} (hrow : row ∈ primitiveRows) {f : Fields}
    (h : row.Admits f) : ∃ i : Instr, i.wellFormed = true ∧ i.fields = f := by
  obtain ⟨op, rd, ra, rb, z1, n, z2, k⟩ := f
  simp only [primitiveRows, List.mem_cons, List.not_mem_nil, or_false] at hrow
  rcases hrow with rfl | rfl | rfl | rfl | rfl | rfl | rfl | rfl | rfl
  all_goals simp only [OpcodeRow.Admits, OperandClass.admits_unused_iff,
    OperandClass.admits_classV_iff, reduceCtorEq, false_implies, forall_const, true_and] at h
  · obtain ⟨rfl, rfl, ⟨ra, rfl⟩, rfl, rfl, rfl, rfl, -⟩ := h
    exact ⟨.getbit ra k, rfl, rfl⟩
  · obtain ⟨rfl, ⟨rd, rfl⟩, rfl, rfl, rfl, rfl, rfl, -⟩ := h
    exact ⟨.flipbit rd k, rfl, rfl⟩
  · obtain ⟨rfl, rfl, ⟨ra, rfl⟩, rfl, rfl, rfl, rfl, rfl, -⟩ := h
    exact ⟨.bitlen ra, rfl, rfl⟩
  · obtain ⟨rfl, ⟨rd, rfl⟩, rfl, rfl, rfl, rfl, rfl, -⟩ := h
    exact ⟨.lsh rd k, rfl, rfl⟩
  · obtain ⟨rfl, ⟨rd, rfl⟩, ⟨ra, rfl⟩, ⟨rb, rfl⟩, rfl, rfl, rfl, rfl, hlen⟩ := h
    exact ⟨.xor rd ra rb, by simpa [Instr.wellFormed, lengthsAdmitted] using hlen, rfl⟩
  · obtain ⟨rfl, ⟨rd, rfl⟩, ⟨ra, rfl⟩, ⟨rb, rfl⟩, rfl, rfl, rfl, hlen⟩ := h
    exact ⟨.sxor rd ra rb k, by simpa [Instr.wellFormed, lengthsAdmitted] using hlen, rfl⟩
  · obtain ⟨rfl, rfl, ⟨ra, rfl⟩, rfl, rfl, rfl, -⟩ := h
    exact ⟨.getbits ra k n, rfl, rfl⟩
  · obtain ⟨rfl, ⟨rd, rfl⟩, ⟨ra, rfl⟩, rfl, rfl, rfl, rfl, rfl, -⟩ := h
    exact ⟨.chlen rd ra, rfl, rfl⟩
  · obtain ⟨rfl, rfl, ⟨ra, rfl⟩, ⟨rb, rfl⟩, rfl, rfl, rfl, rfl, hlen⟩ := h
    exact ⟨.eq ra rb, by simpa [Instr.wellFormed, lengthsAdmitted] using hlen, rfl⟩

/-- The row shape of ADD and the five field multiplications: the operands are found. -/
theorem exists_command_of_threeElems {mn : String} {op : BitVec 8} {mb mask : Word} {f : Fields}
    (mk : EReg → EReg → EReg → Instr)
    (hmk : ∀ rd ra rb, (mk rd ra rb).wellFormed = true ∧
      (mk rd ra rb).fields = commandFields op (elemCode rd) (elemCode ra) (elemCode rb))
    (h : OpcodeRow.Admits ⟨mn, op, .classE, .classE, .classE, false, false, mb, mask⟩ f) :
    ∃ i : Instr, i.wellFormed = true ∧ i.fields = f := by
  obtain ⟨_, rd, ra, rb, z1, n, z2, k⟩ := f
  simp only [OpcodeRow.Admits, OperandClass.admits_classE_iff, forall_const] at h
  obtain ⟨rfl, ⟨rd, rfl⟩, ⟨ra, rfl⟩, ⟨rb, rfl⟩, rfl, rfl, rfl, rfl, -⟩ := h
  exact ⟨mk rd ra rb, hmk rd ra rb⟩

/-- The row shape of SQR, SQRB and INV: the operands are found. -/
theorem exists_command_of_twoElems {mn : String} {op : BitVec 8} {mb mask : Word} {f : Fields}
    (mk : EReg → EReg → Instr)
    (hmk : ∀ rd ra, (mk rd ra).wellFormed = true ∧
      (mk rd ra).fields = commandFields op (elemCode rd) (elemCode ra))
    (h : OpcodeRow.Admits ⟨mn, op, .classE, .classE, .unused, false, false, mb, mask⟩ f) :
    ∃ i : Instr, i.wellFormed = true ∧ i.fields = f := by
  obtain ⟨_, rd, ra, rb, z1, n, z2, k⟩ := f
  simp only [OpcodeRow.Admits, OperandClass.admits_classE_iff, OperandClass.admits_unused_iff,
    forall_const] at h
  obtain ⟨rfl, ⟨rd, rfl⟩, ⟨ra, rfl⟩, rfl, rfl, rfl, rfl, rfl, -⟩ := h
  exact ⟨mk rd ra, hmk rd ra⟩

/-- The fields a field row admits are those of one of its commands (R83). -/
theorem exists_command_of_fieldRows {row : OpcodeRow} (hrow : row ∈ fieldRows) {f : Fields}
    (h : row.Admits f) : ∃ i : Instr, i.wellFormed = true ∧ i.fields = f := by
  simp only [fieldRows, List.mem_cons, List.not_mem_nil, or_false] at hrow
  rcases hrow with rfl | rfl | rfl | rfl | rfl | rfl | rfl | rfl | rfl | rfl | rfl | rfl
  · exact exists_command_of_threeElems .add (fun _ _ _ => ⟨rfl, rfl⟩) h
  · obtain ⟨op, rd, ra, rb, z1, n, z2, k⟩ := f
    simp only [OpcodeRow.Admits, OperandClass.admits_unused_iff, OperandClass.admits_classE_iff,
      OperandClass.admits_classC_iff, forall_const] at h
    obtain ⟨rfl, ⟨rd, rfl⟩, ⟨ra, rfl⟩, rfl, rfl, rfl, rfl, rfl, -⟩ := h
    exact ⟨.red rd ra, rfl, rfl⟩
  · obtain ⟨op, rd, ra, rb, z1, n, z2, k⟩ := f
    simp only [OpcodeRow.Admits, OperandClass.admits_classE_iff, OperandClass.admits_classC_iff,
      forall_const] at h
    obtain ⟨rfl, ⟨rd, rfl⟩, ⟨ra, rfl⟩, ⟨rb, rfl⟩, rfl, rfl, rfl, rfl, -⟩ := h
    exact ⟨.mulw rd ra rb, rfl, rfl⟩
  · exact exists_command_of_threeElems .mul (fun _ _ _ => ⟨rfl, rfl⟩) h
  · exact exists_command_of_threeElems .mulsa (fun _ _ _ => ⟨rfl, rfl⟩) h
  · exact exists_command_of_threeElems .mulrl (fun _ _ _ => ⟨rfl, rfl⟩) h
  · exact exists_command_of_threeElems .mullr (fun _ _ _ => ⟨rfl, rfl⟩) h
  · exact exists_command_of_threeElems .mulnr (fun _ _ _ => ⟨rfl, rfl⟩) h
  · obtain ⟨op, rd, ra, rb, z1, n, z2, k⟩ := f
    simp only [OpcodeRow.Admits, OperandClass.admits_unused_iff, OperandClass.admits_classE_iff,
      OperandClass.admits_classC_iff, forall_const] at h
    obtain ⟨rfl, ⟨rd, rfl⟩, ⟨ra, rfl⟩, rfl, rfl, rfl, rfl, rfl, -⟩ := h
    exact ⟨.sqrw rd ra, rfl, rfl⟩
  · exact exists_command_of_twoElems .sqr (fun _ _ => ⟨rfl, rfl⟩) h
  · exact exists_command_of_twoElems .sqrb (fun _ _ => ⟨rfl, rfl⟩) h
  · exact exists_command_of_twoElems .inv (fun _ _ => ⟨rfl, rfl⟩) h

/-- R90: a legal word is the word of a term that meets R87. -/
theorem exists_encode_eq_of_legal {w : Word} (h : legal w = true) :
    ∃ i : Instr, i.wellFormed = true ∧ encode i = w := by
  obtain ⟨row, hrow, hadmits⟩ := exists_row_of_legal h
  have hcommand : ∃ i : Instr, i.wellFormed = true ∧ i.fields = Fields.ofWord w := by
    rw [opcodeRows, List.mem_append, List.mem_append] at hrow
    rcases hrow with (hsystem | hprimitive) | hfield
    · exact exists_command_of_systemRows hsystem hadmits
    · exact exists_command_of_primitiveRows hprimitive hadmits
    · exact exists_command_of_fieldRows hfield hadmits
  obtain ⟨i, hwf, hfields⟩ := hcommand
  exact ⟨i, hwf, by rw [encode, hfields, Fields.toWord_ofWord]⟩

/-- R90, R231: a word that the decoder rejects is not legal. -/
theorem legal_eq_false_of_decode_error {w : Word} {e : DecodeError} (h : decode w = .error e) :
    legal w = false := by
  by_contra hlegal
  obtain ⟨i, hwf, rfl⟩ := exists_encode_eq_of_legal (Bool.not_eq_false _ ▸ hlegal)
  rw [decode_encode_of_wellFormed hwf] at h
  cases h

/-- The word the encoder gives a term that breaks R87 is no command's word (R87). -/
theorem legal_encode_eq_false {i : Instr} (h : i.wellFormed = false) :
    legal (encode i) = false := by
  refine legal_eq_false_of_decode_error (e := .lengthMismatch) ?_
  rw [decode_encode, checkLengths, h]
  rfl

end Sys2Proof
end

section
/-! # Every step keeps STATUS and ECMD consistent

O15. STATUS and ECMD change in three ways only: a fault is latched with a word that can raise it,
CLRERR clears both, a reset clears both (R236, R239, R260). -/

namespace Sys2Proof.Machine

variable {F : FieldId}

/-! ## A latched fault and its word -/

/-- What a command term must be like to raise a fault of R241. -/
def CanRaise (F : FieldId) (i : Instr) : EngineFault → Prop
  | .illegalCommand => i.wellFormed = false
  | .operandRange => i.wellFormed = true ∧ rangeBad F i = true
  | .nonCanonical => i.wellFormed = true ∧ canonicalSources i ≠ []
  | .divideByZero => i.wellFormed = true ∧ ∃ rd ra, i = .inv rd ra

/-- Only INV has a zero test (R234). -/
theorem exists_inv_of_zeroDivisor {m : Engine F} {i : Instr} (h : zeroDivisor m i = true) :
    ∃ rd ra, i = .inv rd ra := by
  cases i with
  | inv rd ra => exact ⟨rd, ra, rfl⟩
  | _ => exact absurd h Bool.false_ne_true

/-- The tests before the failing one have passed (R241). -/
theorem canRaise_of_commandFault {m : Engine F} {i : Instr} {x : EngineFault}
    (h : commandFault m i = some x) : CanRaise F i x := by
  unfold commandFault at h
  cases hwf : i.wellFormed with
  | false =>
    rw [hwf] at h
    cases h
    exact hwf
  | true =>
    rw [hwf, if_neg (by decide)] at h
    split_ifs at h with hrange hcanon hzero <;> cases h
    · exact ⟨hwf, hrange⟩
    · refine ⟨hwf, fun hnil => ?_⟩
      rw [hnil] at hcanon
      exact absurd hcanon Bool.false_ne_true
    · exact ⟨hwf, exists_inv_of_zeroDivisor hzero⟩

/-- A fault latched with a word that is no command (R231). -/
theorem LatchConsistent.illegalWord {w : Word} (h : legal w = false) :
    LatchConsistent F EngineFault.illegalCommand.statusWord w :=
  .inr (.inl ⟨EngineFault.statusWord_illegalCommand, h⟩)

/-- A fault latched with the word of a term that can raise it (R230 to R236). -/
theorem CanRaise.latchConsistent {i : Instr} {x : EngineFault} (h : CanRaise F i x) :
    LatchConsistent F x.statusWord (encode i) := by
  cases x with
  | illegalCommand => exact .illegalWord (legal_encode_eq_false h)
  | operandRange =>
    obtain ⟨hwf, hrange⟩ := h
    exact .inr (.inr (.inl ⟨EngineFault.statusWord_operandRange, i,
      decode_encode_of_wellFormed hwf, hrange⟩))
  | nonCanonical =>
    obtain ⟨hwf, hsrc⟩ := h
    exact .inr (.inr (.inr (.inl ⟨EngineFault.statusWord_nonCanonical, i,
      decode_encode_of_wellFormed hwf, hsrc⟩)))
  | divideByZero =>
    obtain ⟨hwf, rd, ra, rfl⟩ := h
    exact .inr (.inr (.inr (.inr ⟨EngineFault.statusWord_divideByZero, rd, ra,
      decode_encode_of_wellFormed hwf⟩)))

/-! ## One command -/

/-- STATUS and ECMD of the engine are consistent: `State.Inv`, of the engine alone. -/
def Engine.LatchInv (m : Engine F) : Prop := LatchConsistent F m.status m.ecmd

theorem State.inv_withEngine_iff (s : State) (m : Engine s.field) :
    (s.withEngine m).Inv ↔ m.LatchInv := Iff.rfl

/-- Writing a destination leaves STATUS and ECMD as they were or clears both (R25). -/
theorem Engine.LatchInv.writeDest {m : Engine F} (h : m.LatchInv) (d : Destination) (v : Nat) :
    (m.writeDest d v).LatchInv := by
  cases d with
  | nothing => exact h
  | latch => exact .zero F
  | res => exact h
  | vec r =>
    rw [Engine.LatchInv, Engine.writeDest, Engine.writeV_status, Engine.writeV_ecmd]
    exact h

/-- A command latches a fault with a word that can raise it, or writes its destination. -/
theorem Engine.LatchInv.executed {m : Engine F} (h : m.LatchInv) (i : Instr) :
    (m.executed i).LatchInv := by
  cases hfault : commandFault m i with
  | none =>
    rw [Engine.executed_of_none hfault]
    exact h.writeDest _ _
  | some x =>
    rw [Engine.executed_of_some hfault]
    exact (canRaise_of_commandFault hfault).latchConsistent

/-- The invariant over one command, latched fault or not. -/
theorem exec_keeps_inv {s t : State} (hs : s.Inv) (i : Instr) (h : exec i s = .next t) : t.Inv := by
  cases herr : s.engine.err with
  | false =>
    rw [exec_of_quiet herr] at h
    cases h
    exact (s.inv_withEngine_iff _).mpr (Engine.LatchInv.executed hs i)
  | true =>
    by_cases hi : i = .clrerr
    · subst hi
      cases h
      exact .zero _
    · rw [exec_of_err herr hi] at h
      cases h
      exact hs

/-- The invariant over one word written to CMD: a command's, or one that is rejected (R80). -/
theorem executeWord_keeps_inv {s t : State} (hs : s.Inv) (w : Word)
    (h : executeWord w s = .next t) : t.Inv := by
  unfold executeWord at h
  split at h
  · next i _ => exact exec_keeps_inv hs i h
  · next e hdecode =>
    rcases s.command_cases fun m => m.raise .illegalCommand w with ⟨_, heq⟩ | ⟨_, heq⟩
    · rw [heq] at h
      cases h
      exact hs
    · rw [heq] at h
      cases h
      exact .illegalWord (legal_eq_false_of_decode_error hdecode)

/-! ## One step -/

theorem inv_of_step_eq {s t u : State} (h : step s = .next t) (heq : step s = .next u)
    (hu : u.Inv) : t.Inv := by
  rw [heq] at h
  cases h
  exact hu

/-- Settles O15: a word written to CMD keeps the latch consistent, a reset clears it, and no other
input touches it. -/
theorem everyStepKeepsLatchConsistent : Obligations.EveryStepKeepsLatchConsistent := by
  intro s t hs hstep
  rcases step_cases s with ⟨_, heq⟩ | ⟨a, rest, _, heq⟩ | ⟨a, w, rest, _, _, heq⟩ |
    ⟨a, v, rest, r, i, _, _, heq⟩ | ⟨a, v, rest, q, i, _, _, heq⟩ | ⟨a, v, rest, _, heq⟩ |
    ⟨draw, rest, _, heq⟩
  · exact inv_of_step_eq hstep heq hs
  · exact inv_of_step_eq hstep heq hs
  · exact executeWord_keeps_inv (s := s.answered rest .ok) hs w (heq ▸ hstep)
  · exact inv_of_step_eq hstep heq hs
  · exact inv_of_step_eq hstep heq hs
  · exact inv_of_step_eq hstep heq hs
  · exact inv_of_step_eq hstep heq (LatchConsistent.zero _)

end Sys2Proof.Machine
end

section
/-! # One limb of a limb vector

SUPPORT. Replacing a limb, bit by bit and limb by limb (R53), and a limb vector as the list of its
limbs (00_scope.md R11). -/

namespace Sys2Proof.Machine

/-! ## Replacing a limb -/

/-- Limb `i` ends where limb `n` begins, or below it. -/
theorem limb_end_le {i n : Nat} (h : i < n) : limbBits * i + limbBits ≤ limbBits * n :=
  Nat.mul_le_mul_left limbBits h

/-- A value split at limb `i`: the limbs below it, limb `i`, the limbs above it. -/
theorem eq_split_at_limb (x i : Nat) :
    x = 2 ^ (limbBits * i) * (2 ^ limbBits * (x >>> (limbBits * i) / 2 ^ limbBits) + limb x i)
      + x % 2 ^ (limbBits * i) := by
  rw [limb, Nat.div_add_mod, Nat.shiftRight_eq_div_pow, Nat.div_add_mod]

/-- Replacing limb `i` keeps the limbs below and above it. -/
theorem setLimb_eq_split (x i v : Nat) :
    setLimb x i v
      = 2 ^ (limbBits * i) * (2 ^ limbBits * (x >>> (limbBits * i) / 2 ^ limbBits) + v)
        + x % 2 ^ (limbBits * i) := by
  have hx := eq_split_at_limb x i
  rw [Nat.mul_add, Nat.mul_comm _ (limb x i)] at hx
  rw [setLimb, Nat.mul_add, Nat.mul_comm _ v]
  omega

theorem testBit_setLimb {v : Nat} (x i p : Nat) (hv : v < 2 ^ limbBits) :
    (setLimb x i v).testBit p
      = if limbBits * i ≤ p ∧ p < limbBits * i + limbBits then v.testBit (p - limbBits * i)
        else x.testBit p := by
  have hlow : x % 2 ^ (limbBits * i) < 2 ^ (limbBits * i) := Nat.mod_lt _ (by positivity)
  rw [setLimb_eq_split, Nat.testBit_two_pow_mul_add _ hlow, Nat.testBit_two_pow_mul_add _ hv]
  by_cases hbelow : p < limbBits * i
  · rw [if_pos hbelow, if_neg (by omega), Nat.testBit_mod_two_pow, decide_eq_true hbelow,
      Bool.true_and]
  · rw [if_neg hbelow]
    by_cases hin : p - limbBits * i < limbBits
    · rw [if_pos hin, if_pos (by omega)]
    · rw [if_neg hin, if_neg (by omega), Nat.testBit_div_two_pow, Nat.testBit_shiftRight]
      congr 1
      omega

/-- A limb replaced within `n` limbs stays within `n` limbs. -/
theorem setLimb_lt {x i v n : Nat} (hi : i < n) (hx : x < 2 ^ (limbBits * n))
    (hv : v < 2 ^ limbBits) : setLimb x i v < 2 ^ (limbBits * n) := by
  refine Nat.lt_pow_two_of_testBit _ fun p hp => ?_
  have hlimb := limb_end_le hi
  rw [testBit_setLimb x i p hv, if_neg (by omega)]
  exact Nat.testBit_lt_two_pow (hx.trans_le (Nat.pow_le_pow_right (by norm_num) hp))

/-- After limb `i` is replaced it is the new limb, and every other limb is as before (R53). -/
theorem limb_setLimb {v : Nat} (x i j : Nat) (hv : v < 2 ^ limbBits) :
    limb (setLimb x i v) j = if j = i then v else limb x j := by
  apply Nat.eq_of_testBit_eq
  intro p
  rw [testBit_limb, testBit_setLimb x i _ hv]
  by_cases hp : p < limbBits
  · rw [decide_eq_true hp, Bool.true_and]
    rcases lt_trichotomy j i with hji | rfl | hij
    · have hlimb := limb_end_le hji
      rw [if_neg (by omega), if_neg hji.ne, testBit_limb, decide_eq_true hp, Bool.true_and]
    · rw [if_pos (by omega), if_pos rfl, Nat.add_sub_cancel_left]
    · have hlimb := limb_end_le hij
      rw [if_neg (by omega), if_neg hij.ne', testBit_limb, decide_eq_true hp, Bool.true_and]
  · have hlt : (if j = i then v else limb x j) < 2 ^ limbBits := by
      split
      · exact hv
      · exact limb_lt x j
    rw [decide_eq_false hp, Bool.false_and]
    exact (Nat.testBit_lt_two_pow (hlt.trans_le
      (Nat.pow_le_pow_right (by norm_num) (Nat.not_lt.mp hp)))).symm

/-! ## A limb vector is its limbs -/

/-- Limb `i`, read as a port word: the value from bit `64·i` on, cut to 64 bits. -/
theorem ofNat_limb (x i : Nat) :
    BitVec.ofNat 64 (limb x i) = BitVec.ofNat 64 (x / 2 ^ (64 * i)) := by
  rw [limb, Nat.shiftRight_eq_div_pow]
  exact BitVec.eq_of_toNat_eq (Nat.mod_mod _ _)

theorem toNat_ofNat_limb (x i : Nat) : (BitVec.ofNat 64 (limb x i)).toNat = limb x i := by
  rw [BitVec.toNat_ofNat, Nat.mod_eq_of_lt (limb_lt x i)]

theorem toLimbs_succ (n x : Nat) :
    toLimbs (n + 1) x = x % 2 ^ limbBits :: toLimbs n (x >>> limbBits) := by
  rw [toLimbs, List.range_succ_eq_map, List.map_cons, List.map_map]
  congr 1
  refine List.map_congr_left fun i _ => ?_
  rw [Function.comp_apply, limb, limb, ← Nat.shiftRight_add, Nat.mul_succ, Nat.add_comm]

/-- The value re-assembled from the limbs of `x` (R11). -/
theorem ofLimbs_toLimbs {n x : Nat} (h : x < 2 ^ (limbBits * n)) : ofLimbs (toLimbs n x) = x := by
  induction n generalizing x with
  | zero =>
    have hzero : x = 0 := by simpa using h
    rw [hzero]
    rfl
  | succ n ih =>
    have hhigh : x >>> limbBits < 2 ^ (limbBits * n) := by
      rw [Nat.shiftRight_eq_div_pow]
      refine Nat.div_lt_of_lt_mul ?_
      rwa [← pow_add, Nat.add_comm, ← Nat.mul_succ]
    rw [toLimbs_succ, ofLimbs, ih hhigh, Nat.shiftRight_eq_div_pow, Nat.mod_add_div]

/-- Two values of `n` limbs with the same limbs are equal (R11). -/
theorem eq_of_limbs_eq {n x y : Nat} (hx : x < 2 ^ (limbBits * n)) (hy : y < 2 ^ (limbBits * n))
    (h : ∀ i < n, limb x i = limb y i) : x = y := by
  have hlimbs : toLimbs n x = toLimbs n y :=
    List.map_congr_left fun i hi => h i (List.mem_range.mp hi)
  rw [← ofLimbs_toLimbs hx, hlimbs, ofLimbs_toLimbs hy]

end Sys2Proof.Machine
end

section
/-! # The register port, address by address

SUPPORT, then O20 to O23. `portMap` is the inverse of the table of R56 (`portMap_eq_some_iff`); the
windows of both register files are treated as one, that of a vector register. -/

namespace Sys2Proof.Machine

variable {F : FieldId}

/-! ## The address map -/

/-- The address R56 gives what the port names. -/
def PortReg.address : PortReg → Nat
  | .cmd => 0
  | .status => 1
  | .res => 2
  | .ecmd => 3
  | .paramD => 4
  | .paramL => 5
  | .paramR0 => 6
  | .paramR1 => 7
  | .elemLimb r i => elemBase + 16 * r.val + i
  | .wideLimb q i => wideBase + 32 * q.val + i

/-- For a given `FIELD` the port has the whole control block, and of a register's window the slots
of its limbs (R55, R56). -/
def PortReg.Present (F : FieldId) : PortReg → Prop
  | .elemLimb _ i => i < F.limbs
  | .wideLimb _ i => i < 2 * F.limbs
  | _ => True

/-- `L ≤ 9`: the windows' strides 16 and 32 leave room for every register (R7, R56). -/
theorem limbs_le (F : FieldId) : F.limbs ≤ 9 := by cases F <;> decide

/-- The control block's rows of R56 are those below the element windows. -/
theorem controlMap_eq_some_iff {n : Nat} {p : PortReg} (hn : n < elemBase) :
    controlMap n = some p ↔ p.Present F ∧ n = p.address := by
  constructor
  · intro h
    unfold controlMap at h
    split at h <;> cases h <;> exact ⟨trivial, rfl⟩
  · rintro ⟨-, rfl⟩
    cases p with
    | elemLimb r i => exact absurd hn (by simp only [PortReg.address]; omega)
    | wideLimb q i => exact absurd hn (by simp only [PortReg.address, elemBase, wideBase]; omega)
    | _ => rfl

theorem portMap_of_lt {a : Addr} (h : a.toNat < elemBase) : portMap F a = controlMap a.toNat :=
  if_pos h

theorem portMap_elemLimb {a : Addr} {r : EReg} {i : Nat} (hi : i < F.limbs)
    (ha : a.toNat = elemBase + 16 * r.val + i) : portMap F a = some (.elemLimb r i) := by
  have hlimbs := limbs_le F
  have hlow : ¬ a.toNat < elemBase := by omega
  have hreg : (a.toNat - elemBase) / 16 = r.val := by omega
  have hslot : (a.toNat - elemBase) % 16 = i := by omega
  simp only [portMap, hlow, hreg, hslot, hi, r.isLt, if_false, if_true, dite_true]

theorem portMap_wideLimb {a : Addr} {q : CReg} {i : Nat} (hi : i < 2 * F.limbs)
    (ha : a.toNat = wideBase + 32 * q.val + i) : portMap F a = some (.wideLimb q i) := by
  have hlimbs := limbs_le F
  have hlow : ¬ a.toNat < elemBase := by simp only [elemBase, wideBase] at *; omega
  have helem : ¬ (a.toNat - elemBase) / 16 < 8 := by simp only [elemBase, wideBase] at *; omega
  have hwide : ¬ a.toNat < wideBase := by omega
  have hreg : (a.toNat - wideBase) / 32 = q.val := by omega
  have hslot : (a.toNat - wideBase) % 32 = i := by omega
  simp only [portMap, hlow, helem, hwide, hreg, hslot, hi, q.isLt, if_false, if_true, dite_true,
    dite_false]

/-- R56: an address names `p` exactly if it is the address of `p` and `p` is present. -/
theorem portMap_eq_some_iff {a : Addr} {p : PortReg} :
    portMap F a = some p ↔ p.Present F ∧ a.toNat = p.address := by
  by_cases hlow : a.toNat < elemBase
  · rw [portMap_of_lt hlow, controlMap_eq_some_iff hlow]
  constructor
  · intro h
    simp only [portMap, if_neg hlow] at h
    split_ifs at h with hreg hslot hgap hreg hslot <;> cases h
    · exact ⟨hslot, by simp only [PortReg.address]; omega⟩
    · exact ⟨hslot, by simp only [PortReg.address]; omega⟩
  · rintro ⟨hp, ha⟩
    cases p with
    | elemLimb r i => exact portMap_elemLimb hp ha
    | wideLimb q i => exact portMap_wideLimb hp ha
    | _ => exact absurd (show a.toNat < elemBase by rw [ha]; decide) hlow

/-! ## The window of a vector register -/

/-- Where the window of a vector register begins (R56). -/
def windowBase : VReg → Nat
  | .e r => elemBase + 16 * r.val
  | .c q => wideBase + 32 * q.val

/-- What the port names by limb `i` of a vector register (R56). -/
def limbReg : VReg → Nat → PortReg
  | .e r, i => .elemLimb r i
  | .c q, i => .wideLimb q i

theorem portMap_window {a : Addr} {r : VReg} {i : Nat} (hi : i < lenOf F r)
    (ha : a.toNat = windowBase r + i) : portMap F a = some (limbReg r i) := by
  cases r with
  | e r => exact portMap_elemLimb hi ha
  | c q => exact portMap_wideLimb hi ha

/-- The host's address of limb `i` lies in the port's 10 bits (R50, R131). -/
theorem limbAddr_toNat {r : VReg} {i : Nat} (hi : i < lenOf F r) :
    (limbAddr r i).toNat = windowBase r + i := by
  have hlimbs := limbs_le F
  cases r with
  | e r =>
    have hr := r.isLt
    simp only [lenOf] at hi
    simp only [limbAddr, elemAddr, windowBase, elemBase, BitVec.toNat_ofNat]
    omega
  | c q =>
    have hq := q.isLt
    simp only [lenOf] at hi
    simp only [limbAddr, wideAddr, windowBase, wideBase, BitVec.toNat_ofNat]
    omega

/-- A read of a limb answers the register's value from that limb on, cut to 64 bits (R52). -/
theorem Engine.hostRead_limb (m : Engine F) {a : Addr} {r : VReg} {i : Nat} (hi : i < lenOf F r)
    (ha : a.toNat = windowBase r + i) :
    m.hostRead a = .data (BitVec.ofNat 64 (limb (m.readV r) i)) := by
  rw [Engine.hostRead, portMap_window hi ha]
  cases r <;> rfl

/-- A write of a limb replaces it in the register's value (R53). -/
theorem step_hostWrite_limb {s : State} {a : Addr} {v : Word} {rest : List (Input s.field)}
    {r : VReg} {i : Nat} (hinputs : s.inputs = .hostWrite a v :: rest)
    (hi : i < lenOf s.field r) (ha : a.toNat = windowBase r + i) :
    step s = .next ((s.answered rest .ok).withEngine
      (s.engine.writeV r (setLimb (s.engine.readV r) i v.toNat))) := by
  rw [step_hostWrite hinputs, hostWrite, portMap_window hi ha]
  cases r <;> rfl

/-- The register after the write of its limb `i`: the new value fits, so no bit of it is lost. -/
theorem Engine.readV_writeV_setLimb (m : Engine F) {r : VReg} {i : Nat} (v : Word)
    (hi : i < lenOf F r) :
    (m.writeV r (setLimb (m.readV r) i v.toNat)).readV r = setLimb (m.readV r) i v.toNat :=
  m.writeV_readV_of_lt r (setLimb_lt hi (m.readV_lt r) v.isLt)

/-- R53, for a vector register: the write is answered `Ok`, replaces one limb unmasked, and changes
nothing else. -/
theorem step_hostWrite_replaces_limb {s : State} {a : Addr} {v : Word}
    {rest : List (Input s.field)} {r : VReg} {i : Nat}
    (hinputs : s.inputs = .hostWrite a v :: rest) (hi : i < lenOf s.field r)
    (ha : a.toNat = windowBase r + i) :
    ∃ m : Engine s.field, step s = .next ((s.answered rest .ok).withEngine m) ∧
      OnlyVecChanges r s.engine m ∧
      ∀ j, limb (m.readV r) j = if j = i then v.toNat else limb (s.engine.readV r) j := by
  refine ⟨_, step_hostWrite_limb hinputs hi ha, .writeV _ _ _, fun j => ?_⟩
  rw [s.engine.readV_writeV_setLimb v hi, limb_setLimb _ _ _ v.isLt]

/-- Settles O21: the window of an element register. -/
theorem hostWriteReplacesOneElementLimb : Obligations.HostWriteReplacesOneElementLimb :=
  fun _ _ _ _ r _ hinputs hi ha => step_hostWrite_replaces_limb (r := .e r) hinputs hi ha

/-- Settles O22: the window of a wide register. -/
theorem hostWriteReplacesOneWideLimb : Obligations.HostWriteReplacesOneWideLimb :=
  fun _ _ _ _ q _ hinputs hi ha => step_hostWrite_replaces_limb (r := .c q) hinputs hi ha

/-! ## Every other address -/

/-- Settles O23: such an address names neither CMD nor a limb, so the write goes to a read-only
register or to no register. -/
theorem otherWritesAreRefused : Obligations.OtherWritesAreRefused := by
  intro s a v rest hinputs hcmd helem hwide
  rw [step_hostWrite hinputs]
  rcases hostWrite_cases s a v rest with ⟨hmap, -⟩ | ⟨r, i, hmap, -⟩ | ⟨q, i, hmap, -⟩ | hrefused
  · obtain ⟨-, ha⟩ := portMap_eq_some_iff.mp hmap
    exact absurd (BitVec.eq_of_toNat_eq ha) hcmd
  · obtain ⟨hi, ha⟩ := portMap_eq_some_iff.mp hmap
    exact absurd ha (helem r i hi)
  · obtain ⟨hi, ha⟩ := portMap_eq_some_iff.mp hmap
    exact absurd ha (hwide q i hi)
  · exact hrefused

/-- A read of an address outside the readable ranges of R52 is refused: it names CMD or nothing. -/
theorem Engine.hostRead_eq_error (m : Engine F) {a : Addr}
    (hcontrol : ¬ (1 ≤ a.toNat ∧ a.toNat ≤ 7))
    (helem : ∀ (r : EReg) (i : Nat), i < F.limbs → a.toNat ≠ elemBase + 16 * r.val + i)
    (hwide : ∀ (q : CReg) (i : Nat), i < 2 * F.limbs → a.toNat ≠ wideBase + 32 * q.val + i) :
    m.hostRead a = .error := by
  cases hmap : portMap F a with
  | none => rw [Engine.hostRead, hmap]
  | some p =>
    obtain ⟨hp, ha⟩ := portMap_eq_some_iff.mp hmap
    cases p with
    | cmd => rw [Engine.hostRead, hmap]
    | elemLimb r i => exact absurd ha (helem r i hp)
    | wideLimb q i => exact absurd ha (hwide q i hp)
    | _ => exact absurd (by rw [ha]; decide) hcontrol

/-- Settles O20: the answer is `Engine.hostRead`, evaluated at each address of the control block, by
the window lemma at a limb, and refused elsewhere. -/
theorem hostReadFollowsTheMap : Obligations.HostReadFollowsTheMap := by
  intro s a rest hinputs
  refine ⟨s.engine.hostRead a, step_hostRead hinputs, ?status, ?res, ?ecmd, ?paramD, ?paramL,
    ?paramR0, ?paramR1, ?elem, ?wide, s.engine.hostRead_eq_error⟩
  case status | res | ecmd | paramD | paramL =>
    rintro rfl
    rfl
  case paramR0 =>
    rintro rfl
    exact congrArg Answer.data (BitVec.eq_of_toNat_eq (Nat.mod_mod _ _))
  case paramR1 =>
    rintro rfl
    exact congrArg (fun n => Answer.data (BitVec.ofNat 64 n)) (Nat.shiftRight_eq_div_pow _ _)
  case elem =>
    intro r i hi ha
    rw [s.engine.hostRead_limb (r := .e r) hi ha, ofNat_limb]
    rfl
  case wide =>
    intro q i hi ha
    rw [s.engine.hostRead_limb (r := .c q) hi ha, ofNat_limb]
    rfl

end Sys2Proof.Machine
end

section
/-! # One step of the port

O17 and O7: every input has exactly one outcome, and a command word written to CMD is executed. -/

namespace Sys2Proof.Machine

/-- Settles O7: the written word is decoded and its command runs. -/
theorem stepRunsTheDecodedCommand : Obligations.StepRunsTheDecodedCommand := by
  intro s w rest i hinputs hdecode
  rw [step_command hinputs, executeWord, hdecode]

/-- Settles O17: an idle step changes nothing; every other step takes one input, and a command
changes the engine alone. -/
theorem everyStepGivesANextState : Obligations.EveryStepGivesANextState := by
  intro s
  rcases step_cases s with ⟨hnil, heq⟩ | ⟨a, rest, hinputs, heq⟩ | ⟨a, w, rest, hinputs, -, heq⟩ |
    ⟨a, v, rest, r, i, hinputs, -, heq⟩ | ⟨a, v, rest, q, i, hinputs, -, heq⟩ |
    ⟨a, v, rest, hinputs, heq⟩ | ⟨draw, rest, hinputs, heq⟩
  · exact ⟨s, heq, rfl, by rw [hnil]; rfl, Nat.le_succ _⟩
  · exact ⟨_, heq, rfl, by rw [hinputs]; rfl, le_rfl⟩
  · obtain ⟨m, hexec⟩ := executeWord_withEngine w (s.answered rest .ok)
    exact ⟨_, heq.trans hexec, rfl, by rw [hinputs]; rfl, le_rfl⟩
  · exact ⟨_, heq, rfl, by rw [hinputs]; rfl, le_rfl⟩
  · exact ⟨_, heq, rfl, by rw [hinputs]; rfl, le_rfl⟩
  · exact ⟨_, heq, rfl, by rw [hinputs]; rfl, le_rfl⟩
  · exact ⟨_, heq, rfl, by rw [hinputs]; rfl, Nat.le_succ _⟩

end Sys2Proof.Machine
end

section
/-! # LOAD and STORE

O24 and O25. LOAD is an induction over the limbs still to be written: before limb `i` is written the
register agrees with `n` below it. STORE is a run of reads, which change nothing. -/

namespace Sys2Proof.Machine

variable {F : FieldId}

/-! ## Writing a vector register -/

/-- A later write of the same register replaces the earlier one. -/
@[simp] theorem Engine.writeV_writeV (m : Engine F) (r : VReg) (v w : Nat) :
    (m.writeV r v).writeV r w = m.writeV r w := by
  cases r with
  | e r => simp [Engine.writeE]
  | c q => simp [Engine.writeC]

/-- A register written with its own value stays as it was. -/
@[simp] theorem Engine.writeV_readV (m : Engine F) (r : VReg) : m.writeV r (m.readV r) = m := by
  cases r with
  | e r => simp [Engine.writeE, Engine.readE, Vector.get_eq_getElem]
  | c q => simp [Engine.writeC, Engine.readC, Vector.get_eq_getElem]

/-! ## Runs -/

theorem Runs.zero (s : State) : Runs 0 s s := rfl

theorem Runs.succ {n : Nat} {s t u : State} (hstep : step s = .next t) (hrun : Runs n t u) :
    Runs (n + 1) s u := by
  have hcore : Sys2Proof.core.step s = .next t := hstep
  simp only [Runs, Host.Core.run, hcore]
  exact hrun

/-! ## LOAD -/

/-- The writes of LOAD for the `k` limbs from limb `i` up (R131). -/
def loadFrom (F : FieldId) (r : VReg) (n i k : Nat) : List (Input F) :=
  (List.range' i k).map fun j => .hostWrite (limbAddr r j) (BitVec.ofNat 64 (limb n j))

theorem loadFrom_succ (r : VReg) (n i k : Nat) :
    loadFrom F r n i (k + 1)
      = .hostWrite (limbAddr r i) (BitVec.ofNat 64 (limb n i)) :: loadFrom F r n (i + 1) k := rfl

theorem loadReg_eq_loadFrom (r : VReg) (n : Nat) :
    loadReg F r n = loadFrom F r n 0 (lenOf F r) := by
  rw [loadReg, List.range_eq_range', loadFrom]

/-- A register that agrees with `n` below limb `i` agrees with it up to limb `i`, once that limb is
written. -/
theorem Engine.limbs_agree_succ {m : Engine F} {r : VReg} {n i : Nat} (hi : i < lenOf F r)
    (hdone : ∀ j < i, limb (m.readV r) j = limb n j) :
    ∀ j < i + 1, limb ((m.writeV r (setLimb (m.readV r) i
      (BitVec.ofNat 64 (limb n i)).toNat)).readV r) j = limb n j := by
  intro j hj
  rw [m.readV_writeV_setLimb _ hi, limb_setLimb _ _ _ (BitVec.isLt _), toNat_ofNat_limb]
  split
  · next heq => rw [heq]
  · next hne => exact hdone j (by omega)

/-- The rest of a LOAD, from a state whose register agrees with `n` below limb `i`. -/
theorem runs_loadFrom {r : VReg} {n : Nat} (k : Nat) :
    ∀ (i : Nat) (s : State) (rest : List (Input s.field)), i + k = lenOf s.field r →
      n < 2 ^ bitsOf s.field r → s.inputs = loadFrom s.field r n i k ++ rest →
      (∀ j < i, limb (s.engine.readV r) j = limb n j) →
      Runs k s
        { s with
          engine := s.engine.writeV r n
          inputs := rest
          answers := List.replicate k .ok ++ s.answers } := by
  induction k with
  | zero =>
    intro i s rest hlen hn hinputs hdone
    have hvalue : s.engine.readV r = n :=
      eq_of_limbs_eq (s.engine.readV_lt r) hn fun j hj => hdone j (by omega)
    have hrest : s.inputs = rest := hinputs
    rw [← hvalue, Engine.writeV_readV, ← hrest]
    exact .zero s
  | succ k ih =>
    intro i s rest hlen hn hinputs hdone
    have hi : i < lenOf s.field r := by omega
    have hlen' : i + 1 + k = lenOf s.field r := by omega
    rw [loadFrom_succ] at hinputs
    refine .succ (step_hostWrite_limb hinputs hi (limbAddr_toNat hi)) ?_
    rw [← s.engine.writeV_writeV r (setLimb (s.engine.readV r) i _) n, List.replicate_succ',
      List.append_assoc]
    exact ih (i + 1) ((s.answered _ .ok).withEngine _) rest hlen' hn rfl
      (Engine.limbs_agree_succ hi hdone)

/-- Settles O24: before the first write the register agrees with `n` below limb 0, that is
nowhere. -/
theorem loadFillsTheRegister : Obligations.LoadFillsTheRegister := by
  intro s r n rest hinputs hn
  rw [loadReg_eq_loadFrom] at hinputs
  exact runs_loadFrom _ 0 s rest (Nat.zero_add _) hn hinputs fun j hj =>
    absurd hj (Nat.not_lt_zero j)

/-! ## STORE -/

/-- A run of reads records what each answers, the latest first, and changes nothing else (R52). -/
theorem runs_hostReads (as : List Addr) :
    ∀ (s : State) (rest : List (Input s.field)), s.inputs = as.map .hostRead ++ rest →
      Runs as.length s
        { s with
          inputs := rest
          answers := (as.map s.engine.hostRead).reverse ++ s.answers } := by
  induction as with
  | nil =>
    intro s rest hinputs
    have hrest : s.inputs = rest := hinputs
    rw [← hrest]
    exact .zero s
  | cons a as ih =>
    intro s rest hinputs
    refine .succ (step_hostRead hinputs) ?_
    rw [List.map_cons, List.reverse_cons, List.append_assoc]
    exact ih (s.answered _ _) rest rfl

/-- The limb addresses STORE reads, in order (R132). -/
def storeAddrs (F : FieldId) (r : VReg) : List Addr := (List.range (lenOf F r)).map (limbAddr r)

theorem storeReg_eq_map (r : VReg) : storeReg F r = (storeAddrs F r).map .hostRead := by
  rw [storeReg, storeAddrs, List.map_map]
  rfl

theorem length_storeAddrs (r : VReg) : (storeAddrs F r).length = lenOf F r := by
  rw [storeAddrs, List.length_map, List.length_range]

/-- The answers of STORE are the register's limbs (R52, R132). -/
theorem Engine.map_hostRead_storeAddrs (m : Engine F) (r : VReg) :
    (storeAddrs F r).map m.hostRead
      = ((toLimbs (lenOf F r) (m.readV r)).map (BitVec.ofNat 64)).map .data := by
  rw [storeAddrs, toLimbs, List.map_map, List.map_map, List.map_map]
  refine List.map_congr_left fun i hi => ?_
  have hi := List.mem_range.mp hi
  exact m.hostRead_limb hi (limbAddr_toNat hi)

/-- Answers that carry words deliver the integer of those words (R132). -/
theorem storedInt_map_data (ws : List Word) : storedInt (ws.map .data) = some (toInt ws) := by
  have hwords : (ws.map Answer.data).mapM Answer.word = some ws := by
    induction ws with
    | nil => rfl
    | cons w ws ih => rw [List.map_cons, List.mapM_cons, ih]; rfl
  rw [storedInt, hwords]
  rfl

/-- The integer of the limbs of `x`, read as port words (R11, R132). -/
theorem toInt_toLimbs {n x : Nat} (h : x < 2 ^ (limbBits * n)) :
    toInt ((toLimbs n x).map (BitVec.ofNat 64)) = x := by
  have hwords : ((toLimbs n x).map (BitVec.ofNat 64)).map BitVec.toNat = toLimbs n x := by
    rw [toLimbs, List.map_map, List.map_map]
    exact List.map_congr_left fun i _ => toNat_ofNat_limb x i
  rw [toInt, hwords, ofLimbs_toLimbs h]

/-- STORE's answers re-assemble to the register's value (R132). -/
theorem Engine.storedInt_hostReads (m : Engine F) (r : VReg) :
    storedInt ((storeAddrs F r).map m.hostRead) = some (m.readV r) := by
  rw [m.map_hostRead_storeAddrs, storedInt_map_data, toInt_toLimbs (m.readV_lt r)]

/-- Settles O25: the reads answer the register's limbs, which re-assemble to its value. -/
theorem storeDeliversTheRegister : Obligations.StoreDeliversTheRegister := by
  intro s r rest hinputs
  rw [storeReg_eq_map] at hinputs
  refine ⟨((storeAddrs s.field r).map s.engine.hostRead).reverse, ?_, ?_⟩
  · rw [← length_storeAddrs]
    exact runs_hostReads _ s rest hinputs
  · rw [List.reverse_reverse, Engine.storedInt_hostReads]

end Sys2Proof.Machine
end

section
/-! # Decoding and encoding are inverse

O1 and O2. Every step of the decoder is inverted once: a specifier names the register whose code it
is, and a word is accepted only if its unused fields are zero (30_encoding.md R85 to R88). -/

namespace Sys2Proof

/-! ## The steps of the decoder, inverted -/

/-- A class-E specifier names one element register (R86). -/
theorem elemSpec_eq_ok_iff {x : BitVec 4} {r : EReg} : elemSpec x = .ok r ↔ elemCode r = x := by
  revert x r; decide

/-- A class-C specifier names one wide register (R86). -/
theorem wideSpec_eq_ok_iff {x : BitVec 4} {q : CReg} : wideSpec x = .ok q ↔ wideCode q = x := by
  revert x q; decide

/-- A class-V specifier names one vector register (R88). -/
theorem vecSpec_eq_ok_iff {x : BitVec 4} {r : VReg} : vecSpec x = .ok r ↔ vecCode r = x := by
  cases r with
  | e r => revert x r; decide
  | c q => revert x q; decide

theorem except_bind_eq_ok_iff {ε α β : Type} {x : Except ε α} {g : α → Except ε β} {b : β} :
    x >>= g = .ok b ↔ ∃ a, x = .ok a ∧ g a = .ok b := by
  cases x with
  | error e => simp [bind, Except.bind]
  | ok a => simp [bind, Except.bind]

theorem except_pure_eq_ok_iff {ε α : Type} {a b : α} :
    (pure a : Except ε α) = .ok b ↔ a = b := by
  simp [pure, Except.pure]

theorem ite_error_eq_ok_iff {ε α : Type} {c : Prop} [Decidable c] {x : Except ε α} {e : ε} {a : α} :
    (if c then x else .error e) = .ok a ↔ c ∧ x = .ok a := by
  by_cases hc : c <;> simp [hc]

/-- The length test passes a command on as it is (R87). -/
theorem checkLengths_eq_ok_iff {i j : Instr} :
    checkLengths i = .ok j ↔ i.wellFormed = true ∧ i = j := by
  rw [checkLengths, ite_error_eq_ok_iff, Except.ok.injEq]

theorem used_or_zero_iff {w : Nat} {used : Bool} {v : BitVec w} :
    (used || v == 0) = true ↔ (used = false → 0 = v) := by
  cases used <;> simp [eq_comm (a := v)]

/-- A command is accepted exactly if every field it does not use is zero (R85). -/
theorem Fields.only_eq_ok_iff {f : Fields} {rd ra rb n k : Bool} {x : Except DecodeError Instr}
    {i : Instr} :
    f.only rd ra rb n k x = .ok i ↔
      (rd = false → 0 = f.rd) ∧ (ra = false → 0 = f.ra) ∧ (rb = false → 0 = f.rb) ∧
        (n = false → 0 = f.n) ∧ (k = false → 0 = f.k) ∧ x = .ok i := by
  simp only [Fields.only, ite_error_eq_ok_iff, Bool.and_eq_true, used_or_zero_iff, and_assoc]

/-! ## The decoder, inverted -/

/-- R85, R87: what is decoded has the fields of the word and meets the length conditions. -/
theorem fields_eq_of_decodeFields {f : Fields} {i : Instr} (h : decodeFields f = .ok i) :
    i.fields = f ∧ i.wellFormed = true := by
  obtain ⟨op, rd, ra, rb, z1, n, z2, k⟩ := f
  unfold decodeFields at h
  split at h
  · cases h
  next hz =>
  obtain ⟨rfl, rfl⟩ : z1 = 0 ∧ z2 = 0 := by simpa only [ne_eq, not_or, not_not] using hz
  have hopcode {c : Nat} (hc : op.toNat = c) : op = BitVec.ofNat 8 c := by
    rw [← hc, BitVec.ofNat_toNat, BitVec.setWidth_eq]
  split at h
  case h_24 => cases h
  all_goals
    rename_i hc
    obtain rfl := hopcode hc
    simp only [Fields.threeElems, Fields.twoElems, Fields.only_eq_ok_iff, except_bind_eq_ok_iff,
      except_pure_eq_ok_iff, elemSpec_eq_ok_iff, wideSpec_eq_ok_iff, vecSpec_eq_ok_iff,
      checkLengths_eq_ok_iff, Except.ok.injEq, reduceCtorEq, false_implies, forall_const,
      true_and] at h
  -- NOP, CLRERR
  case h_1 | h_2 =>
    obtain ⟨rfl, rfl, rfl, rfl, rfl, rfl⟩ := h
    exact ⟨rfl, rfl⟩
  -- BITLEN
  case h_5 =>
    obtain ⟨rfl, rfl, rfl, rfl, ra, rfl, rfl⟩ := h
    exact ⟨rfl, rfl⟩
  -- GETBIT, FLIPBIT, LSH, and GETBITS, whose n is used
  case h_3 | h_4 | h_6 =>
    obtain ⟨rfl, rfl, rfl, r, rfl, rfl⟩ := h
    exact ⟨rfl, rfl⟩
  case h_9 =>
    obtain ⟨rfl, rfl, ra, rfl, rfl⟩ := h
    exact ⟨rfl, rfl⟩
  -- XOR, SXOR, EQ: the length conditions of R87
  case h_7 =>
    obtain ⟨rfl, rfl, rd, rfl, ra, rfl, rb, rfl, hwf, rfl⟩ := h
    exact ⟨rfl, hwf⟩
  case h_8 =>
    obtain ⟨rfl, rd, rfl, ra, rfl, rb, rfl, hwf, rfl⟩ := h
    exact ⟨rfl, hwf⟩
  case h_11 =>
    obtain ⟨rfl, rfl, rfl, ra, rfl, rb, rfl, hwf, rfl⟩ := h
    exact ⟨rfl, hwf⟩
  -- CHLEN, RED, SQRW, SQR, SQRB, INV: rd and ra
  case h_10 | h_13 | h_20 | h_21 | h_22 | h_23 =>
    obtain ⟨rfl, rfl, rfl, rd, rfl, ra, rfl, rfl⟩ := h
    exact ⟨rfl, rfl⟩
  -- ADD and the multiplications: rd, ra and rb
  case h_12 | h_14 | h_15 | h_16 | h_17 | h_18 | h_19 =>
    obtain ⟨rfl, rfl, rd, rfl, ra, rfl, rb, rfl, rfl⟩ := h
    exact ⟨rfl, rfl⟩

/-- R85: the word is rebuilt from what it decodes to. -/
theorem encode_eq_of_decode {w : Word} {i : Instr} (h : decode w = .ok i) :
    encode i = w ∧ i.wellFormed = true := by
  obtain ⟨hfields, hwf⟩ := fields_eq_of_decodeFields h
  exact ⟨by rw [encode, hfields, Fields.toWord_ofWord], hwf⟩

/-- Settles O1: the specifiers and fields of a command's word are read back one by one. -/
theorem decodeOfEncodeIsTheCommand : Obligations.DecodeOfEncodeIsTheCommand :=
  fun _ => decode_encode_of_wellFormed

/-- Settles O2, by inverting the decoder. -/
theorem encodeOfDecodeIsTheWord : Obligations.EncodeOfDecodeIsTheWord :=
  fun _ _ => encode_eq_of_decode

end Sys2Proof
end
section
/-! # Decoded words are the legal words

O3. A command's word meets R90's conditions; that a legal word is a command's word stands above. -/

namespace Sys2Proof

@[simp] theorem OperandClass.admits_unused_zero : OperandClass.unused.admits 0#4 = true := rfl

@[simp] theorem OperandClass.admits_classE_elemCode (r : EReg) :
    OperandClass.classE.admits (elemCode r) = true := admits_classE_iff.mpr ⟨r, rfl⟩

@[simp] theorem OperandClass.admits_classC_wideCode (q : CReg) :
    OperandClass.classC.admits (wideCode q) = true := admits_classC_iff.mpr ⟨q, rfl⟩

@[simp] theorem OperandClass.admits_classV_vecCode (r : VReg) :
    OperandClass.classV.admits (vecCode r) = true := admits_classV_iff.mpr ⟨r, rfl⟩

/-- A command's word is legal if its operand lengths meet R87. -/
theorem legal_encode_of_wellFormed {i : Instr} (h : i.wellFormed = true) :
    legal (encode i) = true := by
  rw [legal, ofWord_encode]
  cases i with
  | xor | sxor | eq =>
    simpa [Instr.fields, commandFields, rowOf, opcodeRows, systemRows, primitiveRows, fieldRows,
      lengthsAdmitted, Instr.wellFormed] using h
  | _ =>
    simp [Instr.fields, commandFields, rowOf, opcodeRows, systemRows, primitiveRows, fieldRows,
      lengthsAdmitted]

/-- R90: the words that decode are legal. -/
theorem legal_of_decode {w : Word} {i : Instr} (h : decode w = .ok i) : legal w = true := by
  obtain ⟨rfl, hwf⟩ := encode_eq_of_decode h
  exact legal_encode_of_wellFormed hwf

/-- R90: a legal word decodes, to a command whose word it is. -/
theorem exists_decode_of_legal {w : Word} (h : legal w = true) : ∃ i, decode w = .ok i := by
  obtain ⟨i, hwf, rfl⟩ := exists_encode_eq_of_legal h
  exact ⟨i, decode_encode_of_wellFormed hwf⟩

/-- Settles O3: the decoder and R90's test accept the words of the well-formed terms. -/
theorem decodeAcceptsExactlyLegalWords : Obligations.DecodeAcceptsExactlyLegalWords :=
  fun _ => ⟨fun ⟨_, h⟩ => legal_of_decode h, exists_decode_of_legal⟩

end Sys2Proof
end

section
/-! # Match and mask

O4 and O5. The mask and match words of R83 are built field by field from the operand classes (R84),
so `w & mask = match` is a condition on each field of `w`: the condition of R90 for every class but
V, of which the mask holds nothing. -/

namespace Sys2Proof

/-! ## The words of a row, field by field -/

/-- The bits of a specifier that a class's mask holds (R84). -/
def OperandClass.maskBits : OperandClass → BitVec 4
  | .unused => 0xF
  | .classE => 0x8
  | .classC => 0xE
  | .classV => 0x0

/-- The value of those bits (R84). -/
def OperandClass.matchBits : OperandClass → BitVec 4
  | .unused | .classE | .classV => 0x0
  | .classC => 0x8

/-- An immediate is held to zero unless the command uses it (R84). -/
def immMask {w : Nat} (used : Bool) : BitVec w := if used then 0 else BitVec.allOnes w

/-- The fields of a row's mask (R84). -/
def OpcodeRow.maskFields (row : OpcodeRow) : Fields where
  opcode := BitVec.allOnes 8
  rd := row.rd.maskBits
  ra := row.ra.maskBits
  rb := row.rb.maskBits
  z1 := BitVec.allOnes 5
  n := immMask row.usesN
  z2 := BitVec.allOnes 16
  k := immMask row.usesK

/-- The fields of a row's match (R84). -/
def OpcodeRow.matchFields (row : OpcodeRow) : Fields :=
  commandFields row.opcode row.rd.matchBits row.ra.matchBits row.rb.matchBits

/-- The bitwise and of two words, field by field. -/
def Fields.and (f g : Fields) : Fields where
  opcode := f.opcode &&& g.opcode
  rd := f.rd &&& g.rd
  ra := f.ra &&& g.ra
  rb := f.rb &&& g.rb
  z1 := f.z1 &&& g.z1
  n := f.n &&& g.n
  z2 := f.z2 &&& g.z2
  k := f.k &&& g.k

theorem Fields.toWord_and (f g : Fields) : (f.and g).toWord = f.toWord &&& g.toWord := by
  simp only [Fields.toWord, Fields.and, ← BitVec.and_append]

theorem Fields.toWord_inj {f g : Fields} : f.toWord = g.toWord ↔ f = g :=
  ⟨fun h => by rw [← Fields.ofWord_toWord f, h, Fields.ofWord_toWord], congrArg _⟩

/-- The tabulated words of R83 are those that R84 builds. -/
theorem mask_and_matchBits_eq {row : OpcodeRow} (h : row ∈ opcodeRows) :
    row.mask = row.maskFields.toWord ∧ row.matchBits = row.matchFields.toWord := by
  revert row
  decide

theorem and_mask_eq_iff {row : OpcodeRow} (h : row ∈ opcodeRows) (w : Word) :
    w &&& row.mask = row.matchBits ↔
      (Fields.ofWord w).and row.maskFields = row.matchFields := by
  obtain ⟨hmask, hmatch⟩ := mask_and_matchBits_eq h
  rw [← Fields.toWord_inj, Fields.toWord_and, Fields.toWord_ofWord, hmask, hmatch]

/-! ## One field -/

theorem OperandClass.and_maskBits_of_admits {c : OperandClass} {x : BitVec 4}
    (h : c.admits x = true) : x &&& c.maskBits = c.matchBits := by
  revert x
  cases c <;> decide

/-- A mask holds all of the conditions of R86 on a specifier, unless its class is V (R84). -/
theorem OperandClass.admits_of_and_maskBits {c : OperandClass} (hc : c ≠ .classV) {x : BitVec 4}
    (h : x &&& c.maskBits = c.matchBits) : c.admits x = true := by
  revert x
  cases c with
  | classV => exact absurd rfl hc
  | unused | classE | classC => decide

theorem and_immMask_eq_zero_iff {w : Nat} {used : Bool} {v : BitVec w} :
    v &&& immMask used = 0 ↔ (used = false → 0 = v) := by
  cases used <;> simp [immMask, eq_comm (a := v)]

/-- What `w & mask = match` says of the fields of `w`. -/
theorem Fields.and_maskFields_eq_iff {row : OpcodeRow} {f : Fields} :
    f.and row.maskFields = row.matchFields ↔
      f.opcode = row.opcode ∧ f.rd &&& row.rd.maskBits = row.rd.matchBits ∧
        f.ra &&& row.ra.maskBits = row.ra.matchBits ∧
        f.rb &&& row.rb.maskBits = row.rb.matchBits ∧ f.z1 = 0 ∧
        (row.usesN = false → 0 = f.n) ∧ f.z2 = 0 ∧ (row.usesK = false → 0 = f.k) := by
  simp only [Fields.and, OpcodeRow.maskFields, OpcodeRow.matchFields, commandFields,
    Fields.mk.injEq, BitVec.and_allOnes, and_immMask_eq_zero_iff]

/-! ## Match under mask and R90's conditions -/

theorem OpcodeRow.Admits.and_mask_eq {row : OpcodeRow} (hrow : row ∈ opcodeRows) {w : Word}
    (h : row.Admits (Fields.ofWord w)) : w &&& row.mask = row.matchBits := by
  obtain ⟨hop, hrd, hra, hrb, hn, hk, hz1, hz2, -⟩ := h
  rw [and_mask_eq_iff hrow, Fields.and_maskFields_eq_iff]
  exact ⟨hop.symm, OperandClass.and_maskBits_of_admits hrd, OperandClass.and_maskBits_of_admits hra,
    OperandClass.and_maskBits_of_admits hrb, hz1.symm, hn, hz2.symm, hk⟩

/-- The system and field rows have no operand of class V and no length condition (R87). -/
theorem no_classV_no_lengths {row : OpcodeRow} (h : row ∈ systemRows ++ fieldRows) :
    row ∈ opcodeRows ∧ row.rd ≠ .classV ∧ row.ra ≠ .classV ∧ row.rb ≠ .classV ∧
      row.opcode ≠ 0x14 ∧ row.opcode ≠ 0x15 ∧ row.opcode ≠ 0x18 := by
  revert row
  decide

theorem admits_of_and_mask_eq {row : OpcodeRow} (hrow : row ∈ systemRows ++ fieldRows) {w : Word}
    (h : w &&& row.mask = row.matchBits) : row.Admits (Fields.ofWord w) := by
  obtain ⟨hmem, hVd, hVa, hVb, hxor, hsxor, heq⟩ := no_classV_no_lengths hrow
  rw [and_mask_eq_iff hmem, Fields.and_maskFields_eq_iff] at h
  obtain ⟨hop, hrd, hra, hrb, hz1, hn, hz2, hk⟩ := h
  have hlen : lengthsAdmitted (Fields.ofWord w) = true := by
    simp only [lengthsAdmitted, hop, beq_iff_eq, hxor, hsxor, heq, if_false]
  exact ⟨hop.symm, OperandClass.admits_of_and_maskBits hVd hrd,
    OperandClass.admits_of_and_maskBits hVa hra, OperandClass.admits_of_and_maskBits hVb hrb,
    hn, hk, hz1.symm, hz2.symm, hlen⟩

/-! ## The row of a command -/

/-- No two rows of R83 have the same opcode. -/
theorem rowOf_opcode {row : OpcodeRow} (h : row ∈ opcodeRows) : rowOf row.opcode = some row := by
  revert row
  decide

/-- A word that meets a row's conditions is legal (R90). -/
theorem OpcodeRow.Admits.isLegal {row : OpcodeRow} (hrow : row ∈ opcodeRows) {w : Word}
    (h : row.Admits (Fields.ofWord w)) : legal w = true := by
  obtain ⟨hop, hrd, hra, hrb, hn, hk, hz1, hz2, hlen⟩ := h
  unfold legal
  simp only [← hop, rowOf_opcode hrow, Bool.and_eq_true, used_or_zero_iff]
  exact ⟨⟨⟨⟨⟨⟨⟨beq_iff_eq.mpr hz1.symm, beq_iff_eq.mpr hz2.symm⟩, hrd⟩, hra⟩, hrb⟩, hn⟩, hk⟩, hlen⟩

/-- The opcode of every command's word names the row with its mnemonic (R83). -/
theorem tableRow (i : Instr) : Laws.TableRow.Statement i := by
  cases i with
  | nop => exact Laws.TableRow.nop
  | clrerr => exact Laws.TableRow.clrerr
  | getbit => apply Laws.TableRow.getbit
  | flipbit => apply Laws.TableRow.flipbit
  | bitlen => apply Laws.TableRow.bitlen
  | lsh => apply Laws.TableRow.lsh
  | xor => apply Laws.TableRow.xor
  | sxor => apply Laws.TableRow.sxor
  | getbits => apply Laws.TableRow.getbits
  | chlen => apply Laws.TableRow.chlen
  | eq => apply Laws.TableRow.eq
  | add => apply Laws.TableRow.add
  | red => apply Laws.TableRow.red
  | mulw => apply Laws.TableRow.mulw
  | mul => apply Laws.TableRow.mul
  | mulsa => apply Laws.TableRow.mulsa
  | mulrl => apply Laws.TableRow.mulrl
  | mullr => apply Laws.TableRow.mullr
  | mulnr => apply Laws.TableRow.mulnr
  | sqrw => apply Laws.TableRow.sqrw
  | sqr => apply Laws.TableRow.sqr
  | sqrb => apply Laws.TableRow.sqrb
  | inv => apply Laws.TableRow.inv

/-- The row that admits a word carries the mnemonic of the word's command (R83). -/
theorem OpcodeRow.Admits.mnemonic_eq {row : OpcodeRow} (hrow : row ∈ opcodeRows) {i : Instr}
    (h : row.Admits (Fields.ofWord (encode i))) : row.mnemonic = Machine.mnemonicOf i := by
  obtain ⟨hop, -⟩ := h
  have htable := tableRow i
  rw [Laws.TableRow.Statement, ← hop, rowOf_opcode hrow] at htable
  exact Option.some.inj htable

/-- Settles O4: a decoded word meets the conditions of its row, and the mask holds some of them. -/
theorem matchUnderMaskIsNecessary : Obligations.MatchUnderMaskIsNecessary := by
  intro w i hdecode
  obtain ⟨row, hrow, hadmits⟩ := exists_row_of_legal (legal_of_decode hdecode)
  obtain ⟨rfl, -⟩ := encode_eq_of_decode hdecode
  exact ⟨row, hrow, hadmits.mnemonic_eq hrow, hadmits.and_mask_eq hrow⟩

/-- Settles O5: with no class-V operand the mask holds every condition of R90. -/
theorem matchUnderMaskSufficesWithoutClassV :
    Obligations.MatchUnderMaskSufficesWithoutClassV := by
  intro row hrow w hmatch
  obtain ⟨hmem, -⟩ := no_classV_no_lengths hrow
  have hadmits := admits_of_and_mask_eq hrow hmatch
  obtain ⟨i, hdecode⟩ := exists_decode_of_legal (hadmits.isLegal hmem)
  obtain ⟨rfl, -⟩ := encode_eq_of_decode hdecode
  exact ⟨i, hdecode, (hadmits.mnemonic_eq hmem).symm⟩

end Sys2Proof
end

section
/-! # A latched fault, and the worked encodings

O10 and O6. -/

namespace Sys2Proof.Machine

/-- R237: while a fault is latched, every word but CLRERR's is ignored, a command's or not. -/
theorem executeWord_of_err {s : State} (h : s.engine.err = true) {w : Word} (hw : w ≠ clrerrWord) :
    executeWord w s = .next s := by
  unfold executeWord
  split
  · next i hdecode =>
    refine exec_of_err h ?_
    rintro rfl
    exact hw (encode_eq_of_decode hdecode).1.symm
  · exact State.command_of_err h _

/-- Settles O10: the answered state has the same latch. -/
theorem latchedFaultIgnoresEveryOtherWord : Obligations.LatchedFaultIgnoresEveryOtherWord := by
  intro s w rest hinputs herr hw
  rw [step_command hinputs]
  exact executeWord_of_err (s := s.answered rest .ok) herr hw

/-- Settles O6: the seven accepted words are the encodings of R94's commands; the five others fail
the decoder's tests one by one. -/
theorem workedEncodingsDecode : Obligations.WorkedEncodingsDecode :=
  ⟨decode_encode_of_wellFormed (i := .clrerr) rfl,
    decode_encode_of_wellFormed (i := .getbit (.c 0) 163) rfl,
    decode_encode_of_wellFormed (i := .sxor (.c 0) (.c 0) (.e 1) 162) rfl,
    decode_encode_of_wellFormed (i := .getbits (.e 0) 160 4) rfl,
    decode_encode_of_wellFormed (i := .red 4 0) rfl,
    decode_encode_of_wellFormed (i := .mulw 0 0 1) rfl,
    decode_encode_of_wellFormed (i := .inv 3 1) rfl,
    rfl, rfl, rfl, rfl, rfl⟩

end Sys2Proof.Machine
end

section
/-! # The primitives limb by limb

O36 and O37. XORing into one limb is XORing a shifted limb into the value; get_bit, flip_bit,
bit_length, xor and shifted_xor follow from that and from the bits of a limb (R101 to R106). -/

namespace Sys2Proof.Machine

/-! ## One limb -/

/-- Limbwise XOR (R105). -/
theorem limb_xor (x y i : Nat) : limb (x ^^^ y) i = limb x i ^^^ limb y i := by
  rw [limb, limb, limb, Nat.shiftRight_xor_distrib, Nat.xor_mod_two_pow]

/-- XORing into limb `i` shifts what is XORed up to where that limb begins. -/
theorem xorIntoLimb_eq {x : Nat} (r i : Nat) (hx : x < 2 ^ limbBits) :
    xorIntoLimb r i x = r ^^^ (x <<< (limbBits * i)) := by
  apply Nat.eq_of_testBit_eq
  intro p
  rw [xorIntoLimb, testBit_setLimb r i p (Nat.xor_lt_two_pow (limb_lt r i) hx), Nat.testBit_xor,
    Nat.testBit_xor, Nat.testBit_shiftLeft]
  by_cases hbelow : p < limbBits * i
  · simp [hbelow.not_ge]
  by_cases hin : p - limbBits * i < limbBits
  · rw [if_pos (by omega), testBit_limb, decide_eq_true hin, Bool.true_and,
      Nat.add_sub_cancel' (Nat.not_lt.mp hbelow), decide_eq_true (Nat.not_lt.mp hbelow),
      Bool.true_and]
  · have habove : x.testBit (p - limbBits * i) = false :=
      Nat.testBit_lt_two_pow (hx.trans_le
        (Nat.pow_le_pow_right (by norm_num) (Nat.not_lt.mp hin)))
    rw [if_neg (by omega), habove, Bool.and_false, Bool.xor_false]

/-- The low `n + 1` limbs are the low `n` limbs and limb `n` on top. -/
theorem mod_limbs_succ (x n : Nat) :
    x % 2 ^ (limbBits * (n + 1)) = x % 2 ^ (limbBits * n) ^^^ (limb x n <<< (limbBits * n)) := by
  apply Nat.eq_of_testBit_eq
  intro p
  rw [Nat.testBit_xor, Nat.testBit_mod_two_pow, Nat.testBit_mod_two_pow, Nat.testBit_shiftLeft,
    testBit_limb, Nat.mul_succ]
  by_cases hbelow : p < limbBits * n
  · simp [hbelow, hbelow.not_ge, hbelow.trans_le (Nat.le_add_right _ limbBits)]
  · have hge := Nat.not_lt.mp hbelow
    have hlimb : p < limbBits * n + limbBits ↔ p - limbBits * n < limbBits := by omega
    simp [hbelow, hge, hlimb, Nat.add_sub_cancel' hge]

/-! ## get_bit, flip_bit, bit_length, xor -/

theorem getBitLimbs_eq_getBit (v i : Nat) : getBitLimbs v i = getBit v i := by
  have hbit : getBitLimbs v i = getBit (limb v (i / limbBits)) (i % limbBits) :=
    Nat.and_one_is_mod _
  rw [hbit, getBit_eq, getBit_eq, testBit_limb, decide_eq_true (Nat.mod_lt i (by norm_num)),
    Bool.true_and, Nat.div_add_mod]

theorem flipBitLimbs_eq_flipBit (v i : Nat) : flipBitLimbs v i = flipBit v i := by
  have hbit : 2 ^ (i % limbBits) < 2 ^ limbBits :=
    Nat.pow_lt_pow_right (by norm_num) (Nat.mod_lt i (by norm_num))
  calc flipBitLimbs v i = xorIntoLimb v (i / limbBits) (2 ^ (i % limbBits)) := rfl
    _ = v ^^^ (2 ^ (i % limbBits) <<< (limbBits * (i / limbBits))) := xorIntoLimb_eq v _ hbit
    _ = flipBit v i := by rw [Nat.shiftLeft_eq, ← pow_add, Nat.mod_add_div, flipBit]

/-- The bit length of a value that has bits at or above bit `k`: what is above, and the `k` bits
below (R103). -/
theorem bitLength_of_shiftRight_ne_zero {v k : Nat} (h : v >>> k ≠ 0) :
    bitLength v = k + bitLength (v >>> k) := by
  rw [Nat.shiftRight_eq_div_pow] at *
  have hv : v ≠ 0 := by
    rintro rfl
    exact h (Nat.zero_div _)
  have hlow := two_pow_le_of_bitLength h
  have hhigh := lt_two_pow_bitLength (v / 2 ^ k)
  rw [Nat.le_div_iff_mul_le (by positivity), ← pow_add] at hlow
  rw [Nat.div_lt_iff_lt_mul (by positivity), ← pow_add] at hhigh
  have hle := bitLength_le_iff.mpr hhigh
  have hge := mt bitLength_le_iff.mp hlow.not_gt
  omega

/-- R103's scan passes over zero limbs and stops at the top non-zero one. -/
theorem bitLengthScan_eq_bitLength {v n : Nat} (h : v < 2 ^ (limbBits * n)) :
    bitLengthScan v n = bitLength v := by
  induction n with
  | zero =>
    have hzero : v = 0 := by simpa using h
    rw [hzero]
    rfl
  | succ n ih =>
    have htop : v >>> (limbBits * n) < 2 ^ limbBits := by
      rw [Nat.shiftRight_eq_div_pow]
      refine Nat.div_lt_of_lt_mul ?_
      rwa [← pow_add, ← Nat.mul_succ]
    have hlimb : limb v n = v >>> (limbBits * n) := Nat.mod_eq_of_lt htop
    rw [bitLengthScan]
    split
    · next hzero =>
      rw [hlimb, Nat.shiftRight_eq_div_pow, Nat.div_eq_zero_iff_lt (by positivity)] at hzero
      exact ih hzero
    · next hne =>
      rw [hlimb] at hne ⊢
      rw [bitLength_of_shiftRight_ne_zero hne, bitLength, if_neg hne]

theorem xorLimbs_eq_xorVec {n a b : Nat} (ha : a < 2 ^ (limbBits * n))
    (hb : b < 2 ^ (limbBits * n)) : xorLimbs n a b = xorVec a b := by
  have hlimbs : (List.range n).map (fun i => limb a i ^^^ limb b i) = toLimbs n (a ^^^ b) :=
    List.map_congr_left fun i _ => (limb_xor a b i).symm
  rw [xorLimbs, hlimbs, ofLimbs_toLimbs (Nat.xor_lt_two_pow ha hb), xorVec]

/-- Settles O36. -/
theorem limbLevelPrimitivesAgree : Obligations.LimbLevelPrimitivesAgree :=
  fun _ v _ i hv hw _ =>
    ⟨getBitLimbs_eq_getBit v i, flipBitLimbs_eq_flipBit v i, bitLengthScan_eq_bitLength hv,
      xorLimbs_eq_xorVec hv hw⟩

/-! ## shifted_xor -/

/-- A shift inside `n` bits loses nothing (R106). -/
theorem shiftedXor_lt {a b k n m : Nat} (ha : a < 2 ^ n) (hb : b < 2 ^ m) (hk : m + k ≤ n) :
    shiftedXor a b k < 2 ^ n :=
  Nat.xor_lt_two_pow ha ((Nat.shiftLeft_lt hb).trans_le (Nat.pow_le_pow_right (by norm_num) hk))

/-- A limb shifted left by less than a limb is its low piece, and its high piece one limb up. -/
theorem low_xor_high_eq_shiftLeft {s : Nat} (x : Nat) (hs : s ≤ limbBits) :
    (x <<< s) % 2 ^ limbBits ^^^ ((x >>> (limbBits - s)) <<< limbBits) = x <<< s := by
  apply Nat.eq_of_testBit_eq
  intro p
  rw [Nat.testBit_xor, Nat.testBit_mod_two_pow, Nat.testBit_shiftLeft, Nat.testBit_shiftLeft,
    Nat.testBit_shiftRight]
  by_cases hp : p < limbBits
  · simp [hp, hp.not_ge]
  · have hge := Nat.not_lt.mp hp
    have hindex : limbBits - s + (p - limbBits) = p - s := by omega
    simp [hp, hge, hs.trans hge, hindex]

/-- One round XORs limb `i` of b, shifted to its place (R106). Skipping the high piece at `s = 0`
changes nothing, for it is 0 there. -/
theorem shiftedXorRound_eq {s : Nat} (b q r i : Nat) (hs : s < limbBits) :
    shiftedXorRound b q s r i = r ^^^ (limb b i <<< (s + limbBits * (q + i))) := by
  have hlow : (limb b i <<< s) % 2 ^ limbBits < 2 ^ limbBits := Nat.mod_lt _ (by positivity)
  have hhigh : limb b i >>> (limbBits - s) < 2 ^ limbBits :=
    (Nat.shiftRight_le _ _).trans_lt (limb_lt b i)
  have hsplit : shiftedXorRound b q s r i
      = r ^^^ (((limb b i <<< s) % 2 ^ limbBits) <<< (limbBits * (q + i)))
          ^^^ ((limb b i >>> (limbBits - s)) <<< (limbBits * (q + i + 1))) := by
    rw [shiftedXorRound, xorIntoLimb_eq r _ hlow, xorIntoLimb_eq _ _ hhigh]
    split
    · next hzero =>
      rw [hzero, Nat.sub_zero, Nat.shiftRight_eq_zero _ _ (limb_lt b i), Nat.zero_shiftLeft,
        Nat.xor_zero]
    · rfl
  rw [hsplit, Nat.mul_succ, Nat.add_comm _ limbBits, Nat.shiftLeft_add _ limbBits, Nat.xor_assoc,
    ← Nat.shiftLeft_xor_distrib, low_xor_high_eq_shiftLeft _ hs.le, Nat.shiftLeft_add]

/-- After `n` rounds the low `n` limbs of b have been XORed in (R106). -/
theorem shiftedXorLimbs_eq (n a b k : Nat) :
    shiftedXorLimbs n a b k = shiftedXor a (b % 2 ^ (limbBits * n)) k := by
  induction n with
  | zero => simp [shiftedXorLimbs, shiftedXor, Nat.mod_one]
  | succ n ih =>
    have hround : shiftedXorLimbs (n + 1) a b k
        = shiftedXorRound b (k / limbBits) (k % limbBits) (shiftedXorLimbs n a b k) n := by
      rw [shiftedXorLimbs, List.range_succ, List.foldl_concat, shiftedXorLimbs]
    have hplace : k % limbBits + limbBits * (k / limbBits + n) = limbBits * n + k := by
      rw [Nat.mul_add, ← Nat.add_assoc, Nat.mod_add_div, Nat.add_comm]
    rw [hround, shiftedXorRound_eq _ _ _ _ (Nat.mod_lt k (by norm_num)), hplace, ih, shiftedXor,
      shiftedXor, Nat.xor_assoc, Nat.shiftLeft_add, ← Nat.shiftLeft_xor_distrib, mod_limbs_succ]

/-- Settles O37: after all rounds the whole of b has been XORed in. -/
theorem shiftedXorByLimbsAgrees : Obligations.ShiftedXorByLimbsAgrees := by
  intro la lb a b k ha hb hlen hk
  refine ⟨?_, shiftedXor_lt ha hb (by omega)⟩
  rw [shiftedXorLimbs_eq, Nat.mod_eq_of_lt hb]

end Sys2Proof.Machine
end

section
/-! # The limb-vector primitive commands

O27 to O35. A primitive tests no source (R119), so it completes where its lengths and its range are
right, and then writes `commandValue` to RES or to one vector register that holds it whole. -/

namespace Sys2Proof.Machine

variable {F : FieldId}

/-! ## Completing commands -/

/-- A command without tested sources completes if its lengths and its range are right (R241). -/
theorem commandFault_eq_none {i : Instr} (m : Engine F) (hlen : i.wellFormed = true)
    (hrange : rangeBad F i = false) (hsrc : canonicalSources i = []) :
    commandFault m i = none := by
  have hzero : zeroDivisor m i = false := by
    cases i with
    | inv => cases hsrc
    | _ => rfl
  simp [commandFault, hlen, hrange, hsrc, hzero]

section
variable {s : State} {i : Instr}

theorem exec_of_noFault (hquiet : s.engine.err = false) (hfault : commandFault s.engine i = none) :
    exec i s = .next (s.withEngine
      (s.engine.writeDest (destination i) (commandValue s.engine i))) := by
  rw [exec_of_quiet hquiet, Engine.executed_of_none hfault]

/-- A completing command with a vector register as its destination leaves its value there and
changes nothing else, if the value fits. -/
theorem exec_writes_vec {rd : VReg} (hquiet : s.engine.err = false)
    (hfault : commandFault s.engine i = none) (hdest : destination i = .vec rd)
    (hfits : commandValue s.engine i < 2 ^ bitsOf s.field rd) :
    ∃ m : Engine s.field, exec i s = .next (s.withEngine m) ∧ OnlyVecChanges rd s.engine m ∧
      m.readV rd = commandValue s.engine i := by
  refine ⟨s.engine.writeV rd (commandValue s.engine i), ?_, .writeV _ _ _,
    s.engine.writeV_readV_of_lt rd hfits⟩
  rw [exec_of_noFault hquiet hfault, hdest]
  rfl

/-- A completing command with RES as its destination writes its value there, cut to 64 bits, and
changes nothing else. -/
theorem exec_writes_res (hquiet : s.engine.err = false)
    (hfault : commandFault s.engine i = none) (hdest : destination i = .res) :
    ∃ m : Engine s.field, exec i s = .next (s.withEngine m) ∧ OnlyResChanges s.engine m ∧
      m.res = BitVec.ofNat 64 (commandValue s.engine i) := by
  refine ⟨s.engine.writeRes (commandValue s.engine i), ?_, .writeRes _ _, rfl⟩
  rw [exec_of_noFault hquiet hfault, hdest]
  rfl

end

/-! ## Lengths -/

/-- `L` limbs for each unit of R87. -/
theorem lenOf_eq_units_mul (F : FieldId) (r : VReg) : lenOf F r = r.units * F.limbs := by
  cases r with
  | e r => exact (Nat.one_mul _).symm
  | c q => rfl

theorem limbs_pos (F : FieldId) : 0 < F.limbs := by cases F <;> decide

theorem units_eq_iff {r r' : VReg} : r.units = r'.units ↔ lenOf F r = lenOf F r' := by
  rw [lenOf_eq_units_mul, lenOf_eq_units_mul, Nat.mul_left_inj (limbs_pos F).ne']

theorem units_le_iff {r r' : VReg} : r.units ≤ r'.units ↔ lenOf F r ≤ lenOf F r' := by
  rw [lenOf_eq_units_mul, lenOf_eq_units_mul, Nat.mul_le_mul_right_iff (limbs_pos F)]

/-- The length condition of XOR, in limbs (R87). -/
theorem wellFormed_xor_iff {rd ra rb : VReg} :
    (Instr.xor rd ra rb).wellFormed = true
      ↔ lenOf F rd = lenOf F ra ∧ lenOf F ra = lenOf F rb := by
  rw [Instr.wellFormed, Bool.and_eq_true, beq_iff_eq, beq_iff_eq, units_eq_iff, units_eq_iff]

/-- The length condition of SXOR, in limbs (R87). -/
theorem wellFormed_sxor_iff {rd ra rb : VReg} {k : BitVec 16} :
    (Instr.sxor rd ra rb k).wellFormed = true
      ↔ lenOf F rd = lenOf F ra ∧ lenOf F rb ≤ lenOf F ra := by
  rw [Instr.wellFormed, Bool.and_eq_true, beq_iff_eq, decide_eq_true_iff, units_eq_iff,
    units_le_iff]

/-- The length condition of EQ, in limbs (R87). -/
theorem wellFormed_eq_iff {ra rb : VReg} :
    (Instr.eq ra rb).wellFormed = true ↔ lenOf F ra = lenOf F rb := by
  rw [Instr.wellFormed, beq_iff_eq, units_eq_iff]

/-- A value below the length of one register fits every register of that length. -/
theorem Engine.readV_lt_of_lenOf_eq (m : Engine F) {r r' : VReg} (h : lenOf F r' = lenOf F r) :
    m.readV r < 2 ^ bitsOf F r' := by
  rw [bitsOf, h]
  exact m.readV_lt r

/-! ## Ranges -/

theorem bitInRange_of_lt {r : VReg} {k : BitVec 16} (hk : k.toNat < 64 * lenOf F r) :
    bitInRange F r k = true := decide_eq_true hk

theorem fieldInRange_of_le {r : VReg} {k : BitVec 16} {n : BitVec 7} (hpos : 1 ≤ n.toNat)
    (hle : n.toNat ≤ 64) (hfit : k.toNat + n.toNat ≤ 64 * lenOf F r) :
    fieldInRange F r k n = true := by
  have hend : k.toNat + n.toNat ≤ bitsOf F r := hfit
  simp only [fieldInRange, hpos, hle, hend, decide_true, Bool.and_true]

theorem shiftInRange_of_le {ra rb : VReg} {k : BitVec 16}
    (hk : k.toNat ≤ 64 * (lenOf F ra - lenOf F rb)) : shiftInRange F ra rb k = true :=
  decide_eq_true hk

/-! ## Commands that write RES -/

/-- Settles O27. -/
theorem getbitWritesTheBit : Obligations.GetbitWritesTheBit := by
  intro s ra k hquiet hk
  have hrange : rangeBad s.field (.getbit ra k) = false := by
    rw [rangeBad, bitInRange_of_lt hk, Bool.not_true]
  rw [exec_of_noFault hquiet (commandFault_eq_none s.engine rfl hrange rfl)]
  simp only [destination, Engine.writeDest, commandValue, Engine.writeRes, getBit_eq]
  cases (s.engine.readV ra).testBit k.toNat <;> rfl

/-- Settles O29. -/
theorem bitlenWritesTheBitLength : Obligations.BitlenWritesTheBitLength := by
  intro s ra hquiet
  refine ⟨bitLength (s.engine.readV ra),
    exec_of_noFault hquiet (commandFault_eq_none s.engine rfl rfl rfl),
    bitLength_le_iff.mpr (s.engine.readV_lt ra), lt_two_pow_bitLength _, ?_,
    two_pow_le_of_bitLength⟩
  intro hzero
  rw [hzero, bitLength_zero]

/-- Settles O33: a field of at most 64 bits is read back from RES whole. -/
theorem getbitsWritesTheField : Obligations.GetbitsWritesTheField := by
  intro s ra k n hquiet hpos hle hfit
  have hrange : rangeBad s.field (.getbits ra k n) = false := by
    rw [rangeBad, fieldInRange_of_le hpos hle hfit, Bool.not_true]
  obtain ⟨m, hexec, honly, hres⟩ :=
    exec_writes_res hquiet (commandFault_eq_none s.engine rfl hrange rfl) rfl
  refine ⟨m, hexec, honly, ?_⟩
  have hfield : getBits (s.engine.readV ra) k.toNat n.toNat < 2 ^ 64 :=
    (Nat.mod_lt _ (by positivity)).trans_le (Nat.pow_le_pow_right (by norm_num) hle)
  rw [hres, commandValue, BitVec.toNat_ofNat, Nat.mod_eq_of_lt hfield, getBits,
    Nat.shiftRight_eq_div_pow]

/-- Settles O35. -/
theorem eqWritesBitEquality : Obligations.EqWritesBitEquality := by
  intro s ra rb hquiet hlen
  obtain ⟨m, hexec, honly, hres⟩ :=
    exec_writes_res hquiet
      (commandFault_eq_none s.engine (wellFormed_eq_iff.mpr hlen) rfl rfl) rfl
  refine ⟨m, hexec, honly, fun hsame => ?_, fun p hdiff => ?_⟩
  · rw [hres, commandValue, if_pos (Nat.eq_of_testBit_eq hsame)]
    rfl
  · have hne : s.engine.readV ra ≠ s.engine.readV rb := fun heq => hdiff (by rw [heq])
    rw [hres, commandValue, if_neg hne]
    rfl

/-! ## Commands that write a vector register -/

/-- Settles O28: the flipped bit lies inside the register. -/
theorem flipbitInvertsOneBit : Obligations.FlipbitInvertsOneBit := by
  intro s rd k hquiet hk
  have hrange : rangeBad s.field (.flipbit rd k) = false := by
    rw [rangeBad, bitInRange_of_lt hk, Bool.not_true]
  have hfits : flipBit (s.engine.readV rd) k.toNat < 2 ^ bitsOf s.field rd :=
    Nat.xor_lt_two_pow (s.engine.readV_lt rd) (Nat.pow_lt_pow_right (by norm_num) hk)
  obtain ⟨m, hexec, honly, hvalue⟩ :=
    exec_writes_vec hquiet (commandFault_eq_none s.engine rfl hrange rfl) rfl hfits
  refine ⟨m, hexec, honly, fun p => ?_⟩
  rw [hvalue, commandValue, testBit_flipBit, decide_eq_decide.mpr eq_comm]

/-- A shift by the whole length or more leaves nothing (R104). -/
theorem leftShift_eq_zero {len k : Nat} (v : Nat) (h : limbBits * len ≤ k) :
    leftShift len v k = 0 := by
  rw [leftShift, Nat.shiftLeft_eq]
  exact Nat.mod_eq_zero_of_dvd ((pow_dvd_pow 2 h).mul_left v)

/-- Settles O30. -/
theorem lshShiftsWithinTheRegister : Obligations.LshShiftsWithinTheRegister := by
  intro s rd k hquiet
  obtain ⟨m, hexec, honly, hvalue⟩ :=
    exec_writes_vec (i := .lsh rd k) hquiet (commandFault_eq_none s.engine rfl rfl rfl) rfl
      (Nat.mod_lt _ (by positivity))
  refine ⟨m, hexec, honly, fun p => ?_, fun hk => ?_⟩
  · rw [hvalue, commandValue, testBit_leftShift, Bool.and_assoc]
  · rw [hvalue, commandValue, leftShift_eq_zero _ hk]

/-- Settles O31. -/
theorem xorWritesTheXor : Obligations.XorWritesTheXor := by
  intro s rd ra rb hquiet hda hab
  have hfits : xorVec (s.engine.readV ra) (s.engine.readV rb) < 2 ^ bitsOf s.field rd :=
    Nat.xor_lt_two_pow (s.engine.readV_lt_of_lenOf_eq hda)
      (s.engine.readV_lt_of_lenOf_eq (hda.trans hab))
  obtain ⟨m, hexec, honly, hvalue⟩ :=
    exec_writes_vec hquiet
      (commandFault_eq_none s.engine (wellFormed_xor_iff.mpr ⟨hda, hab⟩) rfl rfl) rfl hfits
  refine ⟨m, hexec, honly, fun p => ?_, fun hsame => ?_⟩
  · rw [hvalue, commandValue, testBit_xorVec]
  · rw [hvalue, commandValue, hsame, xorVec, Nat.xor_self]

/-- Settles O32: in the range of R115 the shifted operand fits the register. -/
theorem sxorWritesTheShiftedXor : Obligations.SxorWritesTheShiftedXor := by
  intro s rd ra rb k hquiet hda hba hk
  have hrange : rangeBad s.field (.sxor rd ra rb k) = false := by
    rw [rangeBad, shiftInRange_of_le hk, Bool.not_true]
  have hfits : shiftedXor (s.engine.readV ra) (s.engine.readV rb) k.toNat
      < 2 ^ bitsOf s.field rd := by
    have hplace : 64 * lenOf s.field rb + k.toNat ≤ 64 * lenOf s.field rd := by omega
    exact shiftedXor_lt (s.engine.readV_lt_of_lenOf_eq hda) (s.engine.readV_lt rb) hplace
  obtain ⟨m, hexec, honly, hvalue⟩ :=
    exec_writes_vec hquiet
      (commandFault_eq_none s.engine (wellFormed_sxor_iff.mpr ⟨hda, hba⟩) hrange rfl) rfl hfits
  refine ⟨m, hexec, honly, ?_⟩
  rw [hvalue, commandValue, shiftedXor, Nat.shiftLeft_eq]

/-- Settles O34. -/
theorem chlenCopiesTheLowLimbs : Obligations.ChlenCopiesTheLowLimbs := by
  intro s rd ra hquiet
  exact exec_writes_vec (i := .chlen rd ra) hquiet (commandFault_eq_none s.engine rfl rfl rfl) rfl
    (Nat.mod_lt _ (by positivity))

end Sys2Proof.Machine
end

section
/-! # STORE of one register, LOAD of another

O58. Every limb LOAD writes is a limb of the integer cut to the register, so a LOAD of any integer
runs as the LOAD of one that fits (R131). -/

namespace Sys2Proof.Machine

variable {F : FieldId}

/-! ## Runs in a row -/

theorem Runs.exists_first_step {n : Nat} {s u : State} (hrun : Runs (n + 1) s u) :
    ∃ t, step s = .next t ∧ Runs n t u := by
  obtain ⟨t, hstep, -, -⟩ := everyStepGivesANextState s
  have hcore : Sys2Proof.core.step s = .next t := hstep
  simp only [Runs, Host.Core.run, hcore] at hrun
  exact ⟨t, hstep, hrun⟩

theorem Runs.append {n k : Nat} {s t u : State} (hfirst : Runs n s t) (hsecond : Runs k t u) :
    Runs (n + k) s u := by
  induction n generalizing s with
  | zero =>
    obtain rfl : s = t := Host.Outcome.next.inj hfirst
    rwa [Nat.zero_add]
  | succ n ih =>
    obtain ⟨s', hstep, hrest⟩ := hfirst.exists_first_step
    rw [Nat.add_right_comm]
    exact .succ hstep (ih hrest)

/-- The machine is deterministic: `n` steps have one end. -/
theorem Runs.unique {n : Nat} {s t u : State} (ht : Runs n s t) (hu : Runs n s u) : t = u :=
  Host.Outcome.next.inj (Eq.trans (Eq.symm ht) hu)

/-! ## LOAD of an integer of any size -/

theorem limb_mod {n i : Nat} (x : Nat) (hi : i < n) :
    limb (x % 2 ^ (limbBits * n)) i = limb x i := by
  apply Nat.eq_of_testBit_eq
  intro p
  rw [testBit_limb, testBit_limb, Nat.testBit_mod_two_pow]
  by_cases hp : p < limbBits
  · have hlimb := limb_end_le hi
    rw [decide_eq_true (show limbBits * i + p < limbBits * n by omega), Bool.true_and]
  · rw [decide_eq_false hp, Bool.false_and, Bool.false_and]

theorem loadReg_mod (r : VReg) (n : Nat) :
    loadReg F r (n % 2 ^ bitsOf F r) = loadReg F r n :=
  List.map_congr_left fun i hi => by rw [bitsOf, limb_mod n (List.mem_range.mp hi)]

/-- LOAD leaves in the register what of the integer fits there (R131). -/
theorem runs_loadReg {s : State} {r : VReg} {n : Nat} {rest : List (Input s.field)}
    (hinputs : s.inputs = loadReg s.field r n ++ rest) :
    Runs (lenOf s.field r) s
      { s with
        engine := s.engine.writeV r (n % 2 ^ bitsOf s.field r)
        inputs := rest
        answers := List.replicate (lenOf s.field r) .ok ++ s.answers } := by
  rw [← loadReg_mod] at hinputs
  exact loadFillsTheRegister s r _ rest hinputs (Nat.mod_lt _ (by positivity))

/-! ## The copy -/

/-- STORE and then LOAD: the registers and the answers after both (R131, R132). -/
theorem runs_storeReg_loadReg {s : State} {r q : VReg} {n : Nat} {rest : List (Input s.field)}
    (hinputs : s.inputs = storeReg s.field r ++ loadReg s.field q n ++ rest) :
    Runs (lenOf s.field r + lenOf s.field q) s
      { s with
        engine := s.engine.writeV q (n % 2 ^ bitsOf s.field q)
        inputs := rest
        answers := List.replicate (lenOf s.field q) .ok
          ++ (((storeAddrs s.field r).map s.engine.hostRead).reverse ++ s.answers) } := by
  rw [storeReg_eq_map, List.append_assoc] at hinputs
  have hstore := runs_hostReads _ s _ hinputs
  rw [length_storeAddrs] at hstore
  have hload := runs_loadReg (s :=
    { s with
      inputs := loadReg s.field q n ++ rest
      answers := ((storeAddrs s.field r).map s.engine.hostRead).reverse ++ s.answers }) rfl
  exact hstore.append hload

/-- Settles O58: the first `L` answers are the LOAD's, the `L` under them the STORE's; they deliver
E[r], which fits E[q]. -/
theorem storeThenLoadCopiesTheRegister : Obligations.StoreThenLoadCopiesTheRegister := by
  intro s t r q n rest hinputs hruns hstored
  have hlen (p : EReg) : lenOf s.field (.e p) = s.field.limbs := rfl
  have hboth := runs_storeReg_loadReg hinputs
  rw [hlen, hlen, ← Nat.two_mul] at hboth
  obtain rfl := hruns.unique hboth
  have hanswers :
      ((storeAddrs s.field (.e r)).map s.engine.hostRead).reverse.length = s.field.limbs := by
    rw [List.length_reverse, List.length_map, length_storeAddrs, hlen]
  have hdelivered : s.engine.readV (.e r) = n := by
    rw [List.drop_left' List.length_replicate, List.take_left' hanswers, List.reverse_reverse,
      Engine.storedInt_hostReads] at hstored
    exact Option.some.inj hstored
  have hfits : s.engine.readV (.e r) < 2 ^ bitsOf s.field (.e q) := s.engine.readV_lt (.e r)
  rw [← hdelivered, Nat.mod_eq_of_lt hfits]
  exact s.engine.writeV_readV_of_lt (.e q) hfits

end Sys2Proof.Machine
end

section
/-! # Integers and hex strings

O57 and O59. `from_int` gives back the limbs `to_int` re-assembled; `parseHex` reads a string digit
by digit, so it inverts `hexChars` and fails exactly at a character that is no digit (R131 to
R137). -/

namespace Sys2Proof.Machine

/-! ## Limbs -/

/-- The limbs of a value are the limbs it was re-assembled from (R11). -/
theorem toLimbs_ofLimbs {ls : List Nat} (h : ∀ l ∈ ls, l < 2 ^ limbBits) :
    toLimbs ls.length (ofLimbs ls) = ls := by
  induction ls with
  | nil => rfl
  | cons l ls ih =>
    obtain ⟨hl, hls⟩ := List.forall_mem_cons.mp h
    rw [List.length_cons, toLimbs_succ, ofLimbs, Nat.add_mul_mod_self_left, Nat.mod_eq_of_lt hl,
      Nat.shiftRight_eq_div_pow, Nat.add_mul_div_left _ _ (by positivity), Nat.div_eq_of_lt hl,
      Nat.zero_add, ih hls]

theorem toLimbs_toInt (ls : List Word) : toLimbs ls.length (toInt ls) = ls.map BitVec.toNat := by
  have hwords : ∀ l ∈ ls.map BitVec.toNat, l < 2 ^ limbBits :=
    List.forall_mem_map.mpr fun w _ => w.isLt
  rw [toInt, ← ls.length_map BitVec.toNat, toLimbs_ofLimbs hwords]

/-! ## Digits -/

theorem hexDigit_hexChar {d : Nat} (h : d < 16) : hexDigit (hexChar d) = some d := by
  decide +revert

theorem isSpace_hexChar {d : Nat} (h : d < 16) : isSpace (hexChar d) = false := by
  decide +revert

/-! ## Writing a numeral -/

@[simp] theorem length_hexChars (n v : Nat) : (hexChars n v).length = n := by
  induction n generalizing v with
  | zero => rfl
  | succ n ih => rw [hexChars, List.length_append, ih, List.length_singleton]

theorem length_toHex (F : FieldId) (a : Nat) : (toHex F a).length = F.hexLen :=
  length_hexChars F.hexLen a

theorem isSpace_of_mem_hexChars {n v : Nat} {ch : Char} (h : ch ∈ hexChars n v) :
    isSpace ch = false := by
  induction n generalizing v with
  | zero => cases h
  | succ n ih =>
    rw [hexChars, List.mem_append, List.mem_singleton] at h
    obtain h | rfl := h
    · exact ih h
    · exact isSpace_hexChar (Nat.mod_lt v (by norm_num))

/-- Every canonical value has at most `2·⌈D/8⌉` hex digits (R7, R134). -/
theorem two_pow_degree_le (F : FieldId) : 2 ^ F.degree ≤ 16 ^ F.hexLen := by
  have hbits : F.degree ≤ 4 * F.hexLen := by rw [FieldId.hexLen]; omega
  calc 2 ^ F.degree ≤ 2 ^ (4 * F.hexLen) := Nat.pow_le_pow_right (by norm_num) hbits
    _ = 16 ^ F.hexLen := Nat.pow_mul 2 4 F.hexLen

/-! ## Reading a numeral -/

theorem parseHex_cons_of_some {ch : Char} {d : Nat} (h : hexDigit ch = some d) (t : List Char)
    (acc : Nat) : parseHex (ch :: t) acc = parseHex t (16 * acc + d) := by
  rw [parseHex, h]

theorem parseHex_cons_of_none {ch : Char} (h : hexDigit ch = none) (t : List Char) (acc : Nat) :
    parseHex (ch :: t) acc = none := by
  rw [parseHex, h]

/-- A numeral's last digit is its lowest. -/
theorem parseHex_concat {t : List Char} {acc n d : Nat} {ch : Char} (ht : parseHex t acc = some n)
    (hd : hexDigit ch = some d) : parseHex (t ++ [ch]) acc = some (16 * n + d) := by
  induction t generalizing acc with
  | nil =>
    obtain rfl : acc = n := Option.some.inj ht
    exact parseHex_cons_of_some hd [] acc
  | cons c t ih =>
    cases hc : hexDigit c with
    | none => rw [parseHex_cons_of_none hc] at ht; cases ht
    | some e =>
      rw [parseHex_cons_of_some hc] at ht
      rw [List.cons_append, parseHex_cons_of_some hc, ih ht]

/-- What `n` digits of `v` read as: the low `n` digits (R133, R134). -/
theorem parseHex_hexChars (n v : Nat) : parseHex (hexChars n v) 0 = some (v % 16 ^ n) := by
  induction n generalizing v with
  | zero => rw [pow_zero, Nat.mod_one]; rfl
  | succ n ih =>
    have hdigit := hexDigit_hexChar (Nat.mod_lt v (show 16 > 0 by norm_num))
    rw [hexChars, parseHex_concat (ih (v / 16)) hdigit, pow_succ', Nat.mod_mul, Nat.add_comm]

/-- A string is no numeral exactly if some character is no digit (R133, R135). -/
theorem parseHex_eq_none_iff {t : List Char} {acc : Nat} :
    parseHex t acc = none ↔ ∃ ch ∈ t, hexDigit ch = none := by
  induction t generalizing acc with
  | nil => simp [parseHex]
  | cons c t ih =>
    cases hc : hexDigit c with
    | none => simp [parseHex_cons_of_none hc, hc]
    | some d => simp [parseHex_cons_of_some hc, ih, hc]

/-! ## from_hex -/

/-- The characters `from_hex` reads: all but whitespace (R133). -/
def stripSpace (s : List Char) : List Char := s.filter fun ch => !isSpace ch

theorem mem_stripSpace_iff {s : List Char} {ch : Char} :
    ch ∈ stripSpace s ↔ ch ∈ s ∧ isSpace ch = false := by
  rw [stripSpace, List.mem_filter, Bool.not_eq_true']

theorem stripSpace_toHex (F : FieldId) (a : Nat) : stripSpace (toHex F a) = toHex F a :=
  List.filter_eq_self.mpr fun ch hch => by rw [isSpace_of_mem_hexChars hch, Bool.not_false]

section
variable {F : FieldId} {s : List Char}

theorem fromHex_of_length_ne (h : (stripSpace s).length ≠ F.hexLen) :
    fromHex F s = .error (.malformedInput F.hexLen) := by
  rw [stripSpace] at h
  simp only [fromHex, if_neg h]

theorem fromHex_of_parseHex_none (h : parseHex (stripSpace s) 0 = none) :
    fromHex F s = .error (.malformedInput F.hexLen) := by
  rw [stripSpace] at h
  simp only [fromHex, h, ite_self]

theorem fromHex_of_parseHex_some {n : Nat} (hlen : (stripSpace s).length = F.hexLen)
    (hparse : parseHex (stripSpace s) 0 = some n) :
    fromHex F s = if n < 2 ^ F.degree then .ok n else .error .outOfRange := by
  rw [stripSpace] at hlen hparse
  simp only [fromHex, if_pos hlen, hparse]

/-- `from_hex` finds a string malformed exactly if its length is wrong or it is no numeral (R135);
a numeral out of range is another failure (R139). -/
theorem fromHex_eq_malformedInput_iff :
    fromHex F s = .error (.malformedInput F.hexLen)
      ↔ (stripSpace s).length ≠ F.hexLen ∨ parseHex (stripSpace s) 0 = none := by
  by_cases hlen : (stripSpace s).length = F.hexLen
  · cases hparse : parseHex (stripSpace s) 0 with
    | none => simp [fromHex_of_parseHex_none hparse]
    | some n =>
      rw [fromHex_of_parseHex_some hlen hparse]
      split <;> simp [hlen]
  · simp [fromHex_of_length_ne hlen, hlen]

end

/-- Settles O59: the characters that are read are those of `s` that are no whitespace. -/
theorem malformedHexIsRejected : Obligations.MalformedHexIsRejected := by
  intro F s
  have hnondigit : (∃ ch ∈ stripSpace s, hexDigit ch = none)
      ↔ ∃ ch ∈ s, isSpace ch = false ∧ hexDigit ch = none := by
    simp only [mem_stripSpace_iff, and_assoc]
  rw [fromHex_eq_malformedInput_iff, parseHex_eq_none_iff, hnondigit, stripSpace]

/-- `from_hex` reads back what `to_hex` wrote (R137). -/
theorem fromHex_toHex {F : FieldId} {a : Nat} (h : a < 2 ^ F.degree) :
    fromHex F (toHex F a) = .ok a := by
  have hlen : (stripSpace (toHex F a)).length = F.hexLen := by
    rw [stripSpace_toHex, length_toHex]
  have hparse : parseHex (stripSpace (toHex F a)) 0 = some a := by
    rw [stripSpace_toHex, toHex, parseHex_hexChars,
      Nat.mod_eq_of_lt (h.trans_le (two_pow_degree_le F))]
  rw [fromHex_of_parseHex_some hlen hparse, if_pos h]

/-- `from_int` gives back the limbs that `to_int` re-assembled (R137). -/
theorem fromInt_toInt {F : FieldId} {ls : List Word} (hlen : ls.length = F.limbs)
    (h : toInt ls < 2 ^ F.degree) : fromInt F (toInt ls) = .ok (ls.map BitVec.toNat) := by
  rw [fromInt, if_pos h, ← hlen, toLimbs_toInt]

/-- Settles O57. -/
theorem conversionsRoundTrip : Obligations.ConversionsRoundTrip :=
  ⟨fun F a h => ⟨fromHex_toHex h, length_toHex F a⟩, fun _ _ hlen h => fromInt_toInt hlen h⟩

end Sys2Proof.Machine
end

section
/-! # Canonical sources, and addition

O38 and O49. The length and the range tests of R241 never fail on a field command with element
sources, so its first test is the canonical one: it fails if any source does (R233), and where every
source passes ADD completes. -/

namespace Sys2Proof.Machine

variable {F : FieldId}

/-! ## The canonical test of all sources -/

/-- The canonical test fails exactly if some source is at or above `2^D` (R151, R233). -/
theorem Engine.any_not_canonicalE_iff (m : Engine F) (rs : List EReg) :
    (rs.any fun r => !m.canonicalE r) = true ↔ ∃ r ∈ rs, 2 ^ F.degree ≤ m.readE r := by
  simp only [List.any_eq_true, Bool.not_eq_true', ← Bool.not_eq_true, Engine.canonicalE_iff,
    not_lt]

/-- A command with tested sources has neither a length nor a range condition (R87, R232). -/
theorem tests_pass_of_mem_canonicalSources {i : Instr} {r : EReg} (h : r ∈ canonicalSources i) :
    i.wellFormed = true ∧ rangeBad F i = false := by
  cases i with
  | add | mulw | mul | mulsa | mulrl | mullr | mulnr | sqrw | sqr | sqrb | inv => exact ⟨rfl, rfl⟩
  | nop | clrerr | getbit | flipbit | bitlen | lsh | xor | sxor | getbits | chlen | eq | red =>
    exact absurd h List.not_mem_nil

/-- One source out of range decides the fault of a field command, before INV's zero test
(R233, R241). -/
theorem commandFault_eq_nonCanonical {m : Engine F} {i : Instr} {r : EReg}
    (hr : r ∈ canonicalSources i) (hge : 2 ^ F.degree ≤ m.readE r) :
    commandFault m i = some .nonCanonical := by
  obtain ⟨hlen, hrange⟩ := tests_pass_of_mem_canonicalSources (F := F) hr
  have hfails := (m.any_not_canonicalE_iff (canonicalSources i)).mpr ⟨r, hr, hge⟩
  simp [commandFault, hlen, hrange, hfails]

/-- With every tested source canonical, a command of the right lengths and range completes, unless
it is INV of zero (R241). -/
theorem commandFault_eq_none_of_canonical {m : Engine F} {i : Instr} (hlen : i.wellFormed = true)
    (hrange : rangeBad F i = false) (hsrc : ∀ r ∈ canonicalSources i, m.Canonical r)
    (hzero : zeroDivisor m i = false) : commandFault m i = none := by
  have hpasses : ((canonicalSources i).any fun r => !m.canonicalE r) = false := by
    rw [← Bool.not_eq_true, Engine.any_not_canonicalE_iff]
    rintro ⟨r, hr, hge⟩
    exact absurd (hsrc r hr) hge.not_gt
  simp [commandFault, hlen, hrange, hpasses, hzero]

/-- Settles O49. -/
theorem nonCanonicalSourceIsLatched : Obligations.NonCanonicalSourceIsLatched := by
  intro s i r hquiet hr hge
  rw [exec_of_quiet hquiet, Engine.executed_of_some (commandFault_eq_nonCanonical hr hge),
    Engine.raise, EngineFault.statusWord_nonCanonical]

/-! ## ADD -/

/-- Settles O38: the sum of two canonical values is canonical, so it fits the register (R152). -/
theorem addWritesTheCanonicalSum : Obligations.AddWritesTheCanonicalSum := by
  intro s rd ra rb hquiet ha hb
  have hfault : commandFault s.engine (.add rd ra rb) = none :=
    commandFault_eq_none_of_canonical rfl rfl (by simp [canonicalSources, ha, hb]) rfl
  have hsum : xorVec (s.engine.readE ra) (s.engine.readE rb) < 2 ^ s.field.degree :=
    Nat.xor_lt_two_pow ha hb
  obtain ⟨m, hexec, honly, hvalue⟩ := exec_writes_vec hquiet hfault rfl (canonical_fits hsum)
  rw [Engine.readV_elem, commandValue] at hvalue
  refine ⟨m, hexec, honly, ?_, fun p => ?_⟩
  · rw [Engine.Canonical, hvalue]
    exact hsum
  · rw [hvalue, testBit_xorVec]

end Sys2Proof.Machine
end

section
/-! # The carryless product is commutative, associative and additive in both factors

SUPPORT. An additive map is determined by its values at the powers of two, and `clmul (2^k) b` is
`b` shifted left by `k`; every law of `clmul` follows from its case for powers of two (R12). -/

namespace Sys2Proof.Machine

theorem clmulLow_xor_right (a b b' n : Nat) :
    clmulLow a (b ^^^ b') n = clmulLow a b n ^^^ clmulLow a b' n := by
  induction n with
  | zero => simp
  | succ n ih =>
    have hterm : (if a.testBit n then (b ^^^ b') <<< n else 0)
        = (if a.testBit n then b <<< n else 0) ^^^ (if a.testBit n then b' <<< n else 0) := by
      cases a.testBit n <;> simp [Nat.shiftLeft_xor_distrib]
    rw [clmulLow_succ, clmulLow_succ, clmulLow_succ, ih, hterm]
    ac_rfl

/-- `A·(B + B') = A·B + A·B'` over GF(2) (R12). -/
theorem clmul_xor_right (a b b' : Nat) : clmul a (b ^^^ b') = clmul a b ^^^ clmul a b' :=
  clmulLow_xor_right a b b' _

/-! ## Powers of two -/

/-- The low `m + n` bits are the low `m` bits and the `n`-bit field above them (R107). -/
theorem mod_two_pow_add (x m n : Nat) :
    x % 2 ^ (m + n) = x % 2 ^ m ^^^ (getBits x m n <<< m) := by
  apply Nat.eq_of_testBit_eq
  intro p
  rw [Nat.testBit_xor, Nat.testBit_mod_two_pow, Nat.testBit_mod_two_pow, Nat.testBit_shiftLeft,
    testBit_getBits]
  by_cases hp : p < m
  · simp [hp, hp.not_ge, hp.trans_le (Nat.le_add_right m n)]
  · have hge := Nat.not_lt.mp hp
    have hfield : p < m + n ↔ p - m < n := by omega
    simp [hp, hge, hfield, Nat.add_sub_cancel' hge]

/-- A one-bit field is the bit (R101, R107). -/
theorem getBits_one (v i : Nat) : getBits v i 1 = getBit v i := by
  rw [getBits, getBit, pow_one]

/-- Two additive maps that agree on the powers of two are equal. -/
theorem eq_of_additive {f g : Nat → Nat} (hf : ∀ x y, f (x ^^^ y) = f x ^^^ f y)
    (hg : ∀ x y, g (x ^^^ y) = g x ^^^ g y) (h : ∀ k, f (2 ^ k) = g (2 ^ k)) (a : Nat) :
    f a = g a := by
  have hf0 : f 0 = 0 := by simpa using hf 0 0
  have hg0 : g 0 = 0 := by simpa using hg 0 0
  have hlow : ∀ n, f (a % 2 ^ n) = g (a % 2 ^ n) := by
    intro n
    induction n with
    | zero => rw [pow_zero, Nat.mod_one, hf0, hg0]
    | succ n ih =>
      have hbit : f (getBit a n <<< n) = g (getBit a n <<< n) := by
        rw [getBit_eq]
        cases a.testBit n with
        | false => rw [Bool.toNat_false, Nat.zero_shiftLeft, hf0, hg0]
        | true => rw [Bool.toNat_true, Nat.one_shiftLeft, h]
      rw [mod_two_pow_add, getBits_one, hf, hg, ih, hbit]
  have ha := hlow (bitLength a)
  rwa [Nat.mod_eq_of_lt (lt_two_pow_bitLength a)] at ha

theorem clmulLow_two_pow (b k n : Nat) (hn : n ≤ k) : clmulLow (2 ^ k) b n = 0 := by
  induction n with
  | zero => rfl
  | succ n ih =>
    have hbit : (2 ^ k).testBit n = false := Nat.testBit_two_pow_of_ne (by omega)
    simp [clmulLow_succ, ih (by omega), hbit]

/-- Multiplying by `x^k` shifts (R12). -/
theorem clmul_two_pow_left (k b : Nat) : clmul (2 ^ k) b = b <<< k := by
  have hlt : 2 ^ k < 2 ^ (k + 1) := Nat.pow_lt_pow_right (by norm_num) (Nat.lt_succ_self k)
  rw [← clmulLow_eq_clmul b hlt, clmulLow_succ, clmulLow_two_pow b k k le_rfl,
    Nat.testBit_two_pow_self, if_pos rfl, Nat.zero_xor]

theorem two_pow_shiftLeft (j k : Nat) : 2 ^ j <<< k = 2 ^ (j + k) := by
  rw [Nat.shiftLeft_eq, pow_add]

/-! ## The laws -/

theorem clmul_two_pow_right (a k : Nat) : clmul a (2 ^ k) = a <<< k := by
  refine eq_of_additive (f := (clmul · (2 ^ k))) (g := (· <<< k))
    (fun _ _ => clmul_xor_left _ _ _) (fun _ _ => Nat.shiftLeft_xor_distrib) (fun j => ?_) a
  rw [clmul_two_pow_left, two_pow_shiftLeft, two_pow_shiftLeft, Nat.add_comm]

theorem clmul_comm (a b : Nat) : clmul a b = clmul b a := by
  refine eq_of_additive (f := (clmul · b)) (g := clmul b) (fun _ _ => clmul_xor_left _ _ _)
    (clmul_xor_right b) (fun k => ?_) a
  rw [clmul_two_pow_left, clmul_two_pow_right]

@[simp] theorem clmul_zero_right (a : Nat) : clmul a 0 = 0 := by
  rw [clmul_comm, clmul_zero_left]

@[simp] theorem clmul_one_right (a : Nat) : clmul a 1 = a := clmul_two_pow_right a 0

@[simp] theorem clmul_one_left (b : Nat) : clmul 1 b = b := clmul_two_pow_left 0 b

theorem clmul_shiftLeft_left (a b k : Nat) : clmul (a <<< k) b = clmul a b <<< k := by
  refine eq_of_additive (f := fun a => clmul (a <<< k) b) (g := fun a => clmul a b <<< k)
    (fun x y => ?_) (fun x y => ?_) (fun j => ?_) a
  · rw [Nat.shiftLeft_xor_distrib, clmul_xor_left]
  · rw [clmul_xor_left, Nat.shiftLeft_xor_distrib]
  · rw [two_pow_shiftLeft, clmul_two_pow_left, clmul_two_pow_left, Nat.shiftLeft_add]

theorem clmul_shiftLeft_right (a b k : Nat) : clmul a (b <<< k) = clmul a b <<< k := by
  rw [clmul_comm, clmul_shiftLeft_left, clmul_comm]

theorem clmul_assoc (a b c : Nat) : clmul (clmul a b) c = clmul a (clmul b c) := by
  refine eq_of_additive (f := fun a => clmul (clmul a b) c) (g := (clmul · (clmul b c)))
    (fun x y => ?_) (fun x y => clmul_xor_left _ _ _) (fun k => ?_) a
  · rw [clmul_xor_left, clmul_xor_left]
  · rw [clmul_two_pow_left, clmul_two_pow_left, clmul_shiftLeft_left]

/-- The square of a sum: the mixed terms cancel (R190). -/
theorem clmul_self_xor (a b : Nat) :
    clmul (a ^^^ b) (a ^^^ b) = clmul a a ^^^ clmul b b := by
  rw [clmul_xor_left, clmul_xor_right, clmul_xor_right, clmul_comm b a, Nat.xor_assoc,
    Nat.xor_xor_cancel_left]

end Sys2Proof.Machine
end

section
/-! # Congruence modulo f

SUPPORT, then O50. Two polynomials are congruent if they differ by a multiple of f. The congruence
is compatible with sums and products, and congruent values below `2^D` are equal, so a law of the
carryless product is a law of the field product. -/

namespace Sys2Proof.Machine

variable {F : FieldId} {x y z x' y' : Nat}

/-- `x` and `y` differ by a multiple of f (R12). -/
def PolyCongr (F : FieldId) (x y : Nat) : Prop := ∃ q, x ^^^ y = clmul q F.poly

theorem isRemainder_iff {c t : Nat} : IsRemainder F c t ↔ t < 2 ^ F.degree ∧ PolyCongr F c t := by
  refine and_congr_right fun _ => exists_congr fun q => ⟨fun h => ?_, fun h => ?_⟩
  · rw [h, Nat.xor_xor_cancel_right]
  · rw [← h, Nat.xor_xor_cancel_right]

/-! ## A congruence of sums and products -/

theorem PolyCongr.refl (F : FieldId) (x : Nat) : PolyCongr F x x := ⟨0, Nat.xor_self x⟩

theorem PolyCongr.symm (h : PolyCongr F x y) : PolyCongr F y x := by
  obtain ⟨q, hq⟩ := h
  exact ⟨q, by rw [Nat.xor_comm, hq]⟩

theorem PolyCongr.xor (h : PolyCongr F x y) (h' : PolyCongr F x' y') :
    PolyCongr F (x ^^^ x') (y ^^^ y') := by
  obtain ⟨q, hq⟩ := h
  obtain ⟨q', hq'⟩ := h'
  refine ⟨q ^^^ q', ?_⟩
  rw [clmul_xor_left, ← hq, ← hq']
  ac_rfl

theorem PolyCongr.trans (h : PolyCongr F x y) (h' : PolyCongr F y z) : PolyCongr F x z := by
  obtain ⟨q, hq⟩ := h
  obtain ⟨q', hq'⟩ := h'
  refine ⟨q ^^^ q', ?_⟩
  rw [clmul_xor_left, ← hq, ← hq', Nat.xor_assoc, Nat.xor_xor_cancel_left]

theorem PolyCongr.clmul_left (a : Nat) (h : PolyCongr F x y) :
    PolyCongr F (clmul a x) (clmul a y) := by
  obtain ⟨q, hq⟩ := h
  exact ⟨clmul a q, by rw [← clmul_xor_right, hq, clmul_assoc]⟩

theorem PolyCongr.clmul_right (a : Nat) (h : PolyCongr F x y) :
    PolyCongr F (clmul x a) (clmul y a) := by
  rw [clmul_comm x, clmul_comm y]
  exact h.clmul_left a

theorem PolyCongr.shiftLeft (k : Nat) (h : PolyCongr F x y) :
    PolyCongr F (x <<< k) (y <<< k) := by
  rw [← clmul_two_pow_left, ← clmul_two_pow_left]
  exact h.clmul_left _

/-- Adding a multiple of f by a power of x changes nothing modulo f. -/
theorem PolyCongr.xor_poly (F : FieldId) (x k : Nat) : PolyCongr F x (x ^^^ (F.poly <<< k)) :=
  ⟨2 ^ k, by rw [Nat.xor_xor_cancel_left, clmul_two_pow_left]⟩

/-- Congruent values below `2^D` are equal: both are the remainder of either (O40). -/
theorem PolyCongr.eq_of_lt (h : PolyCongr F x y) (hx : x < 2 ^ F.degree) (hy : y < 2 ^ F.degree) :
    x = y :=
  remainderIsUnique F x x y (isRemainder_iff.mpr ⟨hx, .refl F x⟩) (isRemainder_iff.mpr ⟨hy, h⟩)

/-! ## Cancelling the leading bit -/

/-- Cancels bit `n + D` of `t`, if it is set, with a multiple of f: what R160 and R177 both do. -/
def cancelBit (F : FieldId) (t n : Nat) : Nat :=
  if t.testBit (n + F.degree) then t ^^^ (F.poly <<< n) else t

/-- The leading bit of f and the rest (R6). -/
theorem poly_eq_xor (F : FieldId) : F.poly = 2 ^ F.degree ^^^ F.r := by
  have hsplit := mod_two_pow_add F.poly F.degree 1
  have hlow : F.poly % 2 ^ F.degree = F.r := by
    rw [FieldId.poly, Nat.add_mod_left, Nat.mod_eq_of_lt F.r_lt]
  rwa [Nat.mod_eq_of_lt F.poly_lt, getBits_one, getBit_eq, F.testBit_poly_degree, Bool.toNat_true,
    Nat.one_shiftLeft, hlow, Nat.xor_comm] at hsplit

theorem reduceRound_eq_cancelBit (F : FieldId) (t n : Nat) :
    reduceRound F t (n + F.degree) = cancelBit F t n := by
  have hshift : F.poly <<< n = 2 ^ (n + F.degree) ^^^ (F.r <<< n) := by
    rw [poly_eq_xor, Nat.shiftLeft_xor_distrib, two_pow_shiftLeft, Nat.add_comm]
  rw [reduceRound, cancelBit, Nat.add_sub_cancel, hshift, ← Nat.xor_assoc]
  simp only [getBit_eq_one_iff]

theorem polyCongr_cancelBit (F : FieldId) (t n : Nat) : PolyCongr F t (cancelBit F t n) := by
  rw [cancelBit]
  split
  · exact .xor_poly F t n
  · exact .refl F t

/-- A value with at most `n + 1` bits whose bit `n` is clear has at most `n` bits. -/
theorem lt_two_pow_of_testBit_eq_false {v n : Nat} (h : v < 2 ^ (n + 1))
    (hbit : v.testBit n = false) : v < 2 ^ n := by
  have hmod := mod_two_pow_add v n 1
  rw [Nat.mod_eq_of_lt h, getBits_one, getBit_eq, hbit, Bool.toNat_false, Nat.zero_shiftLeft,
    Nat.xor_zero] at hmod
  rw [hmod]
  exact Nat.mod_lt _ (by positivity)

theorem cancelBit_lt {t n : Nat} (h : t < 2 ^ (n + F.degree + 1)) :
    cancelBit F t n < 2 ^ (n + F.degree) := by
  have hpoly : F.poly <<< n < 2 ^ (n + F.degree + 1) := by
    rw [Nat.add_assoc, Nat.add_comm n]
    exact Nat.shiftLeft_lt F.poly_lt
  have htop : (F.poly <<< n).testBit (n + F.degree) = true := by
    simp [Nat.testBit_shiftLeft]
  rw [cancelBit]
  split
  · next hbit =>
    refine lt_two_pow_of_testBit_eq_false (Nat.xor_lt_two_pow h hpoly) ?_
    rw [Nat.testBit_xor, hbit, htop]
    rfl
  · next hbit => exact lt_two_pow_of_testBit_eq_false h (Bool.eq_false_of_not_eq_true hbit)

/-! ## The reduction -/

/-- R160's loop over the positions from `D + n − 1` down to `D`. -/
theorem isRemainder_foldl_reduceRound {n : Nat} :
    ∀ {c : Nat}, c < 2 ^ (n + F.degree) →
      IsRemainder F c ((((List.range n).map (· + F.degree)).reverse).foldl (reduceRound F) c) := by
  induction n with
  | zero => exact fun h => isRemainder_iff.mpr ⟨by simpa using h, .refl F _⟩
  | succ n ih =>
    intro c h
    rw [Nat.add_right_comm] at h
    obtain ⟨hlt, hcongr⟩ := isRemainder_iff.mp (ih (cancelBit_lt h))
    rw [List.range_succ, List.map_append, List.map_singleton, List.reverse_concat, List.foldl_cons,
      reduceRound_eq_cancelBit]
    exact isRemainder_iff.mpr ⟨hlt, (polyCongr_cancelBit F c n).trans hcongr⟩

/-- A wide register is two elements long (R21, R22). -/
theorem wideBits_eq (F : FieldId) : F.wideBits = F.elemBits + F.elemBits := by
  rw [← Nat.mul_add, ← Nat.two_mul]

/-- `reduce` gives the remainder of every wide value (R160). -/
theorem isRemainder_reduce {c : Nat} (h : c < 2 ^ F.wideBits) : IsRemainder F c (reduce F c) := by
  have hle : F.degree ≤ F.wideBits := by
    rw [wideBits_eq]
    exact (degree_lt_elemBits F).le.trans (Nat.le_add_right _ _)
  exact isRemainder_foldl_reduceRound (by rwa [Nat.sub_add_cancel hle])

/-! ## The field product -/

/-- The product of two elements fits a wide register (R155). -/
theorem clmul_lt_wide {a b : Nat} (ha : a < 2 ^ F.elemBits) (hb : b < 2 ^ F.elemBits) :
    clmul a b < 2 ^ F.wideBits := by
  rw [wideBits_eq]
  exact clmul_lt ha hb

theorem degree_pos (F : FieldId) : 0 < F.degree := by cases F <;> decide

/-- The contract of field multiplication (R170). -/
theorem isRemainder_fmul {a b : Nat} (ha : a < 2 ^ F.degree) (hb : b < 2 ^ F.degree) :
    IsRemainder F (clmul a b) (fmul F a b) :=
  isRemainder_reduce (clmul_lt_wide (canonical_fits ha) (canonical_fits hb))

section
variable {a b c : Nat}

theorem fmul_lt (ha : a < 2 ^ F.degree) (hb : b < 2 ^ F.degree) : fmul F a b < 2 ^ F.degree :=
  (isRemainder_fmul ha hb).1

theorem polyCongr_fmul (ha : a < 2 ^ F.degree) (hb : b < 2 ^ F.degree) :
    PolyCongr F (clmul a b) (fmul F a b) :=
  (isRemainder_iff.mp (isRemainder_fmul ha hb)).2

theorem fmul_comm (F : FieldId) (a b : Nat) : fmul F a b = fmul F b a := by
  rw [fmul, fmul, clmul_comm]

theorem fmul_eq_of_isRemainder {t : Nat} (ha : a < 2 ^ F.degree) (hb : b < 2 ^ F.degree)
    (h : IsRemainder F (clmul a b) t) : fmul F a b = t :=
  remainderIsUnique F _ _ _ (isRemainder_fmul ha hb) h

theorem fmul_one (ha : a < 2 ^ F.degree) : fmul F a 1 = a :=
  fmul_eq_of_isRemainder ha (Nat.one_lt_two_pow (degree_pos F).ne')
    (isRemainder_iff.mpr ⟨ha, by rw [clmul_one_right]; exact .refl F a⟩)

theorem fmul_zero (ha : a < 2 ^ F.degree) : fmul F a 0 = 0 :=
  have hzero : 0 < 2 ^ F.degree := by positivity
  fmul_eq_of_isRemainder ha hzero
    (isRemainder_iff.mpr ⟨hzero, by rw [clmul_zero_right]; exact .refl F 0⟩)

/-- Both sides are congruent to the product of all three. -/
theorem fmul_assoc (ha : a < 2 ^ F.degree) (hb : b < 2 ^ F.degree) (hc : c < 2 ^ F.degree) :
    fmul F (fmul F a b) c = fmul F a (fmul F b c) := by
  have hab := fmul_lt ha hb
  have hbc := fmul_lt hb hc
  have hleft : PolyCongr F (clmul a (clmul b c)) (fmul F (fmul F a b) c) := by
    rw [← clmul_assoc]
    exact ((polyCongr_fmul ha hb).clmul_right c).trans (polyCongr_fmul hab hc)
  have hright : PolyCongr F (clmul a (clmul b c)) (fmul F a (fmul F b c)) :=
    ((polyCongr_fmul hb hc).clmul_left a).trans (polyCongr_fmul ha hbc)
  exact (hleft.symm.trans hright).eq_of_lt (fmul_lt hab hc) (fmul_lt ha hbc)

theorem fmul_xor (ha : a < 2 ^ F.degree) (hb : b < 2 ^ F.degree) (hc : c < 2 ^ F.degree) :
    fmul F a (b ^^^ c) = fmul F a b ^^^ fmul F a c := by
  refine fmul_eq_of_isRemainder ha (Nat.xor_lt_two_pow hb hc) (isRemainder_iff.mpr ⟨?_, ?_⟩)
  · exact Nat.xor_lt_two_pow (fmul_lt ha hb) (fmul_lt ha hc)
  · rw [clmul_xor_right]
    exact (polyCongr_fmul ha hb).xor (polyCongr_fmul ha hc)

end

/-- Settles O50. -/
theorem fieldProductLaws : Obligations.FieldProductLaws :=
  fun F a b _ ha hb hc =>
    ⟨fmul_one ha, fmul_zero ha, fmul_comm F a b, fmul_assoc ha hb hc, fmul_xor ha hb hc⟩

end Sys2Proof.Machine
end

section
/-! # The multiplication procedures give the carryless product

SUPPORT, then O42. A comb reads its operand by fields: `limbFields n a k w` collects the `w`-bit
field at bit `k` of every limb. One pass of a comb adds the product of such a collection with b,
and the fields of two passes join into wider ones until they are whole limbs. -/

namespace Sys2Proof.Machine

variable {F : FieldId}

/-! ## The fields of all limbs -/

/-- The value whose limb `j`, for `j < n`, is the `w`-bit field of `a` at bit `k` of limb `j`. -/
def limbFields (n a k w : Nat) : Nat :=
  match n with
  | 0 => 0
  | n + 1 => limbFields n a k w ^^^ (getBits a (limbBits * n + k) w <<< (limbBits * n))

/-- Two adjacent fields are one wider field. -/
theorem getBits_add (v i w w' : Nat) :
    getBits v i (w + w') = getBits v i w ^^^ (getBits v (i + w) w' <<< w) := by
  rw [getBits, mod_two_pow_add, getBits, getBits, getBits, Nat.shiftRight_add]

theorem limbFields_add (n a k w w' : Nat) :
    limbFields n a k (w + w') = limbFields n a k w ^^^ (limbFields n a (k + w) w' <<< w) := by
  induction n with
  | zero => simp [limbFields]
  | succ n ih =>
    rw [limbFields, limbFields, limbFields, ih, getBits_add, ← Nat.add_assoc,
      Nat.shiftLeft_xor_distrib, Nat.shiftLeft_xor_distrib, ← Nat.shiftLeft_add,
      ← Nat.shiftLeft_add, Nat.add_comm w]
    ac_rfl

theorem limbFields_width_zero (n a k : Nat) : limbFields n a k 0 = 0 := by
  induction n with
  | zero => rfl
  | succ n ih => simp [limbFields, ih, getBits, Nat.mod_one]

/-- Fields as wide as a limb are the limbs themselves. -/
theorem limbFields_limb (n a : Nat) : limbFields n a 0 limbBits = a % 2 ^ (limbBits * n) := by
  induction n with
  | zero => simp [limbFields, Nat.mod_one]
  | succ n ih => rw [limbFields, ih, Nat.add_zero, Nat.mul_succ, mod_two_pow_add]

theorem limbFields_lt {n a k w : Nat} (hw : k + w ≤ limbBits) :
    limbFields n a k w < 2 ^ (limbBits * n - k) := by
  induction n with
  | zero => simp [limbFields]
  | succ n ih =>
    have hfield : getBits a (limbBits * n + k) w < 2 ^ w := Nat.mod_lt _ (by positivity)
    rw [limbFields, Nat.mul_succ]
    refine Nat.xor_lt_two_pow (ih.trans_le ?_) ((Nat.shiftLeft_lt hfield).trans_le ?_)
    · exact Nat.pow_le_pow_right (by norm_num) (by omega)
    · exact Nat.pow_le_pow_right (by norm_num) (by omega)

/-- The product of wider fields with b, from the products of the two parts. -/
theorem clmul_limbFields_add (n a b k w w' : Nat) :
    clmul (limbFields n a k (w + w')) b
      = clmul (limbFields n a k w) b ^^^ (clmul (limbFields n a (k + w) w') b <<< w) := by
  rw [limbFields_add, clmul_xor_left, clmul_shiftLeft_left]

/-! ## One pass over the limbs -/

/-- R171's inner loop adds the product of the pass's windows with b. -/
theorem foldl_combTable (n a b k c : Nat) :
    (List.range n).foldl (fun c j => shiftedXor c
        (combTable b (getBits a (limbBits * j + window * k) window)) (limbBits * j)) c
      = c ^^^ clmul (limbFields n a (window * k) window) b := by
  induction n with
  | zero => simp [limbFields]
  | succ n ih =>
    rw [List.range_succ, List.foldl_concat, ih, limbFields, clmul_xor_left, clmul_shiftLeft_left,
      shiftedXor, combTable, Nat.xor_assoc]

theorem combPass_eq (F : FieldId) (a b k c : Nat) :
    combPass F a b k c = c ^^^ clmul (limbFields F.limbs a (window * k) window) b :=
  foldl_combTable F.limbs a b k c

/-- Adding b where the bit is set is adding the product of the bit with b. -/
theorem ite_getBit_shiftedXor (a b c i k : Nat) :
    (if getBit a i = 1 then shiftedXor c b k else c) = c ^^^ (clmul (getBits a i 1) b <<< k) := by
  rw [getBits_one, getBit_eq]
  cases a.testBit i <;> simp [shiftedXor]

theorem foldl_getBit (n a b k c : Nat) :
    (List.range n).foldl (fun c j =>
        if getBit a (limbBits * j + k) = 1 then shiftedXor c b (limbBits * j) else c) c
      = c ^^^ clmul (limbFields n a k 1) b := by
  induction n with
  | zero => simp [limbFields]
  | succ n ih =>
    rw [List.range_succ, List.foldl_concat, ih, limbFields, clmul_xor_left, clmul_shiftLeft_left,
      ite_getBit_shiftedXor, Nat.xor_assoc]

/-- The inner loop of R175 and R176 is a pass with one-bit fields. -/
theorem bitPass_eq (F : FieldId) (a b k c : Nat) :
    bitPass F a b k c = c ^^^ clmul (limbFields F.limbs a k 1) b :=
  foldl_getBit F.limbs a b k c

/-! ## The left-to-right combs (R171, R176) -/

/-- One round of a left-to-right comb with fields of `w` bits. -/
def fieldRound (F : FieldId) (w a b c k : Nat) : Nat :=
  if k > 0 then leftShift (2 * F.limbs) (c ^^^ clmul (limbFields F.limbs a (w * k) w) b) w
  else c ^^^ clmul (limbFields F.limbs a (w * k) w) b

theorem combRound_eq_fieldRound (F : FieldId) (a b : Nat) :
    combRound F a b = fieldRound F window a b := by
  funext c k
  rw [combRound, fieldRound, combPass_eq]

theorem leftCombRound_eq_fieldRound (F : FieldId) (a b : Nat) :
    leftCombRound F a b = fieldRound F 1 a b := by
  funext c k
  rw [leftCombRound, fieldRound, bitPass_eq, Nat.one_mul]

/-- A shift inside the vector discards nothing (R104). -/
theorem leftShift_eq_of_lt {len v k n : Nat} (hv : v < 2 ^ n) (hk : n + k ≤ limbBits * len) :
    leftShift len v k = v <<< k :=
  Nat.mod_eq_of_lt ((Nat.shiftLeft_lt hv).trans_le (Nat.pow_le_pow_right (by norm_num) hk))

/-- The rounds from `m` down to 0. What they begin with is the product of the fields above, already
shifted to make room; the accumulator's length suffices for every shift, because the fields above
bit `k` of each limb end `k` bits below the top. -/
theorem foldl_fieldRound {w a b : Nat} (hb : b < 2 ^ F.elemBits) {m : Nat} :
    ∀ {v : Nat}, w * (m + 1) + v = limbBits →
      (List.range (m + 1)).reverse.foldl (fieldRound F w a b)
          (clmul (limbFields F.limbs a (w * (m + 1)) v) b <<< w)
        = clmul (limbFields F.limbs a 0 limbBits) b := by
  induction m with
  | zero =>
    intro v hv
    rw [Nat.zero_add, Nat.mul_one] at hv
    calc fieldRound F w a b (clmul (limbFields F.limbs a (w * 1) v) b <<< w) 0
        = clmul (limbFields F.limbs a 0 (w + v)) b := by
          rw [fieldRound, if_neg (Nat.lt_irrefl 0), Nat.mul_one, Nat.mul_zero, Nat.xor_comm,
            clmul_limbFields_add, Nat.zero_add]
      _ = clmul (limbFields F.limbs a 0 limbBits) b := by rw [hv]
  | succ m ih =>
    intro v hv
    have hv' : w * (m + 1) + (w + v) = limbBits := by
      rw [← hv, Nat.mul_succ w (m + 1), Nat.add_assoc]
    have hround : fieldRound F w a b (clmul (limbFields F.limbs a (w * (m + 2)) v) b <<< w) (m + 1)
        = clmul (limbFields F.limbs a (w * (m + 1)) (w + v)) b <<< w := by
      have hroom : w ≤ w * (m + 1) := Nat.le_mul_of_pos_right w (Nat.succ_pos m)
      have hL := limbs_pos F
      rw [fieldRound, if_pos (Nat.succ_pos m), Nat.xor_comm, Nat.mul_succ w (m + 1),
        ← clmul_limbFields_add]
      exact leftShift_eq_of_lt (clmul_lt (limbFields_lt hv'.le) hb)
        (by simp only [FieldId.elemBits, limbBits] at hv' ⊢; omega)
    rw [List.range_succ, List.reverse_concat, List.foldl_cons, hround, ih hv']

theorem foldl_fieldRound_zero {w a b m : Nat} (hw : w * (m + 1) = limbBits)
    (ha : a < 2 ^ F.elemBits) (hb : b < 2 ^ F.elemBits) :
    (List.range (m + 1)).reverse.foldl (fieldRound F w a b) 0 = clmul a b := by
  have h := foldl_fieldRound (a := a) hb (v := 0) hw
  rwa [limbFields_width_zero, clmul_zero_left, Nat.zero_shiftLeft, limbFields_limb,
    Nat.mod_eq_of_lt ha] at h

theorem mulw_eq_clmul {a b : Nat} (ha : a < 2 ^ F.elemBits) (hb : b < 2 ^ F.elemBits) :
    mulw F a b = clmul a b := by
  rw [mulw, combRound_eq_fieldRound]
  exact foldl_fieldRound_zero rfl ha hb

/-- Settles O42. -/
theorem windowedCombIsTheCarrylessProduct : Obligations.WindowedCombIsTheCarrylessProduct :=
  fun _ _ _ ha hb => mulw_eq_clmul ha hb

theorem leftComb_eq_clmul {a b : Nat} (ha : a < 2 ^ F.elemBits) (hb : b < 2 ^ F.elemBits) :
    leftComb F a b = clmul a b := by
  rw [leftComb, leftCombRound_eq_fieldRound]
  exact foldl_fieldRound_zero rfl ha hb

/-! ## The right-to-left comb (R175) -/

/-- The pass with the copy of b that is shifted by `k` adds bit `k` of every limb. -/
theorem bitPass_shiftLeft (F : FieldId) (a b k : Nat) :
    bitPass F a (b <<< k) k (clmul (limbFields F.limbs a 0 k) b)
      = clmul (limbFields F.limbs a 0 (k + 1)) b := by
  rw [bitPass_eq, clmul_limbFields_add, clmul_shiftLeft_right, Nat.zero_add]

/-- After `k` rounds: b shifted by `k`, and the product of the low `k` bits of every limb. The shift
after the last round is left out. -/
theorem foldl_rightCombRound {a b k : Nat} (hb : b < 2 ^ F.elemBits) (hk : k < limbBits) :
    (List.range k).foldl (rightCombRound F a) (b, 0)
      = (b <<< k, clmul (limbFields F.limbs a 0 k) b) := by
  induction k with
  | zero => simp [limbFields_width_zero]
  | succ k ih =>
    have hlen : F.elemBits + k + 1 ≤ limbBits * (F.limbs + 1) := by
      rw [Nat.mul_succ, Nat.add_assoc]
      exact Nat.add_le_add_left hk.le _
    rw [List.range_succ, List.foldl_concat, ih (Nat.lt_of_succ_lt hk), rightCombRound,
      if_pos (by omega), bitPass_shiftLeft, leftShift_eq_of_lt (Nat.shiftLeft_lt hb) hlen,
      ← Nat.shiftLeft_add]

theorem rightComb_eq_clmul {a b : Nat} (ha : a < 2 ^ F.elemBits) (hb : b < 2 ^ F.elemBits) :
    rightComb F a b = clmul a b := by
  have hrange : List.range limbBits = List.range 63 ++ [63] := List.range_succ
  rw [rightComb, hrange, List.foldl_concat, foldl_rightCombRound hb (by norm_num), rightCombRound,
    bitPass_shiftLeft, limbFields_limb, Nat.mod_eq_of_lt ha]

/-! ## Shift and add (R174), and the reducing loop (R177) -/

theorem foldl_shiftedXor_eq_clmulLow (a b n : Nat) :
    (List.range n).foldl (fun c i => if getBit a i = 1 then shiftedXor c b i else c) 0
      = clmulLow a b n := by
  induction n with
  | zero => rfl
  | succ n ih => rw [List.range_succ, List.foldl_concat, ih, clmulLow, shiftedXor]

theorem shiftAndAdd_eq_clmul {a : Nat} (b : Nat) (ha : a < 2 ^ F.elemBits) :
    shiftAndAdd F a b = clmul a b := by
  rw [shiftAndAdd, foldl_shiftedXor_eq_clmulLow, clmulLow_eq_clmul b ha]

/-- Multiplying by x modulo f is a shift and a cancellation. -/
theorem noReduceRound_eq (F : FieldId) (a s c i : Nat) :
    noReduceRound F a (s, c) i
      = (cancelBit F (s <<< 1) 0, if getBit a i = 1 then c ^^^ s else c) := by
  simp only [noReduceRound, cancelBit, getBit_eq_one_iff, Nat.zero_add, Nat.shiftLeft_zero]

/-- After `n` rounds of R177: the remainders of `b·x^n` and of the product of the low `n` bits. -/
theorem isRemainder_foldl_noReduceRound {a b : Nat} (hb : b < 2 ^ F.degree) (n : Nat) :
    IsRemainder F (b <<< n) ((List.range n).foldl (noReduceRound F a) (b, 0)).1 ∧
      IsRemainder F (clmulLow a b n) ((List.range n).foldl (noReduceRound F a) (b, 0)).2 := by
  simp only [isRemainder_iff]
  induction n with
  | zero => exact ⟨⟨hb, .refl F b⟩, ⟨by positivity, .refl F 0⟩⟩
  | succ n ih =>
    rw [List.range_succ, List.foldl_concat]
    generalize (List.range n).foldl (noReduceRound F a) (b, 0) = st at ih ⊢
    obtain ⟨s, c⟩ := st
    obtain ⟨⟨hs, hscongr⟩, ⟨hc, hccongr⟩⟩ := ih
    have hs1 : s <<< 1 < 2 ^ (0 + F.degree + 1) := by
      rw [Nat.zero_add]
      exact Nat.shiftLeft_lt hs
    rw [noReduceRound_eq, clmulLow, Nat.shiftLeft_add]
    refine ⟨⟨?_, (hscongr.shiftLeft 1).trans (polyCongr_cancelBit F _ 0)⟩, ?_⟩
    · simpa using cancelBit_lt hs1
    · split
      · exact ⟨Nat.xor_lt_two_pow hc hs, hccongr.xor hscongr⟩
      · exact ⟨hc, hccongr⟩

theorem noReduceMul_eq_fmul {a b : Nat} (ha : a < 2 ^ F.degree) (hb : b < 2 ^ F.degree) :
    noReduceMul F a b = fmul F a b := by
  have hrem := (isRemainder_foldl_noReduceRound (a := a) hb F.degree).2
  rw [clmulLow_eq_clmul b ha] at hrem
  exact (fmul_eq_of_isRemainder ha hb hrem).symm

/-! ## The spreading table (R190), which MUL uses for equal values (R173) -/

/-- The table holds the squares of the 4-bit values. -/
theorem spread_eq_clmul {u : Nat} (hu : u < 2 ^ window) : spread u = clmul u u := by
  revert u
  decide

theorem foldl_sqrwRound (a n : Nat) :
    (List.range n).foldl (sqrwRound a) 0
      = clmul (a % 2 ^ (window * n)) (a % 2 ^ (window * n)) := by
  induction n with
  | zero => simp [Nat.mod_one]
  | succ n ih =>
    have hchunk : getBits a (window * n) window < 2 ^ window := Nat.mod_lt _ (by norm_num)
    rw [List.range_succ, List.foldl_concat, ih, sqrwRound, spread_eq_clmul hchunk, Nat.mul_succ,
      mod_two_pow_add, clmul_self_xor, clmul_shiftLeft_left, clmul_shiftLeft_right,
      ← Nat.shiftLeft_add, Nat.two_mul]

theorem sqrw_eq_clmul {a : Nat} (ha : a < 2 ^ F.elemBits) : sqrw F a = clmul a a := by
  have hbits : window * (F.elemBits / window) = F.elemBits := by cases F <;> rfl
  rw [sqrw, foldl_sqrwRound, hbits, Nat.mod_eq_of_lt ha]

end Sys2Proof.Machine
end

section
/-! # The multiplication commands

O41 and O43. On canonical sources every multiplication completes; what it writes is the carryless
product, or its reduction. -/

namespace Sys2Proof.Machine

variable {F : FieldId} {s : State} {ra rb : EReg}

/-- The bits of a product of two canonical values (R155, R172). -/
theorem clmul_lt_of_canonical {a b : Nat} (ha : a < 2 ^ F.degree) (hb : b < 2 ^ F.degree) :
    clmul a b < 2 ^ (2 * F.degree - 1) := by
  obtain ⟨d, hd⟩ : ∃ d, F.degree = d + 1 := Nat.exists_eq_add_one.mpr (degree_pos F)
  have hexp : 2 * F.degree - 1 = F.degree + d := by omega
  rw [hexp, ← clmulLow_eq_clmul b ha]
  exact clmulLow_lt_of_degree_le a F.degree (hd ▸ hb)

/-- MULW on canonical sources leaves the carryless product in its wide register (R172). -/
theorem exec_mulw (hquiet : s.engine.err = false) (ha : s.engine.Canonical ra)
    (hb : s.engine.Canonical rb) (rd : CReg) :
    ∃ m : Engine s.field, exec (.mulw rd ra rb) s = .next (s.withEngine m) ∧
      OnlyVecChanges (.c rd) s.engine m ∧
      m.readC rd = clmul (s.engine.readE ra) (s.engine.readE rb) := by
  have hfault : commandFault s.engine (.mulw rd ra rb) = none :=
    commandFault_eq_none_of_canonical rfl rfl (by simp [canonicalSources, ha, hb]) rfl
  have hvalue : commandValue s.engine (.mulw rd ra rb)
      = clmul (s.engine.readE ra) (s.engine.readE rb) :=
    mulw_eq_clmul (canonical_fits ha) (canonical_fits hb)
  have hfits : commandValue s.engine (.mulw rd ra rb) < 2 ^ s.field.wideBits := by
    rw [hvalue]
    exact clmul_lt_wide (canonical_fits ha) (canonical_fits hb)
  obtain ⟨m, hexec, honly, hread⟩ := exec_writes_vec hquiet hfault rfl hfits
  exact ⟨m, hexec, honly, hread.trans hvalue⟩

/-- Settles O41. -/
theorem mulwWritesTheCarrylessProduct : Obligations.MulwWritesTheCarrylessProduct := by
  intro s rd ra rb hquiet ha hb
  obtain ⟨m, hexec, honly, hread⟩ := exec_mulw hquiet ha hb rd
  exact ⟨m, hexec, honly, hread, hread ▸ clmul_lt_of_canonical ha hb⟩

/-- RED leaves the reduction of its wide register in an element register (R161). -/
theorem exec_red {s : State} (hquiet : s.engine.err = false) (rd : EReg) (ra : CReg) :
    ∃ m : Engine s.field, exec (.red rd ra) s = .next (s.withEngine m) ∧
      OnlyVecChanges (.e rd) s.engine m ∧ m.readE rd = reduce s.field (s.engine.readC ra) :=
  exec_writes_vec (i := .red rd ra) hquiet (commandFault_eq_none s.engine rfl rfl rfl) rfl
    (canonical_fits (isRemainder_reduce (s.engine.readC_lt ra)).1)

/-! ## MUL and its variants -/

/-- The five commands that write a field product (R173 to R177). -/
def fieldMultiplications (rd ra rb : EReg) : List Instr :=
  [.mul rd ra rb, .mulsa rd ra rb, .mulrl rd ra rb, .mullr rd ra rb, .mulnr rd ra rb]

/-- Each procedure ends in the field product of canonical sources (R178). -/
theorem commandValue_fieldMultiplications {m : Engine F} {rd : EReg} {i : Instr}
    (ha : m.Canonical ra) (hb : m.Canonical rb) (hi : i ∈ fieldMultiplications rd ra rb) :
    commandValue m i = fmul F (m.readE ra) (m.readE rb) := by
  have hae := canonical_fits ha
  have hbe := canonical_fits hb
  simp only [fieldMultiplications, List.mem_cons, List.not_mem_nil, or_false] at hi
  rcases hi with rfl | rfl | rfl | rfl | rfl
  · rw [commandValue, fmul]
    split
    · next heq => rw [sqrw_eq_clmul hae, heq]
    · rw [mulw_eq_clmul hae hbe]
  · rw [commandValue, shiftAndAdd_eq_clmul _ hae, fmul]
  · rw [commandValue, rightComb_eq_clmul hae hbe, fmul]
  · rw [commandValue, leftComb_eq_clmul hae hbe, fmul]
  · rw [commandValue, noReduceMul_eq_fmul ha hb]

/-- MUL and its variants on canonical sources leave the field product in `E[rd]` (R170). -/
theorem exec_fieldMultiplications {rd : EReg} {i : Instr} (hquiet : s.engine.err = false)
    (ha : s.engine.Canonical ra) (hb : s.engine.Canonical rb)
    (hi : i ∈ fieldMultiplications rd ra rb) :
    ∃ m : Engine s.field, exec i s = .next (s.withEngine m) ∧
      OnlyVecChanges (.e rd) s.engine m ∧
      m.readE rd = fmul s.field (s.engine.readE ra) (s.engine.readE rb) := by
  have hvalue := commandValue_fieldMultiplications ha hb hi
  have hshape : canonicalSources i = [ra, rb] ∧ zeroDivisor s.engine i = false ∧
      destination i = .vec (.e rd) := by
    simp only [fieldMultiplications, List.mem_cons, List.not_mem_nil, or_false] at hi
    rcases hi with rfl | rfl | rfl | rfl | rfl <;> exact ⟨rfl, rfl, rfl⟩
  obtain ⟨hsrc, hzero, hdest⟩ := hshape
  obtain ⟨hlen, hrange⟩ : i.wellFormed = true ∧ rangeBad s.field i = false :=
    tests_pass_of_mem_canonicalSources (r := ra) (by simp [hsrc])
  have hfault : commandFault s.engine i = none :=
    commandFault_eq_none_of_canonical hlen hrange (by simp [hsrc, ha, hb]) hzero
  have hfits : commandValue s.engine i < 2 ^ s.field.elemBits := by
    rw [hvalue]
    exact canonical_fits (fmul_lt ha hb)
  obtain ⟨m, hexec, honly, hread⟩ := exec_writes_vec hquiet hfault hdest hfits
  exact ⟨m, hexec, honly, hread.trans hvalue⟩

/-- A command that writes a vector register latches nothing. -/
theorem OnlyVecChanges.err_eq {r : VReg} {m m' : Engine F} (h : OnlyVecChanges r m m') :
    m'.err = m.err := by
  obtain ⟨-, hstatus, -, -⟩ := h
  rw [Engine.err, Engine.err, hstatus]

/-- Settles O43: the value is the field product. -/
theorem allMultiplicationsWriteTheFieldProduct :
    Obligations.AllMultiplicationsWriteTheFieldProduct := by
  intro s rd ra rb hquiet ha hb
  refine ⟨fmul s.field (s.engine.readE ra) (s.engine.readE rb), isRemainder_fmul ha hb,
    fun i hi => exec_fieldMultiplications hquiet ha hb hi, fun q => ?_⟩
  obtain ⟨m, hmulw, honly, hproduct⟩ := exec_mulw hquiet ha hb q
  obtain ⟨n, hred, -, hread⟩ := exec_red (s := s.withEngine m) (honly.err_eq.trans hquiet) rd q
  exact ⟨m, n, hmulw, hred, hread.trans (congrArg (reduce s.field) hproduct)⟩

end Sys2Proof.Machine
end

section
/-! # The field square

O44 and O45. Squaring over GF(2) is additive, so the square of a sum of powers `x^p` is the sum of
the `x^(2p)`: both spreading procedures compute it (R190, R193), and SQR, SQRB and every
multiplication of equal values reduce it. -/

namespace Sys2Proof.Machine

variable {F : FieldId} {s : State} {ra : EReg}

/-! ## The carryless square, bit by bit -/

/-- A binary numeral as a polynomial: `x·A + b` (R12). -/
theorem bit_eq_shiftLeft_xor (b : Bool) (n : Nat) : Nat.bit b n = n <<< 1 ^^^ b.toNat := by
  have hshift : n <<< 1 = Nat.bit false n := by simp [Nat.bit_val, Nat.shiftLeft_eq, Nat.mul_comm]
  have hbit : b.toNat = Nat.bit b 0 := by simp [Nat.bit_val]
  rw [hshift, hbit, Nat.xor_bit, Nat.xor_zero, Bool.false_bne]

theorem clmul_self_bool (b : Bool) : clmul b.toNat b.toNat = b.toNat := by cases b <;> rfl

/-- `(x·A + b)² = x²·A² + b` (R190). -/
theorem clmul_self_bit (b : Bool) (n : Nat) :
    clmul (Nat.bit b n) (Nat.bit b n) = Nat.bit b (Nat.bit false (clmul n n)) := by
  simp only [bit_eq_shiftLeft_xor, clmul_self_xor, clmul_shiftLeft_left, clmul_shiftLeft_right,
    clmul_self_bool, Bool.toNat_false, Nat.xor_zero]

/-- The square has the bits of `a` at the even positions and 0 at the odd ones (R190). -/
theorem testBit_clmul_self (a p : Nat) :
    (clmul a a).testBit (2 * p) = a.testBit p ∧ (clmul a a).testBit (2 * p + 1) = false := by
  induction a using Nat.binaryRec generalizing p with
  | zero => simp
  | bit b n ih =>
    rw [clmul_self_bit]
    cases p with
    | zero => simp [Nat.testBit_bit_succ]
    | succ p => simpa only [Nat.mul_succ, Nat.testBit_bit_succ] using ih p

/-- R193's loop squares the low `n` bits. -/
theorem foldl_sqrbRound (a n : Nat) :
    (List.range n).foldl (sqrbRound a) 0 = clmul (a % 2 ^ n) (a % 2 ^ n) := by
  induction n with
  | zero => simp [Nat.mod_one]
  | succ n ih =>
    rw [List.range_succ, List.foldl_concat, ih, sqrbRound, mod_two_pow_add, getBits_one,
      clmul_self_xor]
    rcases Nat.lt_succ_iff_lt_or_eq.mp (getBit_lt a n) with hbit | hbit
    · simp [Nat.lt_one_iff.mp hbit]
    · rw [if_pos hbit, hbit, Nat.one_shiftLeft, clmul_two_pow_left, two_pow_shiftLeft, flipBit,
        Nat.two_mul]

theorem sqrbSpread_eq_clmul {a : Nat} (ha : a < 2 ^ F.elemBits) : sqrbSpread F a = clmul a a := by
  rw [sqrbSpread, foldl_sqrbRound, Nat.mod_eq_of_lt ha]

/-! ## SQRW -/

/-- Settles O44: SQRW writes the carryless square, which fits the wide register. -/
theorem sqrwSpreadsTheBits : Obligations.SqrwSpreadsTheBits := by
  intro s rd ra hquiet ha
  have hfault : commandFault s.engine (.sqrw rd ra) = none :=
    commandFault_eq_none_of_canonical rfl rfl (by simp [canonicalSources, ha]) rfl
  have hvalue : commandValue s.engine (.sqrw rd ra)
      = clmul (s.engine.readE ra) (s.engine.readE ra) := sqrw_eq_clmul (canonical_fits ha)
  have hfits : commandValue s.engine (.sqrw rd ra) < 2 ^ s.field.wideBits := by
    rw [hvalue]
    exact clmul_lt_wide (canonical_fits ha) (canonical_fits ha)
  obtain ⟨m, hexec, honly, hread⟩ := exec_writes_vec hquiet hfault rfl hfits
  have hsquare : m.readC rd = clmul (s.engine.readE ra) (s.engine.readE ra) := hread.trans hvalue
  refine ⟨m, hexec, honly, fun p => ?_, fun p => ?_, hsquare⟩
  · rw [hsquare]
    exact (testBit_clmul_self _ p).1
  · rw [hsquare]
    exact (testBit_clmul_self _ p).2

/-! ## SQR and SQRB -/

/-- The two commands that write a field square (R192, R193). -/
def fieldSquarings (rd ra : EReg) : List Instr := [.sqr rd ra, .sqrb rd ra]

/-- SQR and SQRB on a canonical source leave the field square in `E[rd]` (R192, R193). -/
theorem exec_fieldSquarings {rd : EReg} {i : Instr} (hquiet : s.engine.err = false)
    (ha : s.engine.Canonical ra) (hi : i ∈ fieldSquarings rd ra) :
    ∃ m : Engine s.field, exec i s = .next (s.withEngine m) ∧ OnlyVecChanges (.e rd) s.engine m ∧
      m.readE rd = fmul s.field (s.engine.readE ra) (s.engine.readE ra) := by
  have hshape : commandFault s.engine i = none ∧ destination i = .vec (.e rd) ∧
      commandValue s.engine i = fmul s.field (s.engine.readE ra) (s.engine.readE ra) := by
    have hae := canonical_fits ha
    simp only [fieldSquarings, List.mem_cons, List.not_mem_nil, or_false] at hi
    rcases hi with rfl | rfl
    · exact ⟨commandFault_eq_none_of_canonical rfl rfl (by simp [canonicalSources, ha]) rfl, rfl,
        congrArg (reduce s.field) (sqrw_eq_clmul hae)⟩
    · exact ⟨commandFault_eq_none_of_canonical rfl rfl (by simp [canonicalSources, ha]) rfl, rfl,
        congrArg (reduce s.field) (sqrbSpread_eq_clmul hae)⟩
  obtain ⟨hfault, hdest, hvalue⟩ := hshape
  have hfits : commandValue s.engine i < 2 ^ s.field.elemBits := by
    rw [hvalue]
    exact canonical_fits (fmul_lt ha ha)
  obtain ⟨m, hexec, honly, hread⟩ := exec_writes_vec hquiet hfault hdest hfits
  exact ⟨m, hexec, honly, hread.trans hvalue⟩

/-- Settles O45: the value is the field product of the operand with itself. -/
theorem squaringsWriteTheFieldSquare : Obligations.SquaringsWriteTheFieldSquare := by
  intro s rd ra rb hquiet ha hab
  have hb : s.engine.Canonical rb := by rwa [Engine.Canonical, hab]
  refine ⟨fmul s.field (s.engine.readE ra) (s.engine.readE ra), isRemainder_fmul ha ha,
    fun i hi => ?_⟩
  have hsplit : i ∈ fieldSquarings rd ra ++ fieldMultiplications rd ra rb := hi
  rcases List.mem_append.mp hsplit with hsquaring | hproduct
  · exact exec_fieldSquarings hquiet ha hsquaring
  · obtain ⟨m, hexec, honly, hread⟩ := exec_fieldMultiplications hquiet ha hb hproduct
    exact ⟨m, hexec, honly, by rw [hread, hab]⟩

end Sys2Proof.Machine
end

section
/-! # Frobenius: `a^(2^D) = a`

O52. Squaring is additive and multiplicative, so `a^(2^D)` is congruent to `a` for every polynomial
`a` if `x^(2^D)` is congruent to `x`. That is a computation for each of the nine polynomials; it
runs on a squaring that spreads all bits at once. -/

namespace Sys2Proof.Machine

variable {F : FieldId}

/-! ## Repeated squaring of polynomials -/

/-- `a^(2^n)`, unreduced. -/
def frobenius (n a : Nat) : Nat := (fun v => clmul v v)^[n] a

theorem frobenius_succ (n a : Nat) : frobenius (n + 1) a = frobenius n (clmul a a) := rfl

theorem frobenius_xor (n a b : Nat) :
    frobenius n (a ^^^ b) = frobenius n a ^^^ frobenius n b := by
  induction n generalizing a b with
  | zero => rfl
  | succ n ih => rw [frobenius_succ, clmul_self_xor, ih, ← frobenius_succ, ← frobenius_succ]

theorem frobenius_clmul (n a b : Nat) :
    frobenius n (clmul a b) = clmul (frobenius n a) (frobenius n b) := by
  induction n generalizing a b with
  | zero => rfl
  | succ n ih =>
    have hswap : clmul (clmul a b) (clmul a b) = clmul (clmul a a) (clmul b b) := by
      rw [clmul_assoc, clmul_assoc, ← clmul_assoc b, clmul_comm b a, clmul_assoc a b]
    rw [frobenius_succ, hswap, ih, ← frobenius_succ, ← frobenius_succ]

theorem frobenius_bool (n : Nat) (b : Bool) : frobenius n b.toNat = b.toNat := by
  induction n with
  | zero => rfl
  | succ n ih => rw [frobenius_succ, clmul_self_bool, ih]

theorem PolyCongr.frobenius {x y : Nat} (n : Nat) (h : PolyCongr F x y) :
    PolyCongr F (frobenius n x) (frobenius n y) := by
  induction n generalizing x y with
  | zero => exact h
  | succ n ih => exact ih ((h.clmul_left x).trans (h.clmul_right y))

/-- `x^(2^n) ≡ x` carries over from x to every polynomial, by Horner's rule. -/
theorem polyCongr_frobenius_of_two {n : Nat} (h : PolyCongr F (frobenius n 2) 2) (a : Nat) :
    PolyCongr F (frobenius n a) a := by
  induction a using Nat.binaryRec with
  | zero => exact (frobenius_bool n false).symm ▸ .refl F 0
  | bit b a ih =>
    have hbit : Nat.bit b a = clmul a 2 ^^^ b.toNat := by
      rw [bit_eq_shiftLeft_xor, ← clmul_two_pow_right, pow_one]
    rw [hbit, frobenius_xor, frobenius_clmul, frobenius_bool]
    exact ((ih.clmul_right _).trans (h.clmul_left a)).xor (.refl F _)

/-! ## Spreading all bits at once -/

/-- The positions below `2^(j+n+1)` whose bit `j` is 0: every other block of `2^j` bits. -/
def evenBlocks (j : Nat) : Nat → Nat
  | 0 => 2 ^ 2 ^ j - 1
  | n + 1 => evenBlocks j n ^^^ evenBlocks j n <<< 2 ^ (j + n + 1)

theorem testBit_evenBlocks (j n p : Nat) :
    (evenBlocks j n).testBit p = (decide (p < 2 ^ (j + n + 1)) && !p.testBit j) := by
  induction n generalizing p with
  | zero =>
    rw [evenBlocks, Nat.testBit_two_pow_sub_one, Nat.add_zero]
    rcases Nat.lt_or_ge p (2 ^ j) with hp | hp
    · simp [hp, Nat.testBit_lt_two_pow hp, hp.trans (Nat.pow_lt_pow_succ Nat.one_lt_two)]
    · obtain ⟨q, rfl⟩ := Nat.exists_eq_add_of_le hp
      have hq : q < 2 ^ j → q.testBit j = false := Nat.testBit_lt_two_pow
      simpa [Nat.testBit_two_pow_add_eq, pow_succ, Nat.mul_two] using hq
  | succ n ih =>
    rw [evenBlocks, Nat.testBit_xor, Nat.testBit_shiftLeft, ih, ih, ← Nat.add_assoc,
      pow_succ _ (j + n + 1), Nat.mul_two]
    rcases Nat.lt_or_ge p (2 ^ (j + n + 1)) with hp | hp
    · simp [hp, hp.not_ge, Nat.lt_add_right _ hp]
    · obtain ⟨q, rfl⟩ := Nat.exists_eq_add_of_le hp
      simp [Nat.testBit_two_pow_add_gt (show j < j + n + 1 by omega)]

/-- One round: of every block of `2^(j+1)` bits the upper half moves up by `2^j`. -/
def spreadRound (j n v : Nat) : Nat := (v ^^^ v <<< 2 ^ j) &&& evenBlocks j n

theorem spreadRound_xor (j n v w : Nat) :
    spreadRound j n (v ^^^ w) = spreadRound j n v ^^^ spreadRound j n w := by
  rw [spreadRound, spreadRound, spreadRound, ← Nat.and_xor_distrib_right, Nat.shiftLeft_xor_distrib]
  congr 1
  ac_rfl

theorem spreadRound_two_pow {j n p : Nat} (hp : p < 2 ^ (j + n + 1))
    (hmoved : p.testBit j = true → p + 2 ^ j < 2 ^ (j + n + 1)) :
    spreadRound j n (2 ^ p) = 2 ^ (if p.testBit j then p + 2 ^ j else p) := by
  have hflip : (p + 2 ^ j).testBit j = !p.testBit j := by
    rw [Nat.add_comm, Nat.testBit_two_pow_add_eq]
  rw [spreadRound, two_pow_shiftLeft, Nat.and_xor_distrib_right, Nat.two_pow_and, Nat.two_pow_and,
    testBit_evenBlocks, testBit_evenBlocks, hflip]
  cases hbit : p.testBit j with
  | false => simp [hp]
  | true => simp [hmoved hbit]

/-- The rounds from `j - 1` down to 0, for numbers of `2^n` bits. -/
def spreadRounds (n : Nat) : Nat → Nat → Nat
  | 0, v => v
  | j + 1, v => spreadRounds n j (spreadRound j (n - j) v)

theorem spreadRounds_xor (n j v w : Nat) :
    spreadRounds n j (v ^^^ w) = spreadRounds n j v ^^^ spreadRounds n j w := by
  induction j generalizing v w with
  | zero => rfl
  | succ j ih => rw [spreadRounds, spreadRound_xor, ih, ← spreadRounds, ← spreadRounds]

/-- Before the rounds below `j`, block `h` of `2^j` bits begins at `2^(j+1)·h`; these rounds bring
its bit `l` to twice the place `2^j·h + l` it had at first. -/
theorem spreadRounds_two_pow {n j h l : Nat} (hj : j ≤ n) (hl : l < 2 ^ j)
    (hfits : 2 ^ j * h + l < 2 ^ n) :
    spreadRounds n j (2 ^ (2 ^ (j + 1) * h + l)) = 2 ^ (2 * (2 ^ j * h + l)) := by
  induction j generalizing h l with
  | zero =>
    obtain rfl : l = 0 := Nat.lt_one_iff.mp hl
    simp [spreadRounds]
  | succ j ih =>
    have hwidth : 2 ^ (j + (n - j) + 1) = 2 * 2 ^ n := by
      rw [Nat.add_sub_cancel' (Nat.le_of_succ_le hj), pow_succ, Nat.mul_comm]
    have hslot : 2 ^ (j + 1 + 1) * h = 2 * (2 ^ (j + 1) * h) := by ring
    have hbit : (2 ^ (j + 1 + 1) * h + l).testBit j = l.testBit j := by
      rw [Nat.testBit_two_pow_mul_add _ (hl.trans (Nat.pow_lt_pow_succ Nat.one_lt_two)),
        if_pos (by omega)]
    have hp : 2 ^ (j + 1 + 1) * h + l < 2 ^ (j + (n - j) + 1) := by omega
    rcases Nat.lt_or_ge l (2 ^ j) with hlow | hhigh
    · have hzero : l.testBit j = false := Nat.testBit_lt_two_pow hlow
      have hplace : 2 ^ (j + 1) * h + l = 2 ^ j * (2 * h) + l := by ring
      have hnext : 2 ^ (j + 1 + 1) * h + l = 2 ^ (j + 1) * (2 * h) + l := by ring
      rw [spreadRounds, spreadRound_two_pow hp (by simp [hbit, hzero]), hbit, hzero,
        if_neg Bool.false_ne_true, hnext, ih (by omega) hlow (hplace ▸ hfits), hplace]
    · obtain ⟨i, rfl⟩ := Nat.exists_eq_add_of_le hhigh
      have hi : i < 2 ^ j := by rw [pow_succ] at hl; omega
      have hone : (2 ^ j + i).testBit j = true := by
        rw [Nat.testBit_two_pow_add_eq, Nat.testBit_lt_two_pow hi, Bool.not_false]
      have hplace : 2 ^ (j + 1) * h + (2 ^ j + i) = 2 ^ j * (2 * h + 1) + i := by ring
      have hnext : 2 ^ (j + 1 + 1) * h + (2 ^ j + i) + 2 ^ j = 2 ^ (j + 1) * (2 * h + 1) + i := by
        ring
      rw [spreadRounds, spreadRound_two_pow hp (fun _ => by omega), hbit, hone, if_pos rfl, hnext,
        ih (by omega) hi (hplace ▸ hfits), hplace]

/-- Squaring by spreading, for numbers of `2^n` bits. -/
theorem spreadRounds_eq_clmul {n v : Nat} (hv : v < 2 ^ 2 ^ n) :
    spreadRounds n n v = clmul v v := by
  have hpow : ∀ k, spreadRounds n n (2 ^ k % 2 ^ 2 ^ n)
      = clmul (2 ^ k % 2 ^ 2 ^ n) (2 ^ k % 2 ^ 2 ^ n) := by
    intro k
    rcases Nat.lt_or_ge k (2 ^ n) with hk | hk
    · have hspread := spreadRounds_two_pow (h := 0) le_rfl hk (by simpa using hk)
      rw [Nat.mod_eq_of_lt (Nat.pow_lt_pow_right Nat.one_lt_two hk), clmul_two_pow_left,
        two_pow_shiftLeft, ← Nat.two_mul]
      simpa using hspread
    · have hzero := spreadRounds_xor n n 0 0
      rw [Nat.mod_eq_zero_of_dvd (pow_dvd_pow 2 hk)]
      simpa using hzero
  have hall := eq_of_additive (f := fun v => spreadRounds n n (v % 2 ^ 2 ^ n))
    (g := fun v => clmul (v % 2 ^ 2 ^ n) (v % 2 ^ 2 ^ n))
    (fun x y => by rw [Nat.xor_mod_two_pow, spreadRounds_xor])
    (fun x y => by rw [Nat.xor_mod_two_pow, clmul_self_xor]) hpow v
  rwa [Nat.mod_eq_of_lt hv] at hall

/-! ## Folding the high part -/

/-- The exponents of r(x) (R7). -/
def lowExponents : FieldId → List Nat
  | .d113 => [0, 9]
  | .d131 => [0, 2, 3, 8]
  | .d163 => [0, 3, 6, 7]
  | .d193 => [0, 15]
  | .d233 => [0, 74]
  | .d239 => [0, 36]
  | .d283 => [0, 5, 7, 12]
  | .d409 => [0, 87]
  | .d571 => [0, 2, 5, 10]

/-- The sum of `x^k·A` over the exponents `k` of a list. -/
def sumShifts (a : Nat) (ks : List Nat) : Nat := ks.foldr (fun k c => a <<< k ^^^ c) 0

theorem sumShifts_eq_clmul (a : Nat) (ks : List Nat) :
    sumShifts a ks = clmul a (sumShifts 1 ks) := by
  induction ks with
  | nil => exact (clmul_zero_right a).symm
  | cons k ks ih =>
    simp only [sumShifts, List.foldr_cons] at ih ⊢
    rw [ih, clmul_xor_right, Nat.one_shiftLeft, clmul_two_pow_right]

theorem sumShifts_lowExponents (F : FieldId) : sumShifts 1 (lowExponents F) = F.r := by
  cases F <;> rfl

/-- The part from `x^D` up replaced by its product with r(x), to which `x^D` is congruent. -/
def foldHigh (F : FieldId) (v : Nat) : Nat :=
  v % 2 ^ F.degree ^^^ sumShifts (v >>> F.degree) (lowExponents F)

theorem polyCongr_foldHigh (F : FieldId) (v : Nat) : PolyCongr F v (foldHigh F v) := by
  have hsplit : v = v % 2 ^ F.degree ^^^ (v >>> F.degree) <<< F.degree := by
    apply Nat.eq_of_testBit_eq
    intro p
    rw [Nat.testBit_xor, Nat.testBit_mod_two_pow, Nat.testBit_shiftLeft, Nat.testBit_shiftRight]
    by_cases hp : p < F.degree
    · simp [hp, hp.not_ge]
    · simp [hp, Nat.not_lt.mp hp]
  have hhigh : PolyCongr F ((v >>> F.degree) <<< F.degree) (clmul (v >>> F.degree) F.r) :=
    ⟨v >>> F.degree, by rw [poly_eq_xor, clmul_xor_right, clmul_two_pow_right]⟩
  rw [foldHigh, sumShifts_eq_clmul, sumShifts_lowExponents]
  nth_rw 1 [hsplit]
  exact (PolyCongr.refl F _).xor hhigh

/-! ## The computation -/

/-- A value congruent to the square, folded as often as the nine polynomials need. -/
def quickSquare (F : FieldId) (v : Nat) : Nat := foldHigh F (foldHigh F (spreadRounds 10 10 v))

theorem polyCongr_quickSquare {v : Nat} (hv : v < 2 ^ F.degree) :
    PolyCongr F (clmul v v) (quickSquare F v) := by
  have hD : F.degree ≤ 2 ^ 10 := by cases F <;> decide
  rw [← spreadRounds_eq_clmul (hv.trans_le (Nat.pow_le_pow_right (by norm_num) hD))]
  exact (polyCongr_foldHigh F _).trans (polyCongr_foldHigh F _)

/-- Whether `n` quick squarings of `v`, each of a canonical value, end in x. -/
def squaresToX (F : FieldId) : Nat → Nat → Bool
  | 0, v => v == 2
  | n + 1, v => decide (v < 2 ^ F.degree) && squaresToX F n (quickSquare F v)

theorem polyCongr_of_squaresToX {n v : Nat} (h : squaresToX F n v = true) :
    PolyCongr F (frobenius n v) 2 := by
  induction n generalizing v with
  | zero => exact beq_iff_eq.mp h ▸ .refl F 2
  | succ n ih =>
    obtain ⟨hlt, hrest⟩ := Bool.and_eq_true_iff.mp h
    exact ((polyCongr_quickSquare (of_decide_eq_true hlt)).frobenius n).trans (ih hrest)

theorem squaresToX_degree (F : FieldId) : squaresToX F F.degree 2 = true := by
  cases F <;> decide +kernel

/-- `a^(2^D) ≡ a (mod f)` for every polynomial `a` (R192). -/
theorem polyCongr_frobenius_degree (F : FieldId) (a : Nat) :
    PolyCongr F (frobenius F.degree a) a :=
  polyCongr_frobenius_of_two (polyCongr_of_squaresToX (squaresToX_degree F)) a

/-! ## Repeated field squares -/

/-- `n` field squares of `a`. -/
def fieldSquares (F : FieldId) (n a : Nat) : Nat := (fun v => fmul F v v)^[n] a

theorem isRemainder_fieldSquares {a : Nat} (n : Nat) (ha : a < 2 ^ F.degree) :
    IsRemainder F (frobenius n a) (fieldSquares F n a) := by
  induction n generalizing a with
  | zero => exact isRemainder_iff.mpr ⟨ha, .refl F a⟩
  | succ n ih =>
    obtain ⟨hlt, hcongr⟩ := isRemainder_iff.mp (ih (fmul_lt ha ha))
    exact isRemainder_iff.mpr ⟨hlt, ((polyCongr_fmul ha ha).frobenius n).trans hcongr⟩

/-- `D` field squares of a canonical value give it back (R192). -/
theorem fieldSquares_degree {a : Nat} (ha : a < 2 ^ F.degree) :
    fieldSquares F F.degree a = a :=
  remainderIsUnique F _ _ _ (isRemainder_fieldSquares F.degree ha)
    (isRemainder_iff.mpr ⟨ha, polyCongr_frobenius_degree F a⟩)

/-! ## Repeated SQR at the port -/

theorem OnlyVecChanges.refl (r : VReg) (m : Engine F) : OnlyVecChanges r m m :=
  ⟨fun _ _ => rfl, rfl, rfl, rfl⟩

theorem OnlyVecChanges.trans {r : VReg} {m m' m'' : Engine F} (h : OnlyVecChanges r m m')
    (h' : OnlyVecChanges r m' m'') : OnlyVecChanges r m m'' := by
  obtain ⟨hread, hstatus, hres, hecmd⟩ := h
  obtain ⟨hread', hstatus', hres', hecmd'⟩ := h'
  exact ⟨fun q hq => (hread' q hq).trans (hread q hq), hstatus'.trans hstatus, hres'.trans hres,
    hecmd'.trans hecmd⟩

/-- `n` commands `SQR r, r` leave `n` field squares of E[r] there and change nothing else but the
recorded answers (R192). -/
theorem runs_sqr {r : EReg} (n : Nat) :
    ∀ (s : State) (rest : List (Input s.field)), s.engine.err = false → s.engine.Canonical r →
      s.inputs = commandWrites s.field (List.replicate n (.sqr r r)) ++ rest →
      ∃ m : Engine s.field, OnlyVecChanges (.e r) s.engine m ∧
        m.readE r = fieldSquares s.field n (s.engine.readE r) ∧
        Runs n s
          { s with
            engine := m
            inputs := rest
            answers := List.replicate n .ok ++ s.answers } := by
  induction n with
  | zero =>
    intro s rest _ _ hinputs
    have hrest : s.inputs = rest := hinputs
    subst hrest
    exact ⟨s.engine, .refl _ _, rfl, .zero s⟩
  | succ n ih =>
    intro s rest hquiet hcanon hinputs
    obtain ⟨m, hexec, honly, hread⟩ := exec_fieldSquarings (i := .sqr r r)
      (s := s.answered (commandWrites s.field (List.replicate n (.sqr r r)) ++ rest) .ok)
      hquiet hcanon List.mem_cons_self
    have hstep := (stepRunsTheDecodedCommand s _ _ _ hinputs
      (decode_encode_of_wellFormed rfl)).trans hexec
    have hsquare : m.Canonical r := by
      rw [Engine.Canonical, hread]
      exact fmul_lt hcanon hcanon
    obtain ⟨m', honly', hread', hrun⟩ := ih ((s.answered _ .ok).withEngine m) rest
      (honly.err_eq.trans hquiet) hsquare rfl
    refine ⟨m', honly.trans honly', hread'.trans (congrArg (fieldSquares s.field n) hread),
      .succ hstep ?_⟩
    rw [List.replicate_succ', List.append_assoc]
    exact hrun

/-- Settles O52: the `D` commands leave `D` field squares. -/
theorem frobeniusRestoresTheRegister : Obligations.FrobeniusRestoresTheRegister := by
  intro s r rest hquiet hcanon hinputs
  obtain ⟨m, honly, hread, hrun⟩ := runs_sqr s.field.degree s rest hquiet hcanon hinputs
  exact ⟨_, hrun, honly.err_eq.trans hquiet, hread.trans (fieldSquares_degree hcanon)⟩

end Sys2Proof.Machine
end

section
/-! # Naturals as polynomials over GF(2)

SUPPORT. The polynomial that a natural number stands for (R12), as an element of Mathlib's ring of
polynomials over `ZMod 2`: exclusive or is the sum there, the carryless product is the product. -/

namespace Sys2Proof.Machine

open Polynomial

/-- The polynomial whose coefficients are the bits of `a` (R12). -/
noncomputable def toPoly (a : Nat) : (ZMod 2)[X] :=
  ∑ i ∈ Finset.range (bitLength a), if a.testBit i then X ^ i else 0

theorem coeff_toPoly (a i : Nat) : (toPoly a).coeff i = if a.testBit i then 1 else 0 := by
  have hterm : ∀ j, (if a.testBit j then X ^ j else 0 : (ZMod 2)[X]).coeff i
      = if i = j then (if a.testBit i then 1 else 0) else 0 := by
    intro j
    by_cases hij : i = j
    · subst hij
      cases a.testBit i <;> simp
    · cases a.testBit j <;> simp [coeff_X_pow, hij]
  rw [toPoly, finsetSum_coeff, Finset.sum_congr rfl fun j _ => hterm j, Finset.sum_ite_eq]
  split
  · rfl
  · next hi =>
    have hlt : a < 2 ^ i := bitLength_le_iff.mp (by simpa using hi)
    simp [Nat.testBit_lt_two_pow hlt]

theorem toPoly_injective : Function.Injective toPoly := by
  intro a b h
  apply Nat.eq_of_testBit_eq
  intro i
  have hcoeff : (toPoly a).coeff i = (toPoly b).coeff i := by rw [h]
  rw [coeff_toPoly, coeff_toPoly] at hcoeff
  revert hcoeff
  cases a.testBit i <;> cases b.testBit i <;> simp

@[simp] theorem toPoly_zero : toPoly 0 = 0 := rfl

@[simp] theorem toPoly_eq_zero_iff {a : Nat} : toPoly a = 0 ↔ a = 0 :=
  toPoly_injective.eq_iff' toPoly_zero

theorem toPoly_two_pow (k : Nat) : toPoly (2 ^ k) = X ^ k := by
  ext i
  rw [coeff_toPoly, coeff_X_pow, Nat.testBit_two_pow]
  simp [eq_comm]

@[simp] theorem toPoly_one : toPoly 1 = 1 := toPoly_two_pow 0

@[simp] theorem toPoly_two : toPoly 2 = X := (toPoly_two_pow 1).trans (pow_one X)

theorem toPoly_xor (a b : Nat) : toPoly (a ^^^ b) = toPoly a + toPoly b := by
  ext i
  rw [coeff_add, coeff_toPoly, coeff_toPoly, coeff_toPoly, Nat.testBit_xor]
  cases a.testBit i <;> cases b.testBit i <;> decide

theorem toPoly_shiftLeft (a k : Nat) : toPoly (a <<< k) = X ^ k * toPoly a := by
  ext i
  rw [coeff_X_pow_mul', coeff_toPoly, coeff_toPoly, Nat.testBit_shiftLeft]
  by_cases hki : k ≤ i <;> simp [hki]

/-- The carryless product is the product of polynomials (R12), by Horner's rule. -/
theorem toPoly_clmul (a b : Nat) : toPoly (clmul a b) = toPoly a * toPoly b := by
  induction a using Nat.binaryRec with
  | zero => simp
  | bit c a ih =>
    have hbool : toPoly (clmul c.toNat b) = toPoly c.toNat * toPoly b := by cases c <;> simp
    rw [bit_eq_shiftLeft_xor, clmul_xor_left, clmul_shiftLeft_left, toPoly_xor, toPoly_xor,
      toPoly_shiftLeft, toPoly_shiftLeft, ih, hbool]
    ring

theorem toPoly_frobenius (n a : Nat) : toPoly (frobenius n a) = toPoly a ^ 2 ^ n := by
  induction n generalizing a with
  | zero => exact (pow_one _).symm
  | succ n ih => rw [frobenius_succ, ih, toPoly_clmul, ← sq, ← pow_mul, ← pow_succ']

/-! ## Degrees and units -/

theorem degree_toPoly_lt {a n : Nat} (h : a < 2 ^ n) : (toPoly a).degree < n := by
  rw [degree_lt_iff_coeff_zero]
  intro i hi
  rw [coeff_toPoly, Nat.testBit_lt_two_pow (h.trans_le (Nat.pow_le_pow_right Nat.two_pos hi))]
  rfl

theorem degree_toPoly_eq {a n : Nat} (hlt : a < 2 ^ (n + 1)) (htop : a.testBit n = true) :
    (toPoly a).degree = n := by
  refine degree_eq_of_le_of_coeff_ne_zero (Order.lt_succ_iff.mp ?_) ?_
  · exact_mod_cast degree_toPoly_lt hlt
  · simp [coeff_toPoly, htop]

/-- The only unit among the polynomials over GF(2) is 1. -/
theorem eq_one_of_isUnit_toPoly {a : Nat} (h : IsUnit (toPoly a)) : a = 1 := by
  obtain ⟨r, hr, hC⟩ := isUnit_iff.mp h
  have hnonzero : ∀ r : ZMod 2, r ≠ 0 → r = 1 := by decide
  have hr1 : r = 1 := hnonzero r hr.ne_zero
  refine toPoly_injective ?_
  rw [← hC, hr1, C_1, toPoly_one]

end Sys2Proof.Machine
end

section
/-! # The nine reduction polynomials are irreducible

SUPPORT. All nine degrees `D` are prime, and f divides `x^(2^D) - x` (O52), so the degree of an
irreducible factor of f is 1 or `D`. It is not 1, for neither 0 nor 1 is a root of f (R203). -/

namespace Sys2Proof.Machine

open Polynomial

theorem degree_prime (F : FieldId) : F.degree.Prime := by
  cases F <;> norm_num [FieldId.degree]

theorem degree_toPoly_poly (F : FieldId) : (toPoly F.poly).degree = F.degree :=
  degree_toPoly_eq F.poly_lt F.testBit_poly_degree

/-- f divides `x^(2^D) - x`. -/
theorem toPoly_poly_dvd_X_pow_sub_X (F : FieldId) : toPoly F.poly ∣ X ^ 2 ^ F.degree - X := by
  obtain ⟨q, hq⟩ := polyCongr_frobenius_degree F 2
  refine ⟨toPoly q, ?_⟩
  rw [mul_comm, ← toPoly_clmul, ← hq, toPoly_xor, toPoly_frobenius, toPoly_two, CharTwo.sub_eq_add]

/-! ## Roots -/

theorem eval_toPoly_sumShifts (x : ZMod 2) (ks : List Nat) :
    (toPoly (sumShifts 1 ks)).eval x = (ks.map (x ^ ·)).sum := by
  induction ks with
  | nil => simp [sumShifts]
  | cons k ks ih =>
    simp only [sumShifts, List.foldr_cons] at ih ⊢
    rw [toPoly_xor, Nat.one_shiftLeft, toPoly_two_pow, eval_add, ih]
    simp

theorem eval_toPoly_poly (F : FieldId) (x : ZMod 2) :
    (toPoly F.poly).eval x = x ^ F.degree + ((lowExponents F).map (x ^ ·)).sum := by
  rw [poly_eq_xor, toPoly_xor, toPoly_two_pow, ← sumShifts_lowExponents, eval_add,
    eval_toPoly_sumShifts, eval_pow, eval_X]

/-- f has the constant term 1 and an odd number of terms. -/
theorem not_isRoot_toPoly_poly (F : FieldId) (x : ZMod 2) : ¬(toPoly F.poly).IsRoot x := by
  rw [IsRoot.def, eval_toPoly_poly]
  revert x
  cases F <;> decide +kernel

/-! ## Irreducibility -/

/-- A polynomial of prime degree `p` that divides `x^(2^p) - x` and has no root is irreducible. -/
theorem irreducible_of_dvd_X_pow_sub_X {f : (ZMod 2)[X]} {p : Nat} (hp : p.Prime)
    (hdeg : f.degree = p) (hdvd : f ∣ X ^ 2 ^ p - X) (hroot : ∀ x, ¬f.IsRoot x) :
    Irreducible f := by
  have hne : f ≠ 0 := by
    rintro rfl
    simp at hdeg
  have hunit : ¬IsUnit f := fun h => by
    rw [degree_eq_zero_of_isUnit h] at hdeg
    exact hp.ne_zero (by exact_mod_cast hdeg.symm)
  obtain ⟨g, hg, hgf⟩ := WfDvdMonoid.exists_irreducible_factor hunit hne
  have hgp : g.natDegree ∣ p :=
    hg.natDegree_dvd_of_dvd_X_pow_card_pow_sub_X (by simpa using hgf.trans hdvd)
  rcases hp.eq_one_or_self_of_dvd _ hgp with hone | hself
  · obtain ⟨x, hx⟩ := exists_root_of_degree_eq_one
      ((degree_eq_iff_natDegree_eq hg.ne_zero).mpr hone)
    exact absurd (hx.dvd hgf) (hroot x)
  · have hassoc := associated_of_dvd_of_natDegree_le hgf hne
      (by rw [hself, natDegree_eq_of_degree_eq_some hdeg])
    exact hassoc.irreducible hg

/-- Every f of the field table is irreducible (R203, R269). -/
theorem irreducible_toPoly_poly (F : FieldId) : Irreducible (toPoly F.poly) :=
  irreducible_of_dvd_X_pow_sub_X (degree_prime F) (degree_toPoly_poly F)
    (toPoly_poly_dvd_X_pow_sub_X F) (not_isRoot_toPoly_poly F)

/-- A canonical non-zero value has no factor in common with f (R203). -/
theorem isCoprime_toPoly_poly {F : FieldId} {a : Nat} (hpos : 0 < a) (ha : a < 2 ^ F.degree) :
    IsCoprime (toPoly a) (toPoly F.poly) := by
  refine ((irreducible_toPoly_poly F).coprime_iff_not_dvd.mpr ?_).symm
  refine not_dvd_of_degree_lt (by simpa using hpos.ne') ?_
  rw [degree_toPoly_poly]
  exact degree_toPoly_lt ha

end Sys2Proof.Machine
end

section
/-! # The inversion loop

O47. The loop keeps R202's invariants: u and v stay coprime, a·g1 and a·g2 stay congruent to them,
and g1, g2 stay short enough. Each round shortens u or v, and coprime values cannot get stuck before
u = 1 (R203). -/

namespace Sys2Proof.Machine

variable {F : FieldId} {a : Nat} {x : InvVars}

/-! ## Bit lengths -/

theorem bitLength_xor_le {v w n : Nat} (hv : bitLength v ≤ n) (hw : bitLength w ≤ n) :
    bitLength (v ^^^ w) ≤ n :=
  bitLength_le_iff.mpr (Nat.xor_lt_two_pow (bitLength_le_iff.mp hv) (bitLength_le_iff.mp hw))

theorem bitLength_shiftLeft {v : Nat} (h : v ≠ 0) (k : Nat) :
    bitLength (v <<< k) = bitLength v + k := by
  rw [bitLength_eq_size, bitLength_eq_size, Nat.size_shiftLeft h]

theorem bitLength_shiftLeft_le (v k : Nat) : bitLength (v <<< k) ≤ bitLength v + k := by
  rcases eq_or_ne v 0 with rfl | hv
  · simp
  · exact (bitLength_shiftLeft hv k).le

theorem two_le_bitLength {v : Nat} (h : 2 ≤ v) : 2 ≤ bitLength v := by
  by_contra hlt
  have hv := bitLength_le_iff.mp (Nat.lt_succ_iff.mp (not_le.mp hlt))
  omega

theorem testBit_of_bitLength_eq_succ {v n : Nat} (h : bitLength v = n + 1) :
    v.testBit n = true := by
  have hv : v ≠ 0 := by
    rintro rfl
    cases h
  rw [bitLength, if_neg hv] at h
  rw [← Nat.succ_injective h]
  exact Nat.testBit_log2 hv

/-- The top bits of two non-zero values of one length cancel (R203). -/
theorem bitLength_xor_lt {v w : Nat} (hv : v ≠ 0) (h : bitLength w = bitLength v) :
    bitLength (v ^^^ w) < bitLength v := by
  obtain ⟨n, hn⟩ : ∃ n, bitLength v = n + 1 := ⟨Nat.log2 v, if_neg hv⟩
  have hlen : bitLength (v ^^^ w) ≤ n + 1 := bitLength_xor_le hn.le (h.trans hn).le
  rw [hn, Nat.lt_succ_iff, bitLength_le_iff]
  refine lt_two_pow_of_testBit_eq_false (bitLength_le_iff.mp hlen) ?_
  rw [Nat.testBit_xor, testBit_of_bitLength_eq_succ hn, testBit_of_bitLength_eq_succ (h.trans hn)]
  rfl

/-! ## One round is a swap, if need be, and a cancellation -/

/-- (u, v) and (g1, g2) swapped (R200). -/
def InvVars.swap (x : InvVars) : InvVars := ⟨x.v, x.u, x.g2, x.g1⟩

/-- `u ⊕= v << j`, `g1 ⊕= g2 << j`, for `j` the excess of u's length over v's (R200). -/
def InvVars.cancel (x : InvVars) : InvVars :=
  { x with
    u := x.u ^^^ (x.v <<< (bitLength x.u - bitLength x.v))
    g1 := x.g1 ^^^ (x.g2 <<< (bitLength x.u - bitLength x.v)) }

theorem invRound_of_lt (h : bitLength x.u < bitLength x.v) : invRound x = x.swap.cancel := by
  have hneg : (bitLength x.u : Int) - bitLength x.v < 0 := by omega
  have habs : ((bitLength x.u : Int) - bitLength x.v).natAbs = bitLength x.v - bitLength x.u := by
    omega
  simp only [invRound, if_pos hneg, habs, InvVars.cancel, InvVars.swap]

theorem invRound_of_le (h : bitLength x.v ≤ bitLength x.u) : invRound x = x.cancel := by
  have hnonneg : ¬(bitLength x.u : Int) - bitLength x.v < 0 := by omega
  have habs : ((bitLength x.u : Int) - bitLength x.v).natAbs = bitLength x.u - bitLength x.v := by
    omega
  simp only [invRound, if_neg hnonneg, habs, InvVars.cancel]

/-! ## The invariant -/

/-- R202's invariants of the loop that inverts `a`. -/
structure InvVars.Sound (F : FieldId) (a : Nat) (x : InvVars) : Prop where
  coprime : IsCoprime (toPoly x.u) (toPoly x.v)
  two_le_v : 2 ≤ x.v
  congr_u : PolyCongr F (clmul a x.g1) x.u
  congr_v : PolyCongr F (clmul a x.g2) x.v
  length_g1 : bitLength x.g1 + bitLength x.v ≤ F.degree + 2
  length_g2 : bitLength x.g2 + bitLength x.u ≤ F.degree + 2

theorem polyCongr_zero_poly (F : FieldId) : PolyCongr F 0 F.poly :=
  ⟨1, by rw [Nat.zero_xor, clmul_one_left]⟩

theorem two_le_poly (F : FieldId) : 2 ≤ F.poly :=
  (Nat.le_self_pow (degree_pos F).ne' 2).trans (Nat.le_add_right _ _)

theorem InvVars.Sound.start (hpos : 0 < a) (ha : a < 2 ^ F.degree) :
    (invStart F a).Sound F a where
  coprime := isCoprime_toPoly_poly hpos ha
  two_le_v := two_le_poly F
  congr_u := by rw [invStart, clmul_one_right]; exact .refl F a
  congr_v := by rw [invStart, clmul_zero_right]; exact polyCongr_zero_poly F
  length_g1 := by
    have hv : bitLength F.poly ≤ F.degree + 1 := bitLength_le_iff.mpr F.poly_lt
    have hg1 : bitLength 1 = 1 := rfl
    simp only [invStart]
    omega
  length_g2 := by
    have hu : bitLength a ≤ F.degree := bitLength_le_iff.mpr ha
    simp only [invStart, bitLength_zero]
    omega

/-- u is never 0: v would be a unit (R202). -/
theorem InvVars.Sound.u_ne_zero (h : x.Sound F a) : x.u ≠ 0 := by
  intro hu
  have hunit := h.coprime
  rw [hu, toPoly_zero, isCoprime_zero_left] at hunit
  have hv := eq_one_of_isUnit_toPoly hunit
  have hv2 := h.two_le_v
  omega

theorem InvVars.Sound.two_le_u (h : x.Sound F a) (hu : x.u ≠ 1) : 2 ≤ x.u := by
  have hzero := h.u_ne_zero
  omega

theorem InvVars.Sound.swap (h : x.Sound F a) (hu : x.u ≠ 1) : x.swap.Sound F a where
  coprime := h.coprime.symm
  two_le_v := h.two_le_u hu
  congr_u := h.congr_v
  congr_v := h.congr_u
  length_g1 := h.length_g2
  length_g2 := h.length_g1

theorem InvVars.Sound.cancel_u_lt (h : x.Sound F a) (hle : bitLength x.v ≤ bitLength x.u) :
    bitLength x.cancel.u < bitLength x.u := by
  have hv : x.v ≠ 0 := (Nat.two_pos.trans_le h.two_le_v).ne'
  exact bitLength_xor_lt h.u_ne_zero
    (by rw [bitLength_shiftLeft hv, Nat.add_sub_cancel' hle])

theorem InvVars.Sound.cancel (h : x.Sound F a) (hle : bitLength x.v ≤ bitLength x.u) :
    x.cancel.Sound F a where
  coprime := by
    rw [InvVars.cancel, toPoly_xor, toPoly_shiftLeft]
    exact h.coprime.add_mul_right_left _
  two_le_v := h.two_le_v
  congr_u := by
    rw [InvVars.cancel, clmul_xor_right, clmul_shiftLeft_right]
    exact h.congr_u.xor (h.congr_v.shiftLeft _)
  congr_v := h.congr_v
  length_g1 := by
    have hg1 := h.length_g1
    have hg2 := h.length_g2
    have hshift := bitLength_shiftLeft_le x.g2 (bitLength x.u - bitLength x.v)
    have hsum : bitLength x.cancel.g1 ≤ F.degree + 2 - bitLength x.v :=
      bitLength_xor_le (by omega) (by omega)
    have hv : x.cancel.v = x.v := rfl
    rw [hv]
    omega
  length_g2 := (Nat.add_le_add_left (h.cancel_u_lt hle).le _).trans h.length_g2

/-- A round keeps the invariants and shortens u and v together (R203). -/
theorem InvVars.Sound.invRound (h : x.Sound F a) (hu : x.u ≠ 1) :
    (invRound x).Sound F a ∧
      bitLength (invRound x).u + bitLength (invRound x).v < bitLength x.u + bitLength x.v := by
  rcases Nat.lt_or_ge (bitLength x.u) (bitLength x.v) with hlt | hle
  · have hswap := h.swap hu
    have hu' : bitLength x.swap.cancel.u < bitLength x.v := hswap.cancel_u_lt hlt.le
    have hv' : x.swap.cancel.v = x.u := rfl
    rw [invRound_of_lt hlt, hv']
    exact ⟨hswap.cancel hlt.le, by omega⟩
  · have hu' := h.cancel_u_lt hle
    have hv' : x.cancel.v = x.v := rfl
    rw [invRound_of_le hle, hv']
    exact ⟨h.cancel hle, by omega⟩

/-! ## The loop -/

/-- With enough iterations the loop ends in u = 1: as long as it goes on, u and v have at least two
bits each (R203). -/
theorem InvVars.Sound.invWhile {n : Nat} (h : x.Sound F a)
    (hn : bitLength x.u + bitLength x.v ≤ n + 3) :
    (invWhile n x).Sound F a ∧ (invWhile n x).u = 1 := by
  induction n generalizing x with
  | zero =>
    refine ⟨h, by_contra fun hu => ?_⟩
    have hlen_u := two_le_bitLength (h.two_le_u hu)
    have hlen_v := two_le_bitLength h.two_le_v
    omega
  | succ n ih =>
    rw [Machine.invWhile]
    split
    · next hu => exact ⟨h, hu⟩
    · next hu =>
      obtain ⟨hround, hless⟩ := h.invRound hu
      exact ih hround (by omega)

theorem invWhile_invStart {n : Nat} (hpos : 0 < a) (ha : a < 2 ^ F.degree)
    (hn : 2 * F.degree ≤ n) :
    (invWhile n (invStart F a)).Sound F a ∧ (invWhile n (invStart F a)).u = 1 := by
  have hu : bitLength a ≤ F.degree := bitLength_le_iff.mpr ha
  have hv : bitLength F.poly ≤ F.degree + 1 := bitLength_le_iff.mpr F.poly_lt
  exact (InvVars.Sound.start hpos ha).invWhile (by simp only [invStart]; omega)

/-- Settles O47: u and v begin with at most `2D + 1` bits together. -/
theorem inversionLoopEnds : Obligations.InversionLoopEnds := by
  intro F a hpos ha
  obtain ⟨-, hu⟩ := invWhile_invStart hpos ha le_rfl
  exact hu

end Sys2Proof.Machine
end

section
/-! # The inverse and INV

O46, O48 and O51. At the loop's end `a·g1 ≡ 1` and g1 is canonical, so `inv` is the inverse of the
field product, and INV writes it. -/

namespace Sys2Proof.Machine

variable {F : FieldId} {a b : Nat}

/-! ## The value -/

/-- `inv a` is canonical, and its product with `a` is 1 modulo f (R200, R202). -/
theorem inv_lt_and_isRemainder (hpos : 0 < a) (ha : a < 2 ^ F.degree) :
    inv F a < 2 ^ F.degree ∧ IsRemainder F (clmul a (inv F a)) 1 := by
  obtain ⟨hsound, hu⟩ := invWhile_invStart (n := invBound F) hpos ha (Nat.le_succ _)
  have hlen := hsound.length_g1
  have hv := two_le_bitLength hsound.two_le_v
  refine ⟨bitLength_le_iff.mp (by rw [inv]; omega), isRemainder_iff.mpr ⟨?_, ?_⟩⟩
  · exact Nat.one_lt_two_pow (degree_pos F).ne'
  · exact hu ▸ hsound.congr_u

theorem inv_lt (hpos : 0 < a) (ha : a < 2 ^ F.degree) : inv F a < 2 ^ F.degree :=
  (inv_lt_and_isRemainder hpos ha).1

theorem fmul_inv (hpos : 0 < a) (ha : a < 2 ^ F.degree) : fmul F a (inv F a) = 1 :=
  fmul_eq_of_isRemainder ha (inv_lt hpos ha) (inv_lt_and_isRemainder hpos ha).2

theorem inv_pos (hpos : 0 < a) (ha : a < 2 ^ F.degree) : 0 < inv F a := by
  rw [Nat.pos_iff_ne_zero]
  intro hzero
  have hone := fmul_inv hpos ha
  rw [hzero, fmul_zero ha] at hone
  exact absurd hone Nat.zero_ne_one

theorem fmul_fmul_inv (hpos : 0 < a) (ha : a < 2 ^ F.degree) (hb : b < 2 ^ F.degree) :
    fmul F (fmul F b a) (inv F a) = b := by
  rw [fmul_assoc hb ha (inv_lt hpos ha), fmul_inv hpos ha, fmul_one hb]

theorem inv_inv (hpos : 0 < a) (ha : a < 2 ^ F.degree) : inv F (inv F a) = a := by
  have hb := inv_lt hpos ha
  have hbpos := inv_pos hpos ha
  have hc := inv_lt hbpos hb
  calc inv F (inv F a)
      = fmul F (fmul F a (inv F a)) (inv F (inv F a)) := by
        rw [fmul_inv hpos ha, fmul_comm, fmul_one hc]
    _ = a := fmul_fmul_inv hbpos hb ha

/-- Settles O51: associativity carries both other laws back to `a·inv(a) = 1`. -/
theorem inversionLaws : Obligations.InversionLaws :=
  fun _ _ _ hpos ha hb => ⟨fmul_inv hpos ha, inv_inv hpos ha, fmul_fmul_inv hpos ha hb⟩

/-! ## The command -/

/-- Settles O46: INV writes `inv`, which is canonical and so fits the register. -/
theorem invWritesTheInverse : Obligations.InvWritesTheInverse := by
  intro s rd ra hquiet ha hne
  obtain ⟨hlt, hrem⟩ := inv_lt_and_isRemainder (Nat.pos_of_ne_zero hne) ha
  have hfault : commandFault s.engine (.inv rd ra) = none :=
    commandFault_eq_none_of_canonical rfl rfl (by simp [canonicalSources, ha])
      (by simp [zeroDivisor, hne])
  obtain ⟨m, hexec, honly, hread⟩ := exec_writes_vec hquiet hfault rfl (canonical_fits hlt)
  rw [Engine.readV_elem, commandValue] at hread
  refine ⟨m, hexec, honly, ?_, hread ▸ hrem⟩
  rw [Engine.Canonical, hread]
  exact hlt

/-- Zero is canonical, so it is the last test of INV that fails (R201, R241). -/
theorem commandFault_inv_zero {m : Engine F} {ra : EReg} (rd : EReg) (h : m.readE ra = 0) :
    commandFault m (.inv rd ra) = some .divideByZero := by
  have hcanon : m.canonicalE ra = true := by
    rw [Engine.canonicalE_iff, h]
    positivity
  simp [commandFault, Instr.wellFormed, rangeBad, canonicalSources, zeroDivisor, hcanon, h]

/-- Settles O48. -/
theorem invOfZeroLatchesDivideByZero : Obligations.InvOfZeroLatchesDivideByZero := by
  intro s rd ra hquiet hzero
  rw [exec_of_quiet hquiet, Engine.executed_of_some (commandFault_inv_zero rd hzero), Engine.raise,
    EngineFault.statusWord_divideByZero]

end Sys2Proof.Machine
end

section
/-! # Runs of commands at the port

The commands a pseudo-instruction stands for (R93) are written to CMD one after another (R92), so a
run of them is a fold of what one command does to the engine. From here on DIV, POW and SQRT are
lists of commands issued to an engine. -/

namespace Sys2Proof.Machine

variable {F : FieldId}

/-! ## A list of commands -/

/-- What one command does to the engine, a fault latched or not (R80, R237). -/
def Engine.issued (m : Engine F) (i : Instr) : Engine F :=
  if m.err = true ∧ i ≠ .clrerr then m else m.executed i

theorem exec_eq_issued (i : Instr) (s : State) :
    exec i s = .next (s.withEngine (s.engine.issued i)) := by
  unfold Engine.issued
  split
  · next h =>
    obtain ⟨herr, hi⟩ := h
    exact exec_of_err herr hi
  · next h =>
    cases herr : s.engine.err with
    | false => exact exec_of_quiet herr i
    | true =>
      obtain rfl : i = .clrerr := not_not.mp fun hi => h ⟨herr, hi⟩
      rfl

/-- A command is ignored while a fault is latched (R237). -/
theorem Engine.issued_of_err {m : Engine F} {i : Instr} (herr : m.err = true) (hi : i ≠ .clrerr) :
    m.issued i = m := if_pos ⟨herr, hi⟩

/-- What `exec` is known to leave in the engine holds of the engine the command is issued to. -/
theorem Engine.issued_of_exec {s : State} {i : Instr} {P : Engine s.field → Prop}
    (h : ∃ m, exec i s = .next (s.withEngine m) ∧ P m) : P (s.engine.issued i) := by
  obtain ⟨m, hexec, hm⟩ := h
  have hengine : s.engine.issued i = m := by
    simpa [exec_eq_issued, State.withEngine] using hexec
  exact hengine ▸ hm

/-- A machine with this engine and an idle host: where facts about `exec` become facts about
engines. -/
def Engine.idle (m : Engine F) : State := ⟨F, m, [], []⟩

/-- What a list of commands does to the engine. -/
def Engine.issuedAll (m : Engine F) (is : List Instr) : Engine F := is.foldl Engine.issued m

@[simp] theorem Engine.issuedAll_nil (m : Engine F) : m.issuedAll [] = m := rfl

@[simp] theorem Engine.issuedAll_cons (m : Engine F) (i : Instr) (is : List Instr) :
    m.issuedAll (i :: is) = (m.issued i).issuedAll is := rfl

@[simp] theorem Engine.issuedAll_append (m : Engine F) (is js : List Instr) :
    m.issuedAll (is ++ js) = (m.issuedAll is).issuedAll js := List.foldl_append

/-- The first of a list of commands runs, and its write is answered `Ok` (R58). -/
theorem step_commandWrites {s : State} {i : Instr} {is : List Instr} {rest : List (Input s.field)}
    (hi : i.wellFormed = true) (hinputs : s.inputs = commandWrites s.field (i :: is) ++ rest) :
    step s = .next ((s.answered (commandWrites s.field is ++ rest) .ok).withEngine
      (s.engine.issued i)) :=
  (stepRunsTheDecodedCommand s _ _ _ hinputs (decode_encode_of_wellFormed hi)).trans
    (exec_eq_issued i _)

/-- Commands written to CMD in a row: every write is answered `Ok`, whatever its command does
(R58, R236). -/
theorem runs_commandWrites (is : List Instr) :
    ∀ (s : State) (rest : List (Input s.field)), (∀ i ∈ is, i.wellFormed = true) →
      s.inputs = commandWrites s.field is ++ rest →
      Runs is.length s
        { s with
          engine := s.engine.issuedAll is
          inputs := rest
          answers := List.replicate is.length .ok ++ s.answers } := by
  induction is with
  | nil =>
    intro s rest _ hinputs
    obtain rfl : s.inputs = rest := hinputs
    exact .zero s
  | cons i is ih =>
    intro s rest hwf hinputs
    obtain ⟨hi, his⟩ := List.forall_mem_cons.mp hwf
    refine .succ (step_commandWrites hi hinputs) ?_
    rw [List.length_cons, List.replicate_succ', List.append_assoc]
    exact ih ((s.answered _ .ok).withEngine _) rest his rfl

/-! ## The commands of DIV, POW and SQRT -/

theorem Engine.canonical_of_readE_eq {m : Engine F} {r : EReg} {v : Nat} (h : m.readE r = v)
    (hv : v < 2 ^ F.degree) : m.Canonical r := by
  rwa [Engine.Canonical, h]

/-- A write of `E[rd]` leaves every other element register as it was. -/
theorem OnlyVecChanges.readE_eq {rd r : EReg} {m m' : Engine F}
    (h : OnlyVecChanges (.e rd) m m') (hne : r ≠ rd) : m'.readE r = m.readE r := by
  obtain ⟨hread, -⟩ := h
  exact hread (.e r) (by simpa using hne)

section
variable {m : Engine F} {ra rb : EReg}

/-- MUL on canonical sources (R170, R173). -/
theorem issued_mul (rd : EReg) (hquiet : m.err = false) (ha : m.Canonical ra)
    (hb : m.Canonical rb) :
    OnlyVecChanges (.e rd) m (m.issued (.mul rd ra rb)) ∧
      (m.issued (.mul rd ra rb)).readE rd = fmul F (m.readE ra) (m.readE rb) :=
  Engine.issued_of_exec (s := m.idle)
    (exec_fieldMultiplications hquiet ha hb List.mem_cons_self)

/-- INV on a canonical non-zero source: the field product with the source is 1 (R200). -/
theorem issued_inv (rd : EReg) (hquiet : m.err = false) (ha : m.Canonical ra)
    (hne : m.readE ra ≠ 0) :
    OnlyVecChanges (.e rd) m (m.issued (.inv rd ra)) ∧ (m.issued (.inv rd ra)).Canonical rd ∧
      fmul F (m.readE ra) ((m.issued (.inv rd ra)).readE rd) = 1 := by
  obtain ⟨honly, hcanon, hone⟩ :=
    Engine.issued_of_exec (invWritesTheInverse m.idle rd ra hquiet ha hne)
  exact ⟨honly, hcanon, fmul_eq_of_isRemainder ha hcanon hone⟩

/-- INV of zero latches its fault and writes no register (R234). -/
theorem issued_inv_zero (rd : EReg) (hquiet : m.err = false) (hzero : m.readE ra = 0) :
    m.issued (.inv rd ra) = { m with status := 0x41, ecmd := encode (.inv rd ra) } :=
  Engine.issued_of_exec (s := m.idle) (P := (· = _))
    ⟨_, invOfZeroLatchesDivideByZero m.idle rd ra hquiet hzero, rfl⟩

/-- MOV between element registers, a CHLEN, copies any content (R93). -/
theorem issued_chlen_elem (rd ra : EReg) (hquiet : m.err = false) :
    OnlyVecChanges (.e rd) m (m.issued (.chlen (.e rd) (.e ra))) ∧
      (m.issued (.chlen (.e rd) (.e ra))).readE rd = m.readE ra := by
  obtain ⟨honly, hread⟩ :=
    Engine.issued_of_exec (chlenCopiesTheLowLimbs m.idle (.e rd) (.e ra) hquiet)
  exact ⟨honly, hread.trans (Nat.mod_eq_of_lt (m.readE_lt ra))⟩

/-- ZERO clears its register, whatever it held (R93). -/
theorem issuedAll_zeroMacro (rd : EReg) (hquiet : m.err = false) :
    OnlyVecChanges (.e rd) m (m.issuedAll (zeroMacro (.e rd))) ∧
      (m.issuedAll (zeroMacro (.e rd))).readE rd = 0 := by
  obtain ⟨honly, -, hzero⟩ :=
    Engine.issued_of_exec (xorWritesTheXor m.idle (.e rd) (.e rd) (.e rd) hquiet rfl rfl)
  exact ⟨honly, hzero rfl⟩

/-- FLIPBIT of bit 0 makes 0 the constant 1. -/
theorem issued_flipbit_zero {rd : EReg} (hquiet : m.err = false) (hzero : m.readE rd = 0) :
    OnlyVecChanges (.e rd) m (m.issued (.flipbit (.e rd) 0)) ∧
      (m.issued (.flipbit (.e rd) 0)).readE rd = 1 := by
  have hrange : (0 : BitVec 16).toNat < 64 * lenOf F (.e rd) :=
    Nat.mul_pos (by decide) (limbs_pos F)
  obtain ⟨honly, hbit⟩ :=
    Engine.issued_of_exec (flipbitInvertsOneBit m.idle (.e rd) 0 hquiet hrange)
  refine ⟨honly, Nat.eq_of_testBit_eq fun p => ?_⟩
  calc ((m.issued (.flipbit (.e rd) 0)).readE rd).testBit p
      = ((m.readE rd).testBit p ^^ decide (p = 0)) := hbit p
    _ = Nat.testBit 1 p := by cases p <;> simp [hzero, Nat.testBit_succ]

/-- ONE leaves 1 in its register, whatever it held (R93). -/
theorem issuedAll_oneMacro (rd : EReg) (hquiet : m.err = false) :
    OnlyVecChanges (.e rd) m (m.issuedAll (oneMacro (.e rd))) ∧
      (m.issuedAll (oneMacro (.e rd))).readE rd = 1 := by
  obtain ⟨honly, hzero⟩ := issuedAll_zeroMacro rd hquiet
  obtain ⟨honly', hone⟩ := issued_flipbit_zero (honly.err_eq.trans hquiet) hzero
  exact ⟨honly.trans honly', hone⟩

end

end Sys2Proof.Machine
end

section
/-! # DIV

O53 and O54. INV leaves the inverse in rt, which is not ra, so MUL has both its factors; when INV
faults the MUL is ignored. -/

namespace Sys2Proof.Machine

variable {F : FieldId} {m : Engine F} {ra rb rt : EReg}

theorem wellFormed_of_mem_divMacro (rd ra rb rt : EReg) :
    ∀ i ∈ divMacro rd ra rb rt, i.wellFormed = true := by
  simp [divMacro, Instr.wellFormed]

/-- `a · inv(b)` times `b` is `a` (R210). -/
theorem issuedAll_divMacro (rd : EReg) (hquiet : m.err = false) (hta : rt ≠ ra)
    (ha : m.Canonical ra) (hb : m.Canonical rb) (hne : m.readE rb ≠ 0) :
    (m.issuedAll (divMacro rd ra rb rt)).err = false ∧
      (m.issuedAll (divMacro rd ra rb rt)).Canonical rd ∧
      fmul F ((m.issuedAll (divMacro rd ra rb rt)).readE rd) (m.readE rb) = m.readE ra := by
  obtain ⟨honly, ht, hinv⟩ := issued_inv rt hquiet hb hne
  have hkept := honly.readE_eq hta.symm
  obtain ⟨honly', hread⟩ := issued_mul rd (honly.err_eq.trans hquiet)
    (Engine.canonical_of_readE_eq hkept ha) ht
  rw [hkept] at hread
  refine ⟨honly'.err_eq.trans (honly.err_eq.trans hquiet),
    Engine.canonical_of_readE_eq hread (fmul_lt ha ht), ?_⟩
  calc fmul F ((m.issuedAll (divMacro rd ra rb rt)).readE rd) (m.readE rb)
      = fmul F (fmul F (m.readE ra) ((m.issued (.inv rt rb)).readE rt)) (m.readE rb) :=
        congrArg (fmul F · _) hread
    _ = fmul F (m.readE ra) 1 := by rw [fmul_assoc ha ht hb, fmul_comm F _ (m.readE rb), hinv]
    _ = m.readE ra := fmul_one ha

/-- Settles O53. -/
theorem divMacroDivides : Obligations.DivMacroDivides := by
  intro s rd ra rb rt rest hquiet hta ha hb hne hinputs
  exact ⟨_, runs_commandWrites _ s rest (wellFormed_of_mem_divMacro rd ra rb rt) hinputs,
    issuedAll_divMacro rd hquiet hta ha hb hne⟩

/-- R210, R237: the MUL of a division by zero finds the fault latched. -/
theorem issuedAll_divMacro_zero (rd ra rt : EReg) (hquiet : m.err = false)
    (hzero : m.readE rb = 0) :
    m.issuedAll (divMacro rd ra rb rt)
      = { m with status := 0x41, ecmd := encode (.inv rt rb) } := by
  have hinv := issued_inv_zero rt hquiet hzero
  have herr : (m.issued (.inv rt rb)).err = true := by rw [hinv]; simp [Engine.err]
  calc m.issuedAll (divMacro rd ra rb rt)
      = m.issued (.inv rt rb) := Engine.issued_of_err herr (by simp)
    _ = { m with status := 0x41, ecmd := encode (.inv rt rb) } := hinv

/-- Settles O54. -/
theorem divMacroByZeroLatches : Obligations.DivMacroByZeroLatches := by
  intro s rd ra rb rt rest hquiet hzero hinputs
  rw [← issuedAll_divMacro_zero rd ra rt hquiet hzero]
  exact runs_commandWrites _ s rest (wellFormed_of_mem_divMacro rd ra rb rt) hinputs

end Sys2Proof.Machine
end

section
/-! # POW

O55. Right-to-left square-and-multiply keeps `c · s^n` while it halves `n` (R211). -/

namespace Sys2Proof.Machine

variable {F : FieldId} {a : Nat}

/-! ## Powers in the field -/

theorem one_lt_two_pow_degree (F : FieldId) : 1 < 2 ^ F.degree :=
  Nat.one_lt_two_pow (degree_pos F).ne'

theorem fpow_lt (ha : a < 2 ^ F.degree) (n : Nat) : fpow F a n < 2 ^ F.degree := by
  induction n with
  | zero => exact one_lt_two_pow_degree F
  | succ n ih => exact fmul_lt ih ha

theorem fpow_one (ha : a < 2 ^ F.degree) : fpow F a 1 = a := by
  rw [fpow, fpow, fmul_comm, fmul_one ha]

/-- `a^(m+n) = a^m · a^n` (R211). -/
theorem fpow_add (ha : a < 2 ^ F.degree) (m n : Nat) :
    fpow F a (m + n) = fmul F (fpow F a m) (fpow F a n) := by
  induction n with
  | zero => exact (fmul_one (fpow_lt ha m)).symm
  | succ n ih => rw [← Nat.add_assoc, fpow, ih, fmul_assoc (fpow_lt ha m) (fpow_lt ha n) ha, fpow]

/-- `a^(2n) = (a²)^n`. -/
theorem fpow_two_mul (ha : a < 2 ^ F.degree) (n : Nat) :
    fpow F a (2 * n) = fpow F (fmul F a a) n := by
  induction n with
  | zero => rfl
  | succ n ih =>
    rw [Nat.mul_succ, fpow, fpow, fmul_assoc (fpow_lt ha _) ha ha, ih, fpow]

/-- The low bit of the exponent apart: `a^n = a^(n mod 2) · (a²)^(n div 2)`. -/
theorem fpow_eq_mod_div (ha : a < 2 ^ F.degree) (n : Nat) :
    fpow F a n = fmul F (fpow F a (n % 2)) (fpow F (fmul F a a) (n / 2)) := by
  rw [← fpow_two_mul ha, ← fpow_add ha, Nat.mod_add_div]

/-! ## The loop -/

/-- The multiplication of one round of R211's loop, issued if the exponent is odd. -/
def conditionalMul (rd rs : EReg) (n : Nat) : List Instr :=
  if n % 2 = 1 then [.mul rd rd rs] else []

/-- One round of R211's loop. -/
def powRound (rd rs : EReg) (n : Nat) : List Instr := conditionalMul rd rs n ++ [.mul rs rs rs]

theorem powLoop_succ (rd rs : EReg) (bits n : Nat) :
    powLoop rd rs (bits + 1) n = powRound rd rs n ++ powLoop rd rs bits (n / 2) := rfl

section
variable {m : Engine F} {rd rs : EReg}

/-- c takes the power that the exponent's low bit stands for (R211). -/
theorem issuedAll_conditionalMul (hquiet : m.err = false) (hd : m.Canonical rd)
    (hs : m.Canonical rs) (n : Nat) :
    OnlyVecChanges (.e rd) m (m.issuedAll (conditionalMul rd rs n)) ∧
      (m.issuedAll (conditionalMul rd rs n)).readE rd
        = fmul F (m.readE rd) (fpow F (m.readE rs) (n % 2)) := by
  unfold conditionalMul
  rcases Nat.mod_two_eq_zero_or_one n with hn | hn
  · simp only [hn]
    exact ⟨.refl _ m, (fmul_one hd).symm⟩
  · simp only [hn, fpow_one hs]
    exact issued_mul rd hquiet hd hs

/-- A round multiplies c by the power of the low bit, then squares s (R211). -/
theorem issuedAll_powRound (hne : rd ≠ rs) (hquiet : m.err = false) (hd : m.Canonical rd)
    (hs : m.Canonical rs) (n : Nat) :
    (m.issuedAll (powRound rd rs n)).err = false ∧
      (m.issuedAll (powRound rd rs n)).readE rd
        = fmul F (m.readE rd) (fpow F (m.readE rs) (n % 2)) ∧
      (m.issuedAll (powRound rd rs n)).readE rs = fmul F (m.readE rs) (m.readE rs) := by
  obtain ⟨honly, hread⟩ := issuedAll_conditionalMul hquiet hd hs n
  rw [powRound, Engine.issuedAll_append]
  generalize m.issuedAll (conditionalMul rd rs n) = m₁ at honly hread ⊢
  have hs₁ : m₁.readE rs = m.readE rs := honly.readE_eq hne.symm
  have hcanon₁ := Engine.canonical_of_readE_eq hs₁ hs
  have hquiet₁ := honly.err_eq.trans hquiet
  obtain ⟨honly', hsquare⟩ := issued_mul rs hquiet₁ hcanon₁ hcanon₁
  rw [hs₁] at hsquare
  exact ⟨honly'.err_eq.trans hquiet₁, (honly'.readE_eq hne).trans hread, hsquare⟩

/-- The loop multiplies c by the n-th power of s (R211). -/
theorem issuedAll_powLoop (hne : rd ≠ rs) {bits n : Nat} (hn : n < 2 ^ bits)
    (hquiet : m.err = false) (hd : m.Canonical rd) (hs : m.Canonical rs) :
    (m.issuedAll (powLoop rd rs bits n)).err = false ∧
      (m.issuedAll (powLoop rd rs bits n)).readE rd
        = fmul F (m.readE rd) (fpow F (m.readE rs) n) := by
  induction bits generalizing n m with
  | zero =>
    obtain rfl : n = 0 := Nat.lt_one_iff.mp hn
    exact ⟨hquiet, (fmul_one hd).symm⟩
  | succ bits ih =>
    obtain ⟨hquiet₁, hd₁, hs₁⟩ := issuedAll_powRound hne hquiet hd hs n
    rw [powLoop_succ, Engine.issuedAll_append]
    generalize m.issuedAll (powRound rd rs n) = m₁ at hquiet₁ hd₁ hs₁ ⊢
    have hbit := fpow_lt hs (n % 2)
    have hsq := fmul_lt hs hs
    have hhalf : n / 2 < 2 ^ bits := by omega
    obtain ⟨hquiet₂, hread⟩ := ih hhalf hquiet₁
      (Engine.canonical_of_readE_eq hd₁ (fmul_lt hd hbit)) (Engine.canonical_of_readE_eq hs₁ hsq)
    refine ⟨hquiet₂, hread.trans ?_⟩
    rw [hd₁, hs₁, fmul_assoc hd hbit (fpow_lt hsq _), ← fpow_eq_mod_div hs]

end

theorem wellFormed_of_mem_powLoop (rd rs : EReg) (bits n : Nat) :
    ∀ i ∈ powLoop rd rs bits n, i.wellFormed = true := by
  induction bits generalizing n with
  | zero => simp [powLoop]
  | succ bits ih =>
    intro i hi
    simp only [powLoop_succ, powRound, conditionalMul, List.mem_append] at hi
    rcases hi with (hmul | hsqr) | hrest
    · split at hmul
      · rw [List.mem_singleton.mp hmul]; rfl
      · cases hmul
    · rw [List.mem_singleton.mp hsqr]; rfl
    · exact ih _ i hrest

theorem wellFormed_of_mem_powMacro (rd ra rs : EReg) (n : Nat) :
    ∀ i ∈ powMacro rd ra n rs, i.wellFormed = true := by
  intro i hi
  rcases List.mem_append.mp hi with hstart | hloop
  · simp only [oneMacro, zeroMacro, List.mem_append, List.mem_singleton] at hstart
    rcases hstart with (rfl | rfl) | rfl <;> rfl
  · exact wellFormed_of_mem_powLoop rd rs _ n i hloop

/-- POW from `c = 1` and `s = a` (R211). -/
theorem issuedAll_powMacro {m : Engine F} {rd ra rs : EReg} (hquiet : m.err = false)
    (hds : rd ≠ rs) (hda : rd ≠ ra) (ha : m.Canonical ra) (n : Nat) :
    (m.issuedAll (powMacro rd ra n rs)).err = false ∧
      (m.issuedAll (powMacro rd ra n rs)).readE rd = fpow F (m.readE ra) n := by
  obtain ⟨honly, hone⟩ := issuedAll_oneMacro rd hquiet
  simp only [powMacro, Engine.issuedAll_append]
  generalize m.issuedAll (oneMacro (.e rd)) = m₁ at honly hone ⊢
  have ha₁ : m₁.readE ra = m.readE ra := honly.readE_eq hda.symm
  have hquiet₁ := honly.err_eq.trans hquiet
  obtain ⟨honly', hcopy⟩ := issued_chlen_elem rs ra hquiet₁
  have hs₂ := hcopy.trans ha₁
  have hd₂ := (honly'.readE_eq hds).trans hone
  obtain ⟨hquiet₃, hread⟩ := issuedAll_powLoop hds (lt_two_pow_bitLength n)
    (honly'.err_eq.trans hquiet₁) (Engine.canonical_of_readE_eq hd₂ (one_lt_two_pow_degree F))
    (Engine.canonical_of_readE_eq hs₂ ha)
  refine ⟨hquiet₃, hread.trans ?_⟩
  rw [hd₂, hs₂, fmul_comm, fmul_one (fpow_lt ha n)]

/-- Settles O55. -/
theorem powMacroRaisesToThePower : Obligations.PowMacroRaisesToThePower := by
  intro s rd ra rs n rest hquiet hds hda ha hinputs
  exact ⟨_, runs_commandWrites _ s rest (wellFormed_of_mem_powMacro rd ra rs n) hinputs,
    issuedAll_powMacro hquiet hds hda ha n⟩

end Sys2Proof.Machine
end

section
/-! # SQRT

O56. The copy is squared `D − 1` times; one square more is the operand, by the Frobenius fixpoint
(R192, R212). -/

namespace Sys2Proof.Machine

/-- `D − 1` field squares are a square root (R212). -/
theorem fmul_self_fieldSquares {F : FieldId} {a d : Nat} (hd : F.degree = d + 1)
    (ha : a < 2 ^ F.degree) : fmul F (fieldSquares F d a) (fieldSquares F d a) = a :=
  calc fmul F (fieldSquares F d a) (fieldSquares F d a)
      = fieldSquares F (d + 1) a := (Function.iterate_succ_apply' (fun v => fmul F v v) d a).symm
    _ = a := by rw [← hd, fieldSquares_degree ha]

/-- Settles O56. -/
theorem sqrtMacroTakesTheRoot : Obligations.SqrtMacroTakesTheRoot := by
  intro s rd ra rest hquiet ha hinputs
  obtain ⟨d, hd⟩ : ∃ d, s.field.degree = d + 1 := Nat.exists_eq_add_one.mpr (degree_pos s.field)
  obtain ⟨honly, hcopy⟩ := issued_chlen_elem rd ra hquiet
  rw [sqrtMacro, hd, Nat.add_sub_cancel] at hinputs
  have hmov := step_commandWrites rfl hinputs
  obtain ⟨m, honly', hsquares, hsqr⟩ := runs_sqr d
    ((s.answered (commandWrites s.field (List.replicate d (.sqr rd rd)) ++ rest) .ok).withEngine
      (s.engine.issued (.chlen (.e rd) (.e ra)))) rest
    (honly.err_eq.trans hquiet) (Engine.canonical_of_readE_eq hcopy ha) rfl
  have hread := hsquares.trans (congrArg (fieldSquares s.field d) hcopy)
  obtain ⟨hlt, -⟩ := isRemainder_fieldSquares d ha
  refine ⟨_, hd ▸ Runs.succ hmov hsqr, honly'.err_eq.trans (honly.err_eq.trans hquiet),
    hread.trans_lt hlt, ?_⟩
  calc fmul s.field (m.readE rd) (m.readE rd)
      = fmul s.field (fieldSquares s.field d (s.engine.readE ra))
          (fieldSquares s.field d (s.engine.readE ra)) := by rw [hread]
    _ = s.engine.readE ra := fmul_self_fieldSquares hd ha

end Sys2Proof.Machine
end

section
/-! # The system commands, the first failing test, and RED

O13, O14, O9 and O39: consequences of what one command does with no fault latched, and of the latch
test. -/

namespace Sys2Proof.Machine

/-- Settles O13: a latched fault ignores NOP, and otherwise its body changes nothing. -/
theorem nopChangesNothing : Obligations.NopChangesNothing := by
  intro s
  rcases s.command_cases (fun m => m) with ⟨-, hignored⟩ | ⟨-, hexecuted⟩
  · exact hignored
  · exact hexecuted

/-- Settles O14: CLRERR is not gated by the latch; its effect is `Engine.clearFault`, written out. -/
theorem clrerrClearsStatusAndEcmd : Obligations.ClrerrClearsStatusAndEcmd :=
  fun _ => rfl

/-- Settles O9: the tests of R241 end in fault entry, R236. -/
theorem firstFailingTestIsLatched : Obligations.FirstFailingTestIsLatched := by
  intro i s x hquiet hfault
  rw [exec_of_quiet hquiet, Engine.executed_of_some hfault, Engine.raise,
    EngineFault.statusWord]

/-- Settles O39: RED writes the reduction, which is the remainder of any wide content. -/
theorem redWritesTheRemainder : Obligations.RedWritesTheRemainder := by
  intro s rd ra hquiet
  obtain ⟨m, hexec, honly, hread⟩ := exec_red hquiet rd ra
  exact ⟨m, hexec, honly, hread ▸ isRemainder_reduce (s.engine.readC_lt ra)⟩

end Sys2Proof.Machine
end

section
/-! # A word written with no fault latched

O8. Such a word runs its command, or latches IllegalCommand if it is no command's (R80, R231);
either way ERR stays 0 or a fault is latched with the word itself (R236). -/

namespace Sys2Proof.Machine

variable {F : FieldId}

/-- A word that the decoder rejects latches IllegalCommand (R80, R231). -/
theorem executeWord_of_decode_error {s : State} {w : Word} {e : DecodeError}
    (hquiet : s.engine.err = false) (h : decode w = .error e) :
    executeWord w s = .next (s.withEngine (s.engine.raise .illegalCommand w)) := by
  rw [executeWord, h]
  exact State.command_of_quiet hquiet _

/-- R90: the decoder rejects a word that is not legal. -/
theorem exists_decode_error_of_not_legal {w : Word} (h : legal w = false) :
    ∃ e, decode w = .error e := by
  cases hdecode : decode w with
  | error e => exact ⟨e, rfl⟩
  | ok i => exact absurd (legal_of_decode hdecode) (by rw [h]; exact Bool.false_ne_true)

/-- Settles O8: the answered state has the same engine. -/
theorem illegalWordLatchesIllegalCommand : Obligations.IllegalWordLatchesIllegalCommand := by
  intro s w rest hinputs hillegal hquiet
  obtain ⟨e, hdecode⟩ := exists_decode_error_of_not_legal hillegal
  rw [step_command hinputs,
    executeWord_of_decode_error (s := s.answered rest .ok) hquiet hdecode, Engine.raise,
    EngineFault.statusWord_illegalCommand]
  rfl

/-- No destination of R25 sets STATUS.ERR (R27). -/
theorem Engine.writeDest_err_of_quiet {m : Engine F} (h : m.err = false) (d : Destination)
    (v : Nat) : (m.writeDest d v).err = false := by
  cases d with
  | nothing | res => exact h
  | latch => exact m.clearFault_err
  | vec r => exact (m.writeV_err r v).trans h

/-- With no fault latched a command leaves ERR = 0 or raises a fault with its own word (R236). -/
theorem Engine.executed_err_or_raise {m : Engine F} (h : m.err = false) (i : Instr) :
    (m.executed i).err = false ∨ ∃ x, m.executed i = m.raise x (encode i) := by
  cases hfault : commandFault m i with
  | none => exact .inl (Engine.executed_of_none hfault ▸ Engine.writeDest_err_of_quiet h _ _)
  | some x => exact .inr ⟨x, Engine.executed_of_some hfault⟩

/-- The same for any word written to CMD (R80). -/
theorem executeWord_err_or_raise {s : State} (h : s.engine.err = false) (w : Word) :
    ∃ m : Engine s.field, executeWord w s = .next (s.withEngine m) ∧
      (m.err = false ∨ ∃ x, m = s.engine.raise x w) := by
  cases hdecode : decode w with
  | error e =>
    exact ⟨_, executeWord_of_decode_error h hdecode, .inr ⟨_, rfl⟩⟩
  | ok i =>
    obtain ⟨rfl, -⟩ := encode_eq_of_decode hdecode
    refine ⟨s.engine.executed i, ?_, Engine.executed_err_or_raise h i⟩
    rw [executeWord, hdecode]
    exact exec_of_quiet h i

end Sys2Proof.Machine
end

section
/-! # The error latch over runs

O18 and O19. A step whose input neither is CLRERR nor a reset leaves STATUS, ECMD and RES as they
were, or executes a word on CMD. Of these only a word that finds no fault latched can change them
(R237), and it sets ERR only together with ECMD (R236). So the first fault of a run is the one that
STATUS and ECMD show at its end (R238). -/

namespace Sys2Proof.Machine

/-! ## STATUS, ECMD and RES of two states -/

/-- STATUS, ECMD and RES of `t` are those of `s`. -/
structure State.SameControl (s t : State) : Prop where
  status : t.engine.status = s.engine.status
  ecmd : t.engine.ecmd = s.engine.ecmd
  res : t.engine.res = s.engine.res

theorem State.SameControl.refl (s : State) : s.SameControl s := ⟨rfl, rfl, rfl⟩

theorem State.SameControl.trans {s t u : State} (h : s.SameControl t) (h' : t.SameControl u) :
    s.SameControl u :=
  ⟨h'.status.trans h.status, h'.ecmd.trans h.ecmd, h'.res.trans h.res⟩

theorem State.SameControl.err_eq {s t : State} (h : s.SameControl t) :
    t.engine.err = s.engine.err := by
  rw [Engine.err, Engine.err, h.status]

/-- The next input of `s` writes `w` to CMD, and `t` shows the fault it latched (R236). -/
structure State.Latches (s t : State) (w : Word) : Prop where
  input : ∃ rest, s.inputs = .hostWrite 0 w :: rest
  err : t.engine.err = true
  ecmd : t.engine.ecmd = w
  res : t.engine.res = s.engine.res

/-- None of the next `n` inputs can end a latched fault (R239). -/
def State.UnclearedFor (s : State) (n : Nat) : Prop :=
  ∀ x ∈ s.inputs.take n, x.clearsLatch = false

theorem State.unclearedFor_of_nil {s : State} (h : s.inputs = []) (n : Nat) :
    s.UnclearedFor n := by
  rw [State.UnclearedFor, h, List.take_nil]
  exact fun _ => (absurd · List.not_mem_nil)

theorem State.unclearedFor_succ_iff {s : State} {x : Input s.field} {rest : List (Input s.field)}
    {n : Nat} (h : s.inputs = x :: rest) :
    s.UnclearedFor (n + 1) ↔ x.clearsLatch = false ∧ ∀ y ∈ rest.take n, y.clearsLatch = false := by
  rw [State.UnclearedFor, h, List.take_succ_cons, List.forall_mem_cons]

/-! ## One step -/

/-- CMD is at address 0x000 only (R56). -/
theorem eq_zero_of_portMap_cmd {F : FieldId} {a : Addr} (h : portMap F a = some .cmd) : a = 0 := by
  obtain ⟨-, ha⟩ := portMap_eq_some_iff.mp h
  exact BitVec.eq_of_toNat_eq ha

theorem Input.clearsLatch_clrerr {F : FieldId} :
    (Input.hostWrite 0 clrerrWord : Input F).clearsLatch = true := rfl

theorem Input.clearsLatch_reset {F : FieldId} (draw : Contents F) :
    (Input.reset draw).clearsLatch = true := rfl

theorem sameControl_or_of_step_eq {s t u : State} {n : Nat} {P : Prop} (hstep : step s = .next t)
    (heq : step s = .next u) (hu : u.UnclearedFor n) (hsame : s.SameControl u) :
    t.UnclearedFor n ∧ (s.SameControl t ∨ P) := by
  obtain rfl := Host.Outcome.next.inj (heq.symm.trans hstep)
  exact ⟨hu, .inl hsame⟩

/-- A step whose input cannot end a latched fault keeps STATUS, ECMD and RES, or executes a word
other than CLRERR's. -/
theorem step_sameControl_or_executeWord {s t : State} {n : Nat} (hs : s.UnclearedFor (n + 1))
    (hstep : step s = .next t) :
    t.UnclearedFor n ∧ (s.SameControl t ∨
      ∃ w rest, s.inputs = .hostWrite 0 w :: rest ∧ w ≠ clrerrWord ∧
        executeWord w (s.answered rest .ok) = .next t) := by
  have hhead {x rest} (hin : s.inputs = x :: rest) : x.clearsLatch = false :=
    ((State.unclearedFor_succ_iff hin).mp hs).1
  have htail {x rest} (hin : s.inputs = x :: rest) : ∀ y ∈ rest.take n, y.clearsLatch = false :=
    ((State.unclearedFor_succ_iff hin).mp hs).2
  rcases step_cases s with ⟨hnil, heq⟩ | ⟨a, rest, hin, heq⟩ | ⟨a, w, rest, hin, hmap, heq⟩ |
    ⟨a, v, rest, r, i, hin, -, heq⟩ | ⟨a, v, rest, q, i, hin, -, heq⟩ |
    ⟨a, v, rest, hin, heq⟩ | ⟨draw, rest, hin, -⟩
  · exact sameControl_or_of_step_eq hstep heq (State.unclearedFor_of_nil hnil n) (.refl s)
  · exact sameControl_or_of_step_eq hstep heq (htail hin) ⟨rfl, rfl, rfl⟩
  · obtain rfl := eq_zero_of_portMap_cmd hmap
    have hexec := heq.symm.trans hstep
    refine ⟨?_, .inr ⟨w, rest, hin, ?_, hexec⟩⟩
    · obtain ⟨m, hm⟩ := executeWord_withEngine w (s.answered rest .ok)
      obtain rfl := Host.Outcome.next.inj (hm.symm.trans hexec)
      exact htail hin
    · rintro rfl
      exact absurd ((hhead hin).symm.trans Input.clearsLatch_clrerr) Bool.false_ne_true
  · exact sameControl_or_of_step_eq hstep heq (htail hin) ⟨rfl, rfl, rfl⟩
  · exact sameControl_or_of_step_eq hstep heq (htail hin) ⟨rfl, rfl, rfl⟩
  · exact sameControl_or_of_step_eq hstep heq (htail hin) ⟨rfl, rfl, rfl⟩
  · exact absurd ((hhead hin).symm.trans (Input.clearsLatch_reset draw)) Bool.false_ne_true

/-- R237: a step that cannot end a latched fault keeps it. -/
theorem step_sameControl_of_err {s t : State} {n : Nat} (herr : s.engine.err = true)
    (hs : s.UnclearedFor (n + 1)) (hstep : step s = .next t) :
    t.UnclearedFor n ∧ s.SameControl t := by
  obtain ⟨hrest, hsame | ⟨w, rest, -, hw, hexec⟩⟩ := step_sameControl_or_executeWord hs hstep
  · exact ⟨hrest, hsame⟩
  · rw [executeWord_of_err (s := s.answered rest .ok) herr hw] at hexec
    obtain rfl := Host.Outcome.next.inj hexec
    exact ⟨hrest, rfl, rfl, rfl⟩

/-- R236, R238: with no fault latched, a step leaves ERR = 0 or latches the word it takes. -/
theorem step_err_or_latches {s t : State} {n : Nat} (hquiet : s.engine.err = false)
    (hs : s.UnclearedFor (n + 1)) (hstep : step s = .next t) :
    t.UnclearedFor n ∧ (t.engine.err = false ∨ ∃ w, s.Latches t w) := by
  obtain ⟨hrest, hsame | ⟨w, rest, hin, -, hexec⟩⟩ := step_sameControl_or_executeWord hs hstep
  · exact ⟨hrest, .inl (hsame.err_eq.trans hquiet)⟩
  · obtain ⟨m, hm, hlatch⟩ := executeWord_err_or_raise (s := s.answered rest .ok) hquiet w
    obtain rfl := Host.Outcome.next.inj (hm.symm.trans hexec)
    rcases hlatch with herr | ⟨x, rfl⟩
    · exact ⟨hrest, .inl herr⟩
    · exact ⟨hrest, .inr ⟨w, ⟨rest, hin⟩, Engine.raise_err _ x w, rfl, rfl⟩⟩

/-! ## A latched fault over a run -/

theorem runs_sameControl_of_err {n : Nat} {s t : State} (herr : s.engine.err = true)
    (hs : s.UnclearedFor n) (hrun : Runs n s t) : s.SameControl t := by
  induction n generalizing s with
  | zero =>
    obtain rfl : s = t := Host.Outcome.next.inj hrun
    exact .refl s
  | succ n ih =>
    obtain ⟨s', hstep, hrun'⟩ := hrun.exists_first_step
    obtain ⟨hs', hsame⟩ := step_sameControl_of_err herr hs hstep
    exact hsame.trans (ih (hsame.err_eq.trans herr) hs' hrun')

/-- Settles O18, by induction on the number of steps. -/
theorem latchedFaultStaysUntilCleared : Obligations.LatchedFaultStaysUntilCleared := by
  intro n s t herr hs hrun
  obtain ⟨hstatus, hecmd, hres⟩ := runs_sameControl_of_err herr hs hrun
  exact ⟨hstatus, hecmd, hres⟩

/-! ## The first fault of a run -/

/-- No fault is latched in the first `n` steps from `s`. -/
def QuietThrough (n : Nat) (s : State) : Prop :=
  ∀ k u, k ≤ n → Runs k s u → u.engine.err = false

theorem QuietThrough.zero {s : State} (h : s.engine.err = false) : QuietThrough 0 s := by
  intro k u hk hrun
  obtain rfl : k = 0 := Nat.le_zero.mp hk
  obtain rfl : s = u := Host.Outcome.next.inj hrun
  exact h

theorem QuietThrough.succ {n : Nat} {s s' : State} (h : s.engine.err = false)
    (hstep : step s = .next s') (hquiet : QuietThrough n s') : QuietThrough (n + 1) s := by
  intro k u hk hrun
  cases k with
  | zero => exact QuietThrough.zero h 0 u le_rfl hrun
  | succ k =>
    obtain ⟨s'', hstep', hrun'⟩ := hrun.exists_first_step
    obtain rfl := Host.Outcome.next.inj (hstep.symm.trans hstep')
    exact hquiet k u (Nat.le_of_succ_le_succ hk) hrun'

/-- Step `k + 1 ≤ n` from `s` is the first that latches a fault, and `t` still shows it. -/
def FaultsFirst (n : Nat) (s t : State) : Prop :=
  ∃ k u v w, k < n ∧ QuietThrough k s ∧ Runs k s u ∧ Runs (k + 1) s v ∧ u.Latches v w ∧
    v.SameControl t

theorem FaultsFirst.succ {n : Nat} {s s' t : State} (h : s.engine.err = false)
    (hstep : step s = .next s') (hfaults : FaultsFirst n s' t) : FaultsFirst (n + 1) s t := by
  obtain ⟨k, u, v, w, hk, hquiet, hu, hv, hlatches, hsame⟩ := hfaults
  exact ⟨k + 1, u, v, w, Nat.succ_lt_succ hk, hquiet.succ h hstep, .succ hstep hu,
    .succ hstep hv, hlatches, hsame⟩

/-- R238: a run with no fault latched before it stays quiet, or has a first fault that stays. -/
theorem quietThrough_or_faultsFirst {n : Nat} {s t : State} (hquiet : s.engine.err = false)
    (hs : s.UnclearedFor n) (hrun : Runs n s t) : QuietThrough n s ∨ FaultsFirst n s t := by
  induction n generalizing s with
  | zero => exact .inl (.zero hquiet)
  | succ n ih =>
    obtain ⟨s', hstep, hrun'⟩ := hrun.exists_first_step
    obtain ⟨hs', hquiet' | ⟨w, hlatches⟩⟩ := step_err_or_latches hquiet hs hstep
    · exact (ih hquiet' hs' hrun').imp (.succ hquiet hstep) (.succ hquiet hstep)
    · exact .inr ⟨0, s, s', w, Nat.succ_pos n, .zero hquiet, .zero s, .succ hstep (.zero s'),
        hlatches, runs_sameControl_of_err hlatches.err hs' hrun'⟩

/-- Settles O19: ERR at the end tells the two kinds of run apart. -/
theorem statusAtTheEndTellsTheWholeRun : Obligations.StatusAtTheEndTellsTheWholeRun := by
  intro n s t hquiet hs hrun
  rcases quietThrough_or_faultsFirst hquiet hs hrun with
    hall | ⟨k, u, v, w, hk, hbefore, hu, hv, hlatches, hsame⟩
  · have hend : t.engine.err = false := hall n t le_rfl hrun
    exact ⟨fun _ => hall, fun herr => absurd (hend.symm.trans herr) Bool.false_ne_true⟩
  · have hend : t.engine.err = true := hsame.err_eq.trans hlatches.err
    obtain ⟨rest, hin⟩ := hlatches.input
    refine ⟨fun hzero => absurd (hzero.symm.trans hend) Bool.false_ne_true, fun _ => ?_⟩
    exact ⟨k, u, v, w, rest, hk, hbefore, hu, hin, hv, hlatches.err, hlatches.ecmd,
      hsame.ecmd.trans hlatches.ecmd, hsame.res.trans hlatches.res⟩

end Sys2Proof.Machine
end
